-- ==== Sys2Proof/Word.lean ====
section
/-! DEFINITION. The word types of the machine (spec/00_scope.md rules R10, R12). -/

namespace Sys2Proof

/-- Eight bits, the unit that one address names (20_memory.md rule R50). -/
abbrev Byte := BitVec 8

/-- Thirty-two bits: an element of a vector register (00_scope.md rule R12), `MXCSR`, an error code. -/
abbrev Dword := BitVec 32

/-- Sixty-four bits: a general register, the program counter, a linear address. -/
abbrev Qword := BitVec 64

/-- The elements `[31:0], [63:32], …, [511:480]` of one vector register entry, element 0 first
(00_scope.md rule R12: element `j` is the slice `[32j+31:32j]`). Sixteen elements are the widest
register the spec allows (rule R7, `MAX_VL = 512`). -/
abbrev Lanes := Vector Dword 16

end Sys2Proof
end

