-- ==== Sys2Proof/Config.lean ====
section
/-! DEFINITION. What the spec leaves to the implementation: the parameters of 00_scope.md rules R7 to R9,
as plain data that a state carries, and the free values, which have no body. -/

namespace Sys2Proof

/-- A vector length in bits (00_scope.md rule R12), also the values of `MAX_VL` (rule R7). -/
inductive VLen
  | v128
  | v256
  | v512
deriving DecidableEq, Repr, Inhabited

/-- The width `KW` of an opmask register (10_state.md rule R24). -/
inductive KWidth
  | w16
  | w64
deriving DecidableEq, Repr, Inhabited

/-- The operating modes that a state can be in: 64-bit mode, 32-bit protected or compatibility mode
with a 32-bit code segment (together the spec's parameter `MODE64`, 00_scope.md rule R9), and the
real-address mode that the processor leaves reset in (10_state.md rule R35). The other modes of
00_scope.md rule R6(f) have no constructor. -/
inductive Mode
  | realAddress
  | protected32
  | mode64
deriving DecidableEq, Repr, Inhabited

/-- A set of the five SIMD floating-point conditions (60_exceptions.md rule R200). Divide-by-zero has no
field, so no element can signal it (43_lane_arithmetic.md rule R187). -/
structure FpFlags where
  ie : Bool
  de : Bool
  oe : Bool
  ue : Bool
  pe : Bool
deriving DecidableEq, Repr, Inhabited

/-- The parameters of the model, fixed for a run: no step writes them. A statement about every state is
a statement about every implementation. -/
structure Config where
  /-- CPUID feature flag SSE (00_scope.md rule R8). -/
  sse : Bool
  /-- CPUID feature flag AVX. -/
  avx : Bool
  /-- CPUID feature flag AVX512F. -/
  avx512f : Bool
  /-- CPUID feature flag AVX512VL. -/
  avx512vl : Bool
  /-- `MAX_VL`, the width of the widest vector register implemented (00_scope.md rule R7). -/
  maxVl : VLen
  /-- `KW`, the width of an opmask register (10_state.md rule R24). -/
  kw : KWidth
  /-- `AC_ON_VECTOR`: an unaligned VEX or EVEX operand may raise `#AC(0)` (20_memory.md rule R55). -/
  acOnVector : Bool
  /-- `FAULT_SUPPRESSION`: bytes of masked-off elements are not accessed (42_vsubps_evex.md rule R160). -/
  faultSuppression : Bool
  /-- Whether FTZ flushes a tiny result under embedded rounding when `MXCSR.UM = 0`
  (93_implementation_defined.md U6). -/
  erFlush : Bool
  /-- Whether the offsets of one operand wrap modulo `2^A`, for `A` 16 or 32, a part of `Translate`
  (20_memory.md rule R52, 93_implementation_defined.md U12; for `A = 64` see `byteOffset`, log 27). -/
  wrapOffsets : Bool
deriving DecidableEq, Repr, Inhabited

/-- The constraints of 00_scope.md rules R7 and R8, a launch-state premise (70_reset_and_hazards.md rule
R243(b)); every step keeps them because no step writes the configuration. -/
abbrev Config.ok (c : Config) : Prop :=
  (c.avx512vl = true → c.avx512f = true) ∧ (c.avx512f = true → c.avx = true) ∧
    (c.avx = true → c.sse = true) ∧ (c.avx = true → c.maxVl ≠ .v128) ∧
    (c.avx512f = true → c.maxVl = .v512)

/-- FREE VALUE (log entry 2). The candidate for the set `G` of `MXCSR` flags that an unmasked condition
leaves set, one for each fault (60_exceptions.md rule R203: some `G` within stated bounds). -/
opaque Config.freeFlags : Nat → FpFlags

/-- FREE VALUE (log entry 3). Which of several faulting bytes of one operand is reported, one choice for
each fault (20_memory.md rule R60: any of them). -/
opaque Config.freePick : Nat → Nat

/-- FREE VALUE (log entry 4). Whether an access that may raise `#AC(0)` does, one choice for each data
access and attempt (60_exceptions.md rule R214: `may` end the step in `#AC(0)`). -/
opaque Config.freeTrap : Nat → Bool

end Sys2Proof
end

