-- ==== Sys2Proof/Machine/Lane.lean ====
section
/-! DEFINITION. The element operation: the single-precision subtraction `LaneSub` by its reference definition
(43_lane_arithmetic.md rules R171 to R189; log 12). A finite value is held as the integer that
counts units of 2^-149, of which every finite value and every difference is a multiple (rule R180). -/

namespace Sys2Proof

/-! ## Sets of conditions -/

/-- The empty set of conditions. -/
def FpFlags.none : FpFlags := ⟨false, false, false, false, false⟩

/-- The union of two sets of conditions. -/
def FpFlags.union (f g : FpFlags) : FpFlags :=
  ⟨f.ie || g.ie, f.de || g.de, f.oe || g.oe, f.ue || g.ue, f.pe || g.pe⟩

/-- The intersection of two sets of conditions. -/
def FpFlags.inter (f g : FpFlags) : FpFlags :=
  ⟨f.ie && g.ie, f.de && g.de, f.oe && g.oe, f.ue && g.ue, f.pe && g.pe⟩

/-- Whether a set of conditions is empty. -/
def FpFlags.isEmpty (f : FpFlags) : Bool := !(f.ie || f.de || f.oe || f.ue || f.pe)

end Sys2Proof

namespace Sys2Proof.Machine

/-! ## Format and rounding modes -/

/-- The classes of rule R171. -/
inductive FpClass
  | zero
  | denormal
  | normal
  | inf
  | qnan
  | snan
deriving DecidableEq, Repr

/-- The biased exponent, bits 30:23 (rule R171). -/
def expField (v : Dword) : BitVec 8 := v.extractLsb' 23 8

/-- The fraction, bits 22:0 (rule R171). -/
def fracField (v : Dword) : BitVec 23 := v.extractLsb' 0 23

/-- The sign, bit 31 (rule R171). -/
def signBit (v : Dword) : Bool := v.getLsbD 31

/-- `cls`, the class of a pattern (rule R171). -/
def cls (v : Dword) : FpClass :=
  if expField v = 0#8 then (if fracField v = 0#23 then .zero else .denormal)
  else if expField v = 255#8 then
    (if fracField v = 0#23 then .inf else if v.getLsbD 22 then .qnan else .snan)
  else .normal

/-- Whether a pattern is a NaN. -/
def isNan (v : Dword) : Bool := cls v == .qnan || cls v == .snan

/-- The magnitude of a finite pattern in units of 2^-149 (rule R171). -/
def magOf (v : Dword) : Nat :=
  if expField v = 0#8 then (fracField v).toNat
  else (2 ^ 23 + (fracField v).toNat) * 2 ^ ((expField v).toNat - 1)

/-- `val`, the value of a finite pattern in units of 2^-149 (rule R171). -/
def valOf (v : Dword) : Int := if signBit v then -(magOf v : Int) else (magOf v : Int)

/-- The rounding modes (rule R172). -/
inductive Rounding
  | nearest
  | down
  | up
  | truncate
deriving DecidableEq, Repr

/-- The rounding mode of a two-bit field: `MXCSR.RC` or `EVEX.RC` (rule R172). -/
def Rounding.ofBits (b : BitVec 2) : Rounding :=
  if b = 0b00#2 then .nearest else if b = 0b01#2 then .down else if b = 0b10#2 then .up
  else .truncate

/-- `s ++ 0^31` (rule R189). -/
def zeroOf (s : Bool) : Dword := BitVec.ofBool s ++ 0#31

/-- The pattern of a magnitude that the format holds, given in units of 2^-149: a denormal below 2^23 units,
else the normal whose exponent field makes 2^(e-1) units the last place (rule R171). -/
def encMag (n : Nat) : BitVec 31 :=
  if n < 2 ^ 23 then BitVec.ofNat 31 n
  else BitVec.ofNat 31 ((n.log2 - 22) * 2 ^ 23 + (n / 2 ^ (n.log2 - 23) - 2 ^ 23))

/-- `enc`, the pattern of a representable value (rule R189). -/
def encVal (s : Bool) (n : Nat) : Dword := BitVec.ofBool s ++ encMag n

/-- The magnitude `|y|` to which a magnitude `n` with sign `s` rounds (rule R180): `u` is the unit in the last
place, `lo` and `hi` the neighbours. -/
def roundMag (rm : Rounding) (s : Bool) (n : Nat) : Nat :=
  let u := 2 ^ (n.log2 - 23)
  let lo := n / u * u
  let hi := lo + u
  if n = lo then n
  else match rm with
    | .truncate => lo
    | .down => if s then hi else lo
    | .up => if s then lo else hi
    | .nearest =>
      if n - lo < hi - n then lo
      else if hi - n < n - lo then hi
      else if n / u % 2 = 0 then lo else hi

/-! ## The lane function -/

/-- Denormals-are-zeros (rule R173). -/
def dazOf (daz : Bool) (v : Dword) : Dword :=
  if daz ∧ cls v = .denormal then zeroOf (signBit v) else v

/-- The result of an overflow: infinity or the largest finite number, by mode and sign (rule R182). -/
def overflowResult (rm : Rounding) (s : Bool) : Dword :=
  if rm = .nearest ∨ (rm = .up ∧ s = false) ∨ (rm = .down ∧ s = true) then
    BitVec.ofBool s ++ 0x7F800000#31
  else BitVec.ofBool s ++ 0x7F7FFFFF#31

/-- The difference of two finite patterns, `f` being the conditions on the operands (rules R179 to R184, the
second half of rule R189). -/
def finiteSub (rm : Rounding) (ftz um : Bool) (a b : Dword) (f : FpFlags) : Dword × FpFlags :=
  let x := valOf a - valOf b
  let s := decide (x < 0)
  let n := x.natAbs
  if x = 0 then
    if cls a = .zero ∧ cls b = .zero ∧ signBit a ≠ signBit b then (zeroOf (signBit a), f)
    else (zeroOf (rm == .down), f)
  else if n < 2 ^ 23 then
    if um = false then (encVal s n, { f with ue := true })
    else if ftz then (zeroOf s, { f with ue := true, pe := true })
    else (encVal s n, f)
  else
    let y := roundMag rm s n
    if 277 ≤ y.log2 then (overflowResult rm s, { f with oe := true, pe := true })
    else (encVal s y, if y = n then f else { f with pe := true })

/-- The lane subtraction after denormals-are-zeros (rules R174 to R185; rule R189 from its third line on). -/
def laneSubPrepared (rm : Rounding) (ftz um : Bool) (a b : Dword) : Dword × FpFlags :=
  let f : FpFlags := { FpFlags.none with ie := cls a == .snan || cls b == .snan }
  if isNan a then (a ||| 0x00400000#32, f)
  else if isNan b then (b ||| 0x00400000#32, f)
  else if cls a = .inf ∧ cls b = .inf ∧ signBit a = signBit b then
    (0xFFC00000#32, { FpFlags.none with ie := true })
  else
    let f := { f with de := cls a == .denormal || cls b == .denormal }
    if cls a = .inf then (a, f)
    else if cls b = .inf then (b ^^^ 0x80000000#32, f)
    else finiteSub rm ftz um a b f

/-- `LaneSub(rm, daz, ftz, um, a, b)` (rules R170, R189). -/
def laneSub (rm : Rounding) (daz ftz um : Bool) (a b : Dword) : Dword × FpFlags :=
  laneSubPrepared rm ftz um (dazOf daz a) (dazOf daz b)

end Sys2Proof.Machine
end

