-- ==== Sys2Proof/Syntax.lean ====
section
/-! DEFINITION. The instructions: one constructor for each of the nine rows of spec/opcode_table.json
(30_encoding.md rule R111). An instruction keeps every bit of its encoding, the redundant ones too,
because its length moves the program counter (10_state.md rule R31) and because `encode` gives its
bytes back. Every register extension bit is held at its TRUE value; the encodings store them
inverted (rules R91, R95, R99). -/

namespace Sys2Proof

/-- The bytes that may stand before the opcode, a VEX prefix or an EVEX prefix: the rows of the table of
30_encoding.md rule R85, and a REX byte `0100WRXB` (rule R86). -/
inductive Pfx
  | segCs
  | segSs
  | segDs
  | segEs
  | segFs
  | segGs
  | opSize
  | addrSize
  | repne
  | rep
  | lock
  | rex (w r x b : Bool)
deriving DecidableEq, Repr

/-- The SIB byte: scale, index, base (30_encoding.md rule R92). -/
structure Sib where
  scale : BitVec 2
  index : BitVec 3
  base : BitVec 3
deriving DecidableEq, Repr

/-- The displacement bytes of a memory operand, as encoded (30_encoding.md rule R93). -/
inductive Disp
  | none
  | d8 (d : BitVec 8)
  | d16 (d : BitVec 16)
  | d32 (d : BitVec 32)
deriving DecidableEq, Repr

/-- A memory operand: the `mod` (not 11) and `rm` fields of ModRM, the SIB byte and the displacement that
they call for (30_encoding.md rules R90 to R94). -/
structure MemOp where
  mod : BitVec 2
  rm : BitVec 3
  sib : Option Sib
  disp : Disp
deriving DecidableEq, Repr

/-- The operand "ModRM:r/m": a vector register (`mod = 11`) or memory (30_encoding.md rule R90). -/
inductive Rm
  | reg (rm : BitVec 3)
  | mem (m : MemOp)
deriving DecidableEq, Repr

/-- The fields of the two-byte VEX prefix that an instruction may choose (30_encoding.md rule R96). -/
structure Vex2 where
  r : Bool
  vvvv : BitVec 4
deriving DecidableEq, Repr

/-- The fields of the three-byte VEX prefix that an instruction may choose (30_encoding.md rule R95). -/
structure Vex3 where
  r : Bool
  x : Bool
  b : Bool
  w : Bool
  vvvv : BitVec 4
deriving DecidableEq, Repr

/-- The fields of the EVEX prefix that every EVEX row leaves open (30_encoding.md rule R99); `rp` and `vp`
are R' and V'. The bits `b` and `L'L` are the constructors' own. -/
structure Evex where
  r : Bool
  x : Bool
  b : Bool
  rp : Bool
  vp : Bool
  z : Bool
  vvvv : BitVec 4
  aaa : BitVec 3
deriving DecidableEq, Repr

/-- One constructor for each row of spec/opcode_table.json. `p` are the prefix bytes before the pattern,
`reg` is ModRM.reg, `rm` the operand ModRM:r/m. -/
inductive Instr
  /-- `SUBPS xmm1, xmm2/m128` (40_subps_legacy_sse.md rule R130). -/
  | subps (p : List Pfx) (reg : BitVec 3) (rm : Rm)
  /-- `VSUBPS xmm1, xmm2, xmm3/m128`, two-byte VEX spelling (41_vsubps_vex.md rule R140). -/
  | vsubps128c5 (p : List Pfx) (v : Vex2) (reg : BitVec 3) (rm : Rm)
  /-- `VSUBPS xmm1, xmm2, xmm3/m128`, three-byte VEX spelling (rule R140). -/
  | vsubps128c4 (p : List Pfx) (v : Vex3) (reg : BitVec 3) (rm : Rm)
  /-- `VSUBPS ymm1, ymm2, ymm3/m256`, two-byte VEX spelling (rule R141). -/
  | vsubps256c5 (p : List Pfx) (v : Vex2) (reg : BitVec 3) (rm : Rm)
  /-- `VSUBPS ymm1, ymm2, ymm3/m256`, three-byte VEX spelling (rule R141). -/
  | vsubps256c4 (p : List Pfx) (v : Vex3) (reg : BitVec 3) (rm : Rm)
  /-- `VSUBPS xmm1 {k1}{z}, xmm2, xmm3/m128/m32bcst` (42_vsubps_evex.md rule R150); `bc` is EVEX.b. -/
  | vsubpsEvex128 (p : List Pfx) (e : Evex) (bc : Bool) (reg : BitVec 3) (rm : Rm)
  /-- `VSUBPS ymm1 {k1}{z}, ymm2, ymm3/m256/m32bcst` (rule R151). -/
  | vsubpsEvex256 (p : List Pfx) (e : Evex) (bc : Bool) (reg : BitVec 3) (rm : Rm)
  /-- `VSUBPS zmm1 {k1}{z}, zmm2, zmm3/m512/m32bcst` (rule R152). -/
  | vsubpsEvex512 (p : List Pfx) (e : Evex) (bc : Bool) (reg : BitVec 3) (rm : Rm)
  /-- `VSUBPS zmm1 {k1}{z}, zmm2, zmm3{er}`: register source, EVEX.b = 1, `rc` is EVEX.RC = L'L
  (rules R152, R157). -/
  | vsubpsEvex512er (p : List Pfx) (e : Evex) (rc : BitVec 2) (reg rm : BitVec 3)
deriving DecidableEq, Repr

end Sys2Proof
end

