-- ==== Sys2Proof/Machine/Fields.lean ====
section
/-! DEFINITION. What an encoding's fields stand for before any state is looked at: the address size, the
displacement a ModRM byte calls for, the effective REX prefix and segment override, the prefixes that
a form may not have, and register numbers after extension. -/

namespace Sys2Proof.Machine

/-- The address size `A` (20_memory.md rule R52). -/
inductive AddrSize
  | a16
  | a32
  | a64
deriving DecidableEq, Repr

/-- The number of bits of an address size. -/
def AddrSize.bits : AddrSize → Nat
  | .a16 => 16
  | .a32 => 32
  | .a64 => 64

/-- The kinds of displacement (30_encoding.md rule R93). -/
inductive DispKind
  | none
  | d8
  | d16
  | d32
deriving DecidableEq, Repr

/-- `A` is 64 in 64-bit mode, 32 with the prefix 67h; 32 in 32-bit mode, 16 with it (20_memory.md rule R52,
30_encoding.md rule R85). Real-address mode, out of scope, has 16, and 32 with it (PRESUMED, log 1). -/
def addrSize (m : Mode) (p : List Pfx) : AddrSize :=
  match m, p.contains .addrSize with
  | .mode64, false => .a64
  | .mode64, true => .a32
  | .protected32, false => .a32
  | .protected32, true => .a16
  | .realAddress, false => .a16
  | .realAddress, true => .a32

/-- Whether a SIB byte follows ModRM (30_encoding.md rules R92, R94). -/
def needsSib (a : AddrSize) (rm : BitVec 3) : Bool :=
  a != .a16 && rm == 0b100#3

/-- The displacement that ModRM and, where there is one, SIB call for: the tables of 30_encoding.md rules R92
(32-bit and 64-bit addressing) and R94 (16-bit addressing). -/
def dispKind (a : AddrSize) (mod : BitVec 2) (rm : BitVec 3) (sib : Option Sib) : DispKind :=
  if mod = 0b01#2 then .d8
  else if a = .a16 then
    if mod = 0b10#2 then .d16 else if rm = 0b110#3 then .d16 else .none
  else if mod = 0b10#2 then .d32
  else match sib with
    | some b => if b.base = 0b101#3 then .d32 else .none
    | none => if rm = 0b101#3 then .d32 else .none

/-- The REX prefix in force, as (R, X, B): the byte immediately before the opcode, in 64-bit mode only
(30_encoding.md rule R86). A REX byte followed by another prefix is ignored. -/
def rexOf (m : Mode) (p : List Pfx) : Bool × Bool × Bool :=
  match m, p.getLast? with
  | .mode64, some (.rex _ r x b) => (r, x, b)
  | _, _ => (false, false, false)

/-- Whether a REX byte stands immediately before the VEX or EVEX prefix (30_encoding.md rules R98(a),
R105(a)). -/
def endsInRex (p : List Pfx) : Bool :=
  match p.getLast? with
  | some (.rex ..) => true
  | _ => false

/-- Whether one of 66h, F2h, F3h is among the prefixes: before `0F 5C` it selects another instruction
(30_encoding.md rule R104). -/
def hasMandatory (p : List Pfx) : Bool :=
  p.contains .opSize || p.contains .repne || p.contains .rep

/-- Whether a prefix stands that may not precede a VEX or EVEX prefix: 66h, F2h, F3h, F0h or REX
(30_encoding.md rules R98(a), R105(a), R106). -/
def badVexPfx (p : List Pfx) : Bool :=
  hasMandatory p || p.contains .lock || endsInRex p

/-- The number of a vector register or general register from a 3-bit field and one extension bit, which
reads as 0 outside 64-bit mode (30_encoding.md rule R91). -/
def regNum (m : Mode) (ext : Bool) (n : BitVec 3) : BitVec 4 :=
  BitVec.ofBool (m == .mode64 && ext) ++ n

/-- The number of a vector register of an EVEX form from two extension bits, the more significant first
(30_encoding.md rule R91). -/
def regNum5 (m : Mode) (hi lo : Bool) (n : BitVec 3) : BitVec 5 :=
  BitVec.ofBool (m == .mode64 && hi) ++ regNum m lo n

/-- The register number in `vvvv`, of which only the low three bits count outside 64-bit mode
(30_encoding.md rules R91, R98(b), R105(b)). -/
def vvvvNum (m : Mode) (v : BitVec 4) : BitVec 4 :=
  regNum m (v.getLsbD 3) (v.extractLsb' 0 3)

/-- The register number in `V':vvvv` of an EVEX form (30_encoding.md rule R91). -/
def vvvvNum5 (m : Mode) (vp : Bool) (v : BitVec 4) : BitVec 5 :=
  BitVec.ofBool (m == .mode64 && vp) ++ vvvvNum m v

/-- The entry of the vector register file that a legacy or VEX form's 4-bit number names
(10_state.md rule R21: entries 0 to 15). -/
def low16 (n : BitVec 4) : BitVec 5 := n.setWidth 5

/-- The number of bytes of a displacement (30_encoding.md rule R93). -/
def dispLength : Disp → Nat
  | .none => 0
  | .d8 _ => 1
  | .d16 _ => 2
  | .d32 _ => 4

/-- The number of bytes of ModRM, SIB and displacement (30_encoding.md rules R90 to R94). -/
def rmLength : Rm → Nat
  | .reg _ => 1
  | .mem o => 1 + (if o.sib.isSome then 1 else 0) + dispLength o.disp

/-- `ilen`: the number of bytes of an instruction, every prefix counted (30_encoding.md rules R80, R85).
The forms have no immediate. -/
def instrLength : Instr → Nat
  | .subps p _ rm => p.length + 2 + rmLength rm
  | .vsubps128c5 p _ _ rm => p.length + 3 + rmLength rm
  | .vsubps128c4 p _ _ rm => p.length + 4 + rmLength rm
  | .vsubps256c5 p _ _ rm => p.length + 3 + rmLength rm
  | .vsubps256c4 p _ _ rm => p.length + 4 + rmLength rm
  | .vsubpsEvex128 p _ _ _ rm => p.length + 5 + rmLength rm
  | .vsubpsEvex256 p _ _ _ rm => p.length + 5 + rmLength rm
  | .vsubpsEvex512 p _ _ _ rm => p.length + 5 + rmLength rm
  | .vsubpsEvex512er p _ _ _ rm => p.length + 5 + rmLength (.reg rm)

/-- The greatest length of an instruction (30_encoding.md rule R80). -/
def maxLength : Nat := 15

end Sys2Proof.Machine
end

