-- ==== Sys2Proof/WellFormed.lean ====
section
/-! DEFINITION. Which terms of `Instr` are instructions of a mode: exactly those that the decoder gives
(30_encoding.md). The conditions that make a matching encoding raise #UD when it is executed (a LOCK
prefix, 66h before a VEX prefix, `z` with `aaa = 000`) are not tested here: `check_ud_nm` tests them
(60_exceptions.md rule R217). -/

namespace Sys2Proof

open Sys2Proof.Machine

/-- The kind of an encoded displacement. -/
def Disp.kind : Disp → DispKind
  | .none => .none
  | .d8 _ => .d8
  | .d16 _ => .d16
  | .d32 _ => .d32

/-- A REX byte is a prefix in 64-bit mode only (30_encoding.md rule R86). -/
def wfPfx (m : Mode) : Pfx → Bool
  | .rex .. => m == .mode64
  | _ => true

/-- A memory operand has the SIB byte and the displacement that its ModRM calls for
(30_encoding.md rules R90 to R94). -/
def wfMem (a : AddrSize) (o : MemOp) : Bool :=
  o.mod != 0b11#2 && o.sib.isSome == needsSib a o.rm &&
    o.disp.kind == dispKind a o.mod o.rm o.sib

/-- A register operand is well formed; a memory operand as `wfMem` says. -/
def wfRm (a : AddrSize) : Rm → Bool
  | .reg _ => true
  | .mem o => wfMem a o

/-- Outside 64-bit mode a VEX prefix has R̄ = X̄ = 1 and, in the model, v̄3 = 1 (30_encoding.md rule R98(b),
93_implementation_defined.md U7). -/
def wfVex (m : Mode) (r x : Bool) (vvvv : BitVec 4) : Bool :=
  m == .mode64 || (!r && !x && !vvvv.getLsbD 3)

/-- Outside 64-bit mode an EVEX prefix has R̄ = X̄ = 1 and, in the model, B̄ = R̄' = v̄3 = V̄' = 1
(30_encoding.md rule R105(b), 93_implementation_defined.md U7). -/
def wfEvex (m : Mode) (e : Evex) : Bool :=
  m == .mode64 || (!e.r && !e.x && !e.b && !e.rp && !e.vp && !e.vvvv.getLsbD 3)

/-- A register encoding with `b = 1` is the embedded-rounding row, not a length row
(30_encoding.md rule R101). -/
def wfBroadcast (bc : Bool) : Rm → Bool
  | .reg _ => !bc
  | .mem _ => true

/-- The form of an instruction of mode `m`, its length aside. -/
def wellShaped (m : Mode) : Instr → Bool
  | .subps p _ rm => p.all (wfPfx m) && !hasMandatory p && wfRm (addrSize m p) rm
  | .vsubps128c5 p v _ rm => p.all (wfPfx m) && wfVex m v.r false v.vvvv && wfRm (addrSize m p) rm
  | .vsubps128c4 p v _ rm => p.all (wfPfx m) && wfVex m v.r v.x v.vvvv && wfRm (addrSize m p) rm
  | .vsubps256c5 p v _ rm => p.all (wfPfx m) && wfVex m v.r false v.vvvv && wfRm (addrSize m p) rm
  | .vsubps256c4 p v _ rm => p.all (wfPfx m) && wfVex m v.r v.x v.vvvv && wfRm (addrSize m p) rm
  | .vsubpsEvex128 p e bc _ rm =>
    p.all (wfPfx m) && wfEvex m e && wfBroadcast bc rm && wfRm (addrSize m p) rm
  | .vsubpsEvex256 p e bc _ rm =>
    p.all (wfPfx m) && wfEvex m e && wfBroadcast bc rm && wfRm (addrSize m p) rm
  | .vsubpsEvex512 p e bc _ rm =>
    p.all (wfPfx m) && wfEvex m e && wfBroadcast bc rm && wfRm (addrSize m p) rm
  | .vsubpsEvex512er p e _ _ _ => p.all (wfPfx m) && wfEvex m e

/-- Instructions of mode `m`: of the right form and at most 15 bytes long (30_encoding.md rule R80). -/
def wellFormed (m : Mode) (i : Instr) : Bool :=
  wellShaped m i && instrLength i ≤ maxLength

end Sys2Proof
end

