-- ==== Sys2Proof/Decode.lean ====
section
/-! DEFINITION. The decoder, total on any bytes (30_encoding.md rule R110), and after it the encoder, both
written from the layouts of rules R84 to R103. -/

namespace Sys2Proof

open Sys2Proof.Machine

/-- Why bytes are not one of the six forms. -/
inductive Reject
  /-- The opcode is none of the six forms' (30_encoding.md rule R110(8)). Safe: the step is refused. -/
  | notSixForms
  /-- The bytes are a neighbouring instruction: another mandatory prefix, map or opcode, or LES, LDS, BOUND
  in 32-bit mode (30_encoding.md rules R98, R104, R105, R108(f)). Safe: the step is refused. -/
  | otherInstruction
  /-- A VEX or EVEX encoding of 32-bit mode with a register-extension bit whose treatment the spec leaves
  uncertain and has a model refuse (30_encoding.md rules R98(b), R105(b); U7). Safe. -/
  | uncertain32
deriving DecidableEq, Repr

/-- What the decoder finds at the head of a list of bytes. -/
inductive Decoded
  /-- An instruction and the bytes after it. -/
  | instr (i : Instr) (rest : List Byte)
  /-- A reserved or invalid encoding, which raises #UD (30_encoding.md rules R98, R105, R108). -/
  | invalid
  /-- Not one of the six forms. -/
  | rejected (r : Reject)
  /-- The bytes end before the instruction does. -/
  | more
deriving DecidableEq, Repr

/-! ## Prefixes -/

/-- The prefix that a byte is: the rows of 30_encoding.md rule R85, and in 64-bit mode the REX bytes 40h to
4Fh (rule R86). -/
def pfxOf (m : Mode) (b : Byte) : Option Pfx :=
  if b = 0x2E#8 then some .segCs
  else if b = 0x36#8 then some .segSs
  else if b = 0x3E#8 then some .segDs
  else if b = 0x26#8 then some .segEs
  else if b = 0x64#8 then some .segFs
  else if b = 0x65#8 then some .segGs
  else if b = 0x66#8 then some .opSize
  else if b = 0x67#8 then some .addrSize
  else if b = 0xF2#8 then some .repne
  else if b = 0xF3#8 then some .rep
  else if b = 0xF0#8 then some .lock
  else if m = .mode64 ∧ b.extractLsb' 4 4 = 0b0100#4 then
    some (.rex (b.getLsbD 3) (b.getLsbD 2) (b.getLsbD 1) (b.getLsbD 0))
  else none

/-- The prefixes at the head of the bytes, and the bytes after them (30_encoding.md rule R110(1), (2)). -/
def takePfx (m : Mode) : List Byte → List Pfx × List Byte
  | [] => ([], [])
  | b :: bs =>
    match pfxOf m b with
    | some p => (p :: (takePfx m bs).1, (takePfx m bs).2)
    | none => ([], b :: bs)

/-! ## ModRM, SIB, displacement -/

/-- A displacement of a kind, least significant byte first (30_encoding.md rule R93). -/
def readDisp : DispKind → List Byte → Option (Disp × List Byte)
  | .none, bs => some (.none, bs)
  | .d8, b0 :: bs => some (.d8 b0, bs)
  | .d16, b0 :: b1 :: bs => some (.d16 (b1 ++ b0), bs)
  | .d32, b0 :: b1 :: b2 :: b3 :: bs => some (.d32 (b3 ++ b2 ++ b1 ++ b0), bs)
  | _, _ => none

/-- The fields of a SIB byte (30_encoding.md rule R92). -/
def sibOf (b : Byte) : Sib :=
  { scale := b.extractLsb' 6 2, index := b.extractLsb' 3 3, base := b.extractLsb' 0 3 }

/-- The memory operand after a ModRM byte with `mod` not 11 (30_encoding.md rules R90 to R94). -/
def readMem (a : AddrSize) (mod : BitVec 2) (rm : BitVec 3) (bs : List Byte) :
    Option (MemOp × List Byte) :=
  if needsSib a rm then
    match bs with
    | [] => none
    | b :: bs =>
      (readDisp (dispKind a mod rm (some (sibOf b))) bs).map fun d =>
        (⟨mod, rm, some (sibOf b), d.1⟩, d.2)
  else
    (readDisp (dispKind a mod rm none) bs).map fun d => (⟨mod, rm, none, d.1⟩, d.2)

/-- ModRM.reg and the operand ModRM:r/m (30_encoding.md rule R90), with the bytes after them. -/
def readModRm (a : AddrSize) : List Byte → Option (BitVec 3 × Rm × List Byte)
  | [] => none
  | b :: bs =>
    if b.extractLsb' 6 2 = 0b11#2 then some (b.extractLsb' 3 3, .reg (b.extractLsb' 0 3), bs)
    else
      (readMem a (b.extractLsb' 6 2) (b.extractLsb' 0 3) bs).map fun o =>
        (b.extractLsb' 3 3, .mem o.1, o.2)

/-- The rest of an instruction once its opcode is known: what `mk` makes of ModRM. -/
def withModRm (a : AddrSize) (bs : List Byte) (mk : BitVec 3 → Rm → List Byte → Decoded) : Decoded :=
  match readModRm a bs with
  | none => .more
  | some (reg, rm, rest) => mk reg rm rest

/-! ## The three encodings -/

/-- After the byte 0Fh: the legacy form (30_encoding.md rules R84, R104, R110(3)). -/
def decodeLegacy (m : Mode) (p : List Pfx) : List Byte → Decoded
  | [] => .more
  | op :: bs =>
    if op ≠ 0x5C#8 then .rejected .notSixForms
    else if hasMandatory p then .rejected .otherInstruction
    else withModRm (addrSize m p) bs fun reg rm rest => .instr (.subps p reg rm) rest

/-- Whether the byte after C4h, C5h or 62h makes it a VEX or EVEX prefix: always in 64-bit mode, elsewhere
only if its bits 7:6 are 11 (30_encoding.md rules R98(b), R105(b)). -/
def isVexByte (m : Mode) (b : Byte) : Bool :=
  m == .mode64 || b.extractLsb' 6 2 == 0b11#2

/-- An encoding that is not one of the six forms: #UD where a prefix that may not stand there stands
(30_encoding.md rules R98(a), R105(a), R110(4), (5)), else another instruction. -/
def notOurs (p : List Pfx) : Decoded :=
  if badVexPfx p then .invalid else .rejected .otherInstruction

/-- The fields of byte 1 of the two-byte VEX prefix (30_encoding.md rule R96). -/
def vex2Of (b : Byte) : Vex2 :=
  { r := !b.getLsbD 7, vvvv := ~~~(b.extractLsb' 3 4) }

/-- After the byte C5h: the two-byte VEX prefix (30_encoding.md rules R96 to R98, R110(4)). -/
def decodeVex2 (m : Mode) (p : List Pfx) : List Byte → Decoded
  | [] => .more
  | b :: bs =>
    if !isVexByte m b then .rejected .otherInstruction
    else match bs with
      | [] => .more
      | op :: bs =>
        if b.extractLsb' 0 2 ≠ 0b00#2 ∨ op ≠ 0x5C#8 then notOurs p
        else withModRm (addrSize m p) bs fun reg rm rest =>
          if b.getLsbD 2 then .instr (.vsubps256c5 p (vex2Of b) reg rm) rest
          else .instr (.vsubps128c5 p (vex2Of b) reg rm) rest

/-- The fields of bytes 1 and 2 of the three-byte VEX prefix (30_encoding.md rule R95). -/
def vex3Of (b c : Byte) : Vex3 :=
  { r := !b.getLsbD 7, x := !b.getLsbD 6, b := !b.getLsbD 5, w := c.getLsbD 7
    vvvv := ~~~(c.extractLsb' 3 4) }

/-- Whether `mmmmm` is none of the three opcode maps, a reserved value (30_encoding.md rule R98(c)). -/
def reservedMap (mmmmm : BitVec 5) : Bool :=
  mmmmm != 0b00001#5 && mmmmm != 0b00010#5 && mmmmm != 0b00011#5

/-- What an encoding of `0F 5C` with a register-extension bit of rule U7 stored as 0 is outside 64-bit mode: refused
in 32-bit mode (30_encoding.md rules R98(b), R105(b)), and in real-address mode `#UD`, as every VEX or EVEX form is
there (60_exceptions.md rule R205, last sentence; 70_reset_and_hazards.md rule R240; log 16). -/
def uncertainBits (m : Mode) : Decoded :=
  if m = .realAddress then .invalid else .rejected .uncertain32

/-- After the byte C4h: the three-byte VEX prefix (30_encoding.md rules R95, R97, R98, R110(4)). -/
def decodeVex3 (m : Mode) (p : List Pfx) : List Byte → Decoded
  | [] => .more
  | b :: bs =>
    if !isVexByte m b then .rejected .otherInstruction
    else match bs with
      | c :: op :: bs =>
        if reservedMap (b.extractLsb' 0 5) then .invalid
        else if b.extractLsb' 0 5 ≠ 0b00001#5 ∨ c.extractLsb' 0 2 ≠ 0b00#2 ∨ op ≠ 0x5C#8 then
          notOurs p
        else if m ≠ .mode64 ∧ c.getLsbD 6 = false then uncertainBits m
        else withModRm (addrSize m p) bs fun reg rm rest =>
          if c.getLsbD 2 then .instr (.vsubps256c4 p (vex3Of b c) reg rm) rest
          else .instr (.vsubps128c4 p (vex3Of b c) reg rm) rest
      | _ => .more

/-- The fields of P0, P1, P2 (30_encoding.md rule R99). -/
def evexOf (p0 p1 p2 : Byte) : Evex :=
  { r := !p0.getLsbD 7, x := !p0.getLsbD 6, b := !p0.getLsbD 5, rp := !p0.getLsbD 4
    vp := !p2.getLsbD 3, z := p2.getLsbD 7, vvvv := ~~~(p1.extractLsb' 3 4)
    aaa := p2.extractLsb' 0 3 }

/-- Whether a fixed bit of the EVEX prefix is wrong: P0[3:2] not 00 or P1[2] not 1 (30_encoding.md rule
R105(c)). -/
def evexReserved (p0 p1 : Byte) : Bool :=
  p0.extractLsb' 2 2 != 0b00#2 || !p1.getLsbD 2

/-- Which row an EVEX encoding of `0F 5C` is, once its ModRM is read: a register operand with `b = 1` is the
embedded-rounding row whatever L'L holds, else L'L is the length and 11 is #UD
(30_encoding.md rules R100, R101, R108(b)). -/
def evexRow (p : List Pfx) (p0 p1 p2 : Byte) (reg : BitVec 3) (rm : Rm) (rest : List Byte) : Decoded :=
  match rm, p2.getLsbD 4 with
  | .reg n, true => .instr (.vsubpsEvex512er p (evexOf p0 p1 p2) (p2.extractLsb' 5 2) reg n) rest
  | rm, bc =>
    if p2.extractLsb' 5 2 = 0b00#2 then .instr (.vsubpsEvex128 p (evexOf p0 p1 p2) bc reg rm) rest
    else if p2.extractLsb' 5 2 = 0b01#2 then
      .instr (.vsubpsEvex256 p (evexOf p0 p1 p2) bc reg rm) rest
    else if p2.extractLsb' 5 2 = 0b10#2 then
      .instr (.vsubpsEvex512 p (evexOf p0 p1 p2) bc reg rm) rest
    else .invalid

/-- After the byte 62h: the EVEX prefix (30_encoding.md rules R99 to R105, R108, R110(5)). -/
def decodeEvex (m : Mode) (p : List Pfx) : List Byte → Decoded
  | [] => .more
  | p0 :: bs =>
    if !isVexByte m p0 then .rejected .otherInstruction
    else match bs with
      | p1 :: p2 :: op :: bs =>
        if p0.extractLsb' 0 2 ≠ 0b01#2 ∨ p1.extractLsb' 0 2 ≠ 0b00#2 ∨ op ≠ 0x5C#8 then
          if evexReserved p0 p1 then .invalid else notOurs p
        else if m ≠ .mode64 ∧ (p0.getLsbD 5 && p0.getLsbD 4 && p1.getLsbD 6 && p2.getLsbD 3) = false
        then uncertainBits m
        else withModRm (addrSize m p) bs fun reg rm rest =>
          if evexReserved p0 p1 || p1.getLsbD 7 then .invalid
          else evexRow p p0 p1 p2 reg rm rest
      | _ => .more

/-- The decoder (30_encoding.md rule R110). -/
def decode (m : Mode) (bs : List Byte) : Decoded :=
  match (takePfx m bs).2 with
  | [] => .more
  | b :: rest =>
    if b = 0x0F#8 then decodeLegacy m (takePfx m bs).1 rest
    else if b = 0xC5#8 then decodeVex2 m (takePfx m bs).1 rest
    else if b = 0xC4#8 then decodeVex3 m (takePfx m bs).1 rest
    else if b = 0x62#8 then decodeEvex m (takePfx m bs).1 rest
    else .rejected .notSixForms

/-! ## The encoder -/

/-- The byte of a prefix (30_encoding.md rules R85, R86). -/
def encodePfx : Pfx → Byte
  | .segCs => 0x2E#8
  | .segSs => 0x36#8
  | .segDs => 0x3E#8
  | .segEs => 0x26#8
  | .segFs => 0x64#8
  | .segGs => 0x65#8
  | .opSize => 0x66#8
  | .addrSize => 0x67#8
  | .repne => 0xF2#8
  | .rep => 0xF3#8
  | .lock => 0xF0#8
  | .rex w r x b => 0b0100#4 ++ BitVec.ofBool w ++ BitVec.ofBool r ++ BitVec.ofBool x ++ BitVec.ofBool b

/-- The bytes of a displacement, least significant first (30_encoding.md rule R93). -/
def encodeDisp : Disp → List Byte
  | .none => []
  | .d8 d => [d]
  | .d16 d => [d.extractLsb' 0 8, d.extractLsb' 8 8]
  | .d32 d => [d.extractLsb' 0 8, d.extractLsb' 8 8, d.extractLsb' 16 8, d.extractLsb' 24 8]

/-- The SIB byte (30_encoding.md rule R92). -/
def encodeSib (s : Sib) : Byte := s.scale ++ s.index ++ s.base

/-- ModRM, SIB and displacement (30_encoding.md rules R90 to R93). -/
def encodeRm (reg : BitVec 3) : Rm → List Byte
  | .reg rm => [0b11#2 ++ reg ++ rm]
  | .mem o => [o.mod ++ reg ++ o.rm] ++ (o.sib.map encodeSib).toList ++ encodeDisp o.disp

/-- C5h and its byte (30_encoding.md rule R96), `pp = 00`. -/
def encodeVex2 (v : Vex2) (l : Bool) : List Byte :=
  [0xC5#8, BitVec.ofBool (!v.r) ++ ~~~v.vvvv ++ BitVec.ofBool l ++ 0b00#2]

/-- C4h and its two bytes (30_encoding.md rule R95), `mmmmm = 00001`, `pp = 00`. -/
def encodeVex3 (v : Vex3) (l : Bool) : List Byte :=
  [0xC4#8, BitVec.ofBool (!v.r) ++ BitVec.ofBool (!v.x) ++ BitVec.ofBool (!v.b) ++ 0b00001#5,
    BitVec.ofBool v.w ++ ~~~v.vvvv ++ BitVec.ofBool l ++ 0b00#2]

/-- 62h and P0, P1, P2 (30_encoding.md rules R99, R100), `mm = 01`, `W = 0`, `pp = 00`. -/
def encodeEvex (e : Evex) (ll : BitVec 2) (bc : Bool) : List Byte :=
  [0x62#8,
    BitVec.ofBool (!e.r) ++ BitVec.ofBool (!e.x) ++ BitVec.ofBool (!e.b) ++ BitVec.ofBool (!e.rp) ++
      0b0001#4,
    0b0#1 ++ ~~~e.vvvv ++ 0b100#3,
    BitVec.ofBool e.z ++ ll ++ BitVec.ofBool bc ++ BitVec.ofBool (!e.vp) ++ e.aaa]

/-- The bytes of an instruction, in address order. -/
def encode : Instr → List Byte
  | .subps p reg rm => p.map encodePfx ++ ([0x0F#8, 0x5C#8] ++ encodeRm reg rm)
  | .vsubps128c5 p v reg rm => p.map encodePfx ++ (encodeVex2 v false ++ [0x5C#8] ++ encodeRm reg rm)
  | .vsubps128c4 p v reg rm => p.map encodePfx ++ (encodeVex3 v false ++ [0x5C#8] ++ encodeRm reg rm)
  | .vsubps256c5 p v reg rm => p.map encodePfx ++ (encodeVex2 v true ++ [0x5C#8] ++ encodeRm reg rm)
  | .vsubps256c4 p v reg rm => p.map encodePfx ++ (encodeVex3 v true ++ [0x5C#8] ++ encodeRm reg rm)
  | .vsubpsEvex128 p e bc reg rm =>
    p.map encodePfx ++ (encodeEvex e 0b00#2 bc ++ [0x5C#8] ++ encodeRm reg rm)
  | .vsubpsEvex256 p e bc reg rm =>
    p.map encodePfx ++ (encodeEvex e 0b01#2 bc ++ [0x5C#8] ++ encodeRm reg rm)
  | .vsubpsEvex512 p e bc reg rm =>
    p.map encodePfx ++ (encodeEvex e 0b10#2 bc ++ [0x5C#8] ++ encodeRm reg rm)
  | .vsubpsEvex512er p e rc reg rm =>
    p.map encodePfx ++ (encodeEvex e rc true ++ [0x5C#8] ++ encodeRm reg (.reg rm))

/-! ## Words of the opcode table -/

/-- The low `n` bytes of a number, most significant first. -/
def bytesHighFirst : Nat → Nat → List Byte
  | 0, _ => []
  | n + 1, w => BitVec.ofNat 8 (w / 256 ^ n) :: bytesHighFirst n w

/-- The low `n` bytes of a number, least significant first. -/
def bytesLowFirst : Nat → Nat → List Byte
  | 0, _ => []
  | n + 1, w => BitVec.ofNat 8 w :: bytesLowFirst n (w / 256)

/-- Bytes with zeros after them, up to the longest instruction. -/
def padded (bs : List Byte) : List Byte :=
  bs ++ List.replicate (maxLength - bs.length) 0#8

/-- Whether bytes decode to an instruction of 64-bit mode. -/
def decodes (bs : List Byte) : Bool :=
  match decode .mode64 bs with
  | .instr .. => true
  | _ => false

/-- The bytes, in address order, of a word of opcode_table.json (30_encoding.md rule R111: bytes in address
order). The table numbers the bits of a pattern with the first byte most significant; a word
numbered with the first byte least significant is read too, where the table's reading is no
instruction (log 22). -/
def tableBytes (nbits w : Nat) : List Byte :=
  if decodes (padded (bytesHighFirst (nbits / 8) w)) then padded (bytesHighFirst (nbits / 8) w)
  else padded (bytesLowFirst (nbits / 8) w)

/-- The instruction that the decoder reads, in 64-bit mode, from a word of opcode_table.json. -/
def decodeTableWord (nbits w : Nat) : Option Instr :=
  match decode .mode64 (tableBytes nbits w) with
  | .instr i _ => some i
  | _ => none

end Sys2Proof
end

