-- ==== Sys2Proof/Machine/State.lean ====
section
/-! DEFINITION. The state of the machine (spec/10_state.md, 20_memory.md rule R60), the reasons a step can stop,
and the state after reset (10_state.md rule R35). -/

namespace Sys2Proof.Machine

/-- The segment registers, by name (10_state.md rule R32). -/
inductive SegName
  | cs
  | ds
  | es
  | fs
  | gs
  | ss
deriving DecidableEq, Repr

/-- What `Translate` knows of a segment: the base (20_memory.md rule R54), the limit, and whether it is usable
(rule R60(a), (b)), of which 64-bit mode reads none (rule R54). -/
structure Seg where
  base : Dword
  limit : Dword
  usable : Bool
deriving DecidableEq, Repr

/-- The six segment registers. -/
structure Segs where
  cs : Seg
  ds : Seg
  es : Seg
  fs : Seg
  gs : Seg
  ss : Seg
deriving DecidableEq, Repr

/-- A range of linear addresses and what `Translate` does with it (20_memory.md rule R60; log 6): whether
its pages are present, at which privilege levels they are readable (bit `c` for level `c`), whether
they have a reserved bit set (60_exceptions.md rule R213), the physical address of its first byte,
and whether reads of it have side effects (20_memory.md rule R58). -/
structure Region where
  base : Nat
  size : Nat
  phys : Nat
  present : Bool
  readable : BitVec 4
  reserved : Bool
  device : Bool
deriving DecidableEq, Repr

/-- One data read of the history (20_memory.md rule R57): the physical addresses read as one access and the
bytes that the oracle answered. -/
structure ReadEvent where
  phys : List Nat
  bytes : List Byte
deriving DecidableEq, Repr

/-- The state: every piece of state that the spec gives the machine, the parameters of the model, and the
model's own `oracle`, `history` and `faults`. -/
structure State where
  /-- The parameters (00_scope.md rules R7 to R9). -/
  cfg : Config
  /-- The operating mode (00_scope.md rule R9, `MODE64`; 10_state.md rule R35). -/
  mode : Mode
  /-- The current privilege level (10_state.md rule R29). -/
  cpl : BitVec 2
  /-- The vector registers `ZMM[0..31]`, by elements (10_state.md rule R20). -/
  zmm : Vector Lanes 32
  /-- The opmask registers `K[0..7]` (10_state.md rule R24). -/
  k : Vector Qword 8
  /-- `MXCSR` (10_state.md rule R26). -/
  mxcsr : Dword
  /-- The general registers `x[0..15]` (10_state.md rule R30). -/
  gpr : Vector Qword 16
  /-- The program counter (10_state.md rule R31). -/
  pc : Qword
  /-- `EFLAGS` (10_state.md rules R27, R29). -/
  eflags : Dword
  /-- `CR0` (10_state.md rule R29). -/
  cr0 : Dword
  /-- `CR2`, which a page fault writes (20_memory.md rule R60(c)). -/
  cr2 : Qword
  /-- `CR4` (10_state.md rule R29). -/
  cr4 : Dword
  /-- `XCR0` (10_state.md rule R29). -/
  xcr0 : Qword
  /-- The segment registers (10_state.md rule R32). -/
  segs : Segs
  /-- `FS_BASE` (10_state.md rule R32). -/
  fsBase : Qword
  /-- `GS_BASE` (10_state.md rule R32). -/
  gsBase : Qword
  /-- What `Translate` does, range by range, first match first (20_memory.md rule R60; log 6). -/
  regions : List Region
  /-- Memory by physical address, in canonical form (20_memory.md rules R50, R59; log 5). -/
  mem : List Host.Cell
  /-- What the oracle answers, by number of the data read; a read not listed is answered by memory
  (20_memory.md rules R57, R58; log 7). -/
  oracle : List (Nat × List Byte)
  /-- The data reads so far, oldest first (20_memory.md rule R57; log 7). -/
  history : List ReadEvent
  /-- MODEL'S OWN. How many faults have been raised: the counter to which the free values of a fault are
  applied (log 17). -/
  faults : Nat
deriving DecidableEq, Repr

/-- The exceptions of 60_exceptions.md rule R213, each with the state `state'` of rule R220 in which the step
ends. All are raised by the spec's own rules, so they are neither safe nor unsafe differences. -/
inductive Fault
  /-- `#UD`, vector 6. Raised by `check_ud_nm`, by an invalid encoding, and by an unmasked numeric condition
  with `CR4.OSXMMEXCPT = 0` (60_exceptions.md rules R202, R205, R206, R210). -/
  | ud (after : State)
  /-- `#NM`, vector 7. Raised when `CR0.TS = 1` (rule R207). -/
  | nm (after : State)
  /-- `#SS(0)`, vector 12. Raised by `Translate` for the segment SS (20_memory.md rule R60(a)). -/
  | ss (after : State)
  /-- `#GP(0)`, vector 13. Raised by `Translate`, by the legacy form's alignment test, and by an instruction
  longer than 15 bytes (20_memory.md rules R54, R60(b); 30_encoding.md rule R80). -/
  | gp (after : State)
  /-- `#PF(code)`, vector 14. Raised by `Translate`, which also writes CR2 (20_memory.md rule R60(c)). -/
  | pf (code : Dword) (after : State)
  /-- `#AC(0)`, vector 17. Raised for an unaligned VEX or EVEX operand where `AC_ON_VECTOR` allows it
  (60_exceptions.md rule R214). -/
  | ac (after : State)
  /-- `#XM`, vector 19. Raised by an unmasked numeric condition with `CR4.OSXMMEXCPT = 1` (rule R202). -/
  | xm (after : State)
deriving DecidableEq, Repr

/-- Why a step has no meaning in this model. Each is safe: the machine stops where the hardware goes on. -/
inductive Refusal
  /-- No instruction's arm is rejected so in this model. Safe. -/
  | notModelled (mnemonic : String)
  /-- The bytes at `pc` are not one of the six forms; raised by step. Safe (00_scope.md rule R6(a), D1). -/
  | notAForm (why : Reject)
  /-- `MXCSR[31:16]` is not 0, raised by every instruction (93_implementation_defined.md U1: `refuse`).
  Safe. -/
  | mxcsrReserved
  /-- The mode is out of scope, raised by every instruction that passes its #UD checks there
  (00_scope.md rule R6(f), D2). Safe. -/
  | modeOutOfScope
  /-- An operand or an instruction byte lies where reads have side effects (20_memory.md rule R58, U13). Safe. -/
  | deviceMemory
deriving DecidableEq, Repr

/-- A segment as the processor family leaves it after reset, but for CS (PRESUMED, log 9). -/
def Seg.reset : Seg := { base := 0#32, limit := 0xFFFF#32, usable := true }

/-- The parameters in the state after reset (DESIGN CHOICE, log 8): the configuration of
95_test_vectors.md. -/
def Config.reset : Config :=
  { sse := true, avx := true, avx512f := true, avx512vl := true, maxVl := .v512, kw := .w64
    acOnVector := false, faultSuppression := true, erFlush := true, wrapOffsets := true }

/-- The machine right after reset (10_state.md rule R35, first column; 70_reset_and_hazards.md rule R240).
EAX and EDX: DESIGN CHOICE 0; CR2 and the segments but CS: PRESUMED (log 9). The spec gives no reset value of
`Translate` and of the oracle: no region, so that every linear address is present, readable and its own physical
address (DESIGN CHOICE, log 6), and no answer, so that memory answers every read (DESIGN CHOICE, log 7). -/
def State.reset : State :=
  { cfg := Config.reset
    mode := .realAddress
    cpl := 0#2
    zmm := Vector.replicate 32 (Vector.replicate 16 0#32)
    k := Vector.replicate 8 0#64
    mxcsr := 0x00001F80#32
    gpr := Vector.replicate 16 0#64
    pc := 0x0000FFF0#64
    eflags := 0x00000002#32
    cr0 := 0x60000010#32
    cr2 := 0#64
    cr4 := 0#32
    xcr0 := 1#64
    segs :=
      { cs := { base := 0xFFFF0000#32, limit := 0xFFFF#32, usable := true }
        ds := Seg.reset, es := Seg.reset, fs := Seg.reset, gs := Seg.reset, ss := Seg.reset }
    fsBase := 0#64
    gsBase := 0#64
    regions := []
    mem := []
    oracle := []
    history := []
    faults := 0 }

end Sys2Proof.Machine
end

