-- ==== Sys2Proof/Machine/Flags.lean ====
section
/-! DEFINITION. `MXCSR` and the control bits that the forms read (10_state.md rules R26 to R29), and the flags that
a completed or faulting execution leaves set (60_exceptions.md rules R201 to R203). -/

namespace Sys2Proof.Machine

/-! ## MXCSR -/

/-- `MXCSR.DAZ`, bit 6. -/
def mxDaz (mx : Dword) : Bool := mx.getLsbD 6

/-- `MXCSR.UM`, bit 11. -/
def mxUm (mx : Dword) : Bool := mx.getLsbD 11

/-- `MXCSR.FTZ`, bit 15. -/
def mxFtz (mx : Dword) : Bool := mx.getLsbD 15

/-- `MXCSR.RC`, bits 14:13, the page's "MXCSR.RM" (D18). -/
def mxRc (mx : Dword) : BitVec 2 := mx.extractLsb' 13 2

/-- `MXCSR[31:16]`, reserved (93_implementation_defined.md U1). -/
def mxReserved (mx : Dword) : BitVec 16 := mx.extractLsb' 16 16

/-- `bits(F)`: a set of conditions at the places of its flags in `MXCSR` (60_exceptions.md rule R201: bit 0 for
IE, 1 for DE, 3 for OE, 4 for UE, 5 for PE). -/
def flagBits (f : FpFlags) : Dword :=
  0#26 ++ BitVec.ofBool f.pe ++ BitVec.ofBool f.ue ++ BitVec.ofBool f.oe ++ 0#1 ++ BitVec.ofBool f.de ++
    BitVec.ofBool f.ie

/-- `U`: the members of `F` whose mask bit (IM 7, DM 8, OM 10, UM 11, PM 12) is 0 (60_exceptions.md rule R201). -/
def unmasked (mx : Dword) (f : FpFlags) : FpFlags :=
  ⟨f.ie && !mx.getLsbD 7, f.de && !mx.getLsbD 8, f.oe && !mx.getLsbD 10, f.ue && !mx.getLsbD 11,
    f.pe && !mx.getLsbD 12⟩

/-- The two-phase formula of 60_exceptions.md rule R203: the operand conditions alone if one of them is unmasked,
else all. -/
def twoPhase (f u : FpFlags) : FpFlags :=
  let pre : FpFlags := { FpFlags.none with ie := f.ie, de := f.de }
  if (pre.inter u).isEmpty then f else pre

/-- The set `G` that a candidate `c` stands for: its members in `F` if one of them is unmasked, else the
two-phase set. Every `G` that 60_exceptions.md rule R203 allows (`G ⊆ F`, `G ∩ U` not empty) is the set of
some candidate, and every candidate gives such a `G`. -/
def faultFlags (c f u : FpFlags) : FpFlags :=
  if ((c.inter f).inter u).isEmpty then twoPhase f u else c.inter f

/-! ## The control bits of 10_state.md rule R29 -/

/-- `CR0.EM`, bit 2. -/
def State.crEm (s : State) : Bool := s.cr0.getLsbD 2

/-- `CR0.TS`, bit 3. -/
def State.crTs (s : State) : Bool := s.cr0.getLsbD 3

/-- `CR0.AM`, bit 18. -/
def State.crAm (s : State) : Bool := s.cr0.getLsbD 18

/-- `CR4.OSFXSR`, bit 9. -/
def State.osfxsr (s : State) : Bool := s.cr4.getLsbD 9

/-- `CR4.OSXMMEXCPT`, bit 10. -/
def State.osxmmexcpt (s : State) : Bool := s.cr4.getLsbD 10

/-- `CR4.OSXSAVE`, bit 18. -/
def State.osxsave (s : State) : Bool := s.cr4.getLsbD 18

/-- `XCR0[2:1] = 11`: SSE and AVX state enabled. -/
def State.xcrAvx (s : State) : Bool := s.xcr0.extractLsb' 1 2 == 0b11#2

/-- `XCR0[7:5] = 111`: opmask, ZMM_Hi256 and Hi16_ZMM state enabled. -/
def State.xcrAvx512 (s : State) : Bool := s.xcr0.extractLsb' 5 3 == 0b111#3

/-- `EFLAGS.AC`, bit 18. -/
def State.flagAc (s : State) : Bool := s.eflags.getLsbD 18

/-- Whether alignment checking is in force: `CR0.AM = 1`, `EFLAGS.AC = 1`, privilege level 3
(20_memory.md rule R55). -/
def State.alignmentChecked (s : State) : Bool := s.crAm && s.flagAc && s.cpl == 3#2

end Sys2Proof.Machine
end

