-- ==== Sys2Proof/Machine/Ops.lean ====
section
/-! DEFINITION. The named operations: sequencing of outcomes, raising an exception (60_exceptions.md rules R213,
R220), memory and its translation (20_memory.md), registers, the checks before an instruction
(60_exceptions.md rule R217), and the completion of one. -/

namespace Sys2Proof.Machine

/-! ## Outcomes -/

/-- Goes on with the value of an outcome; a fault or a refusal ends the step. -/
def andThen {α β : Type} (o : Host.Outcome α Fault Refusal)
    (f : α → Host.Outcome β Fault Refusal) : Host.Outcome β Fault Refusal :=
  match o with
  | .next a => f a
  | .fault e => .fault e
  | .refused r => .refused r

/-! ## Exceptions -/

/-- Taking an exception (60_exceptions.md rule R220): the step ends in the fault `mk`, whose state is `s`; the pc,
every register and memory are the start state's, and the delivery through a descriptor table is
modelled by no source. Only the model's own count of faults moves (log 17). A caller passes the
start state, or the start state with the flags of rule R203 or CR2 written. -/
def raise {α : Type} (mk : State → Fault) (s : State) : Host.Outcome α Fault Refusal :=
  .fault (mk { s with faults := s.faults + 1 })

/-- The vector of an exception (60_exceptions.md rule R213). -/
def Fault.vector : Fault → Nat
  | .ud _ => 6
  | .nm _ => 7
  | .ss _ => 12
  | .gp _ => 13
  | .pf _ _ => 14
  | .ac _ => 17
  | .xm _ => 19

/-- The error code of an exception, where it has one (60_exceptions.md rule R213). -/
def Fault.errorCode : Fault → Option Dword
  | .ud _ => none
  | .nm _ => none
  | .ss _ => some 0#32
  | .gp _ => some 0#32
  | .pf c _ => some c
  | .ac _ => some 0#32
  | .xm _ => none

/-- The state `state'` in which a step that raises the exception ends (60_exceptions.md rule R220). -/
def Fault.after : Fault → State
  | .ud s => s
  | .nm s => s
  | .ss s => s
  | .gp s => s
  | .pf _ s => s
  | .ac s => s
  | .xm s => s

/-! ## Memory -/

/-- What an address that nothing has written reads as (DESIGN CHOICE, log 5: 10_state.md rule R35 leaves memory
unspecified). -/
def Memory.unlisted : Byte := 0#8

/-- The byte at a physical address. -/
def Memory.read : List Host.Cell → Nat → Byte
  | [], _ => Memory.unlisted
  | (b, v) :: m, a => if a = b then v else Memory.read m a

/-- Writes the byte at a physical address, keeping the canonical form. No form of the instruction writes memory
(20_memory.md rule R51): the operation places programs and data. -/
def Memory.write (m : List Host.Cell) (a : Nat) (v : Byte) : List Host.Cell :=
  match m with
  | [] => if v = Memory.unlisted then [] else [(a, v)]
  | (b, w) :: m =>
    if a < b then (if v = Memory.unlisted then (b, w) :: m else (a, v) :: (b, w) :: m)
    else if a = b then (if v = Memory.unlisted then m else (a, v) :: m)
    else (b, w) :: Memory.write m a v

/-- The canonical form: addresses strictly rising, no entry equal to what an unlisted address reads as. -/
abbrev Memory.wf (m : List Host.Cell) : Prop :=
  m.Pairwise (fun c d => c.1 < d.1) ∧ ∀ c ∈ m, c.2 ≠ Memory.unlisted

/-! ## Translation (20_memory.md rules R54, R60) -/

/-- The kinds of access that `Translate` tells apart (20_memory.md rules R60, R65). -/
inductive Access
  | read
  | fetch
deriving DecidableEq, Repr

/-- What can be wrong with one byte of an access (20_memory.md rule R60): `#SS(0)`, `#GP(0)`, or `#PF` with the
linear address and the error code. -/
inductive ByteFault
  | ss
  | gp
  | pf (lin : Qword) (code : Dword)
deriving DecidableEq, Repr

/-- The descriptor values of a segment register (10_state.md rule R32). -/
def State.seg (s : State) : SegName → Seg
  | .cs => s.segs.cs
  | .ds => s.segs.ds
  | .es => s.segs.es
  | .fs => s.segs.fs
  | .gs => s.segs.gs
  | .ss => s.segs.ss

/-- `lin(seg, off)`: in 64-bit mode the bases are 0 but for FS and GS, and the sum is modulo 2^64; elsewhere the
sum with the segment's base is modulo 2^32 (20_memory.md rule R54). -/
def linear (s : State) (seg : SegName) (off : Qword) : Qword :=
  match s.mode with
  | .mode64 =>
    match seg with
    | .fs => s.fsBase + off
    | .gs => s.gsBase + off
    | _ => off
  | _ => ((s.seg seg).base + off.setWidth 32).setWidth 64

/-- Whether bits 63:48 all equal bit 47 (20_memory.md rule R60(a)). -/
def canonical (a : Qword) : Bool :=
  a.extractLsb' 47 17 == 0#17 || a.extractLsb' 47 17 == BitVec.allOnes 17

/-- The exception of a bad address in a segment: `#SS(0)` for SS, `#GP(0)` for any other
(20_memory.md rule R60(a), (b)). -/
def segFaultOf : SegName → ByteFault
  | .ss => .ss
  | _ => .gp

/-- The segment checks of one byte: in 64-bit mode the linear address must be canonical, elsewhere the segment
must be usable and the offset within its limit (20_memory.md rule R60(a), (b); log 27). -/
def segFault (s : State) (seg : SegName) (off : Qword) : Option ByteFault :=
  match s.mode with
  | .mode64 => if canonical (linear s seg off) then none else some (segFaultOf seg)
  | _ =>
    if (s.seg seg).usable = false then some .gp
    else if (s.seg seg).limit.setWidth 64 < off then some (segFaultOf seg)
    else none

/-- The region that a linear address lies in, the first that holds it (log 6). -/
def regionOf (s : State) (lin : Qword) : Option Region :=
  s.regions.find? fun r => r.base ≤ lin.toNat && lin.toNat < r.base + r.size

/-- The physical address of a linear address; an address in no region is its own (log 6). -/
def physical (s : State) (lin : Qword) : Nat :=
  match regionOf s lin with
  | none => lin.toNat
  | some r => r.phys + (lin.toNat - r.base)

/-- Whether reads of a linear address have side effects (20_memory.md rule R58). -/
def isDevice (s : State) (lin : Qword) : Bool :=
  match regionOf s lin with
  | none => false
  | some r => r.device

/-- The error code of a page fault: bit 0 the page was present, bit 1 = 0 (a read), bit 2 privilege level 3, bit 3
a reserved bit, bit 4 an instruction fetch (60_exceptions.md rule R213, 20_memory.md rules R60(c), R65). The spec gives
no other bit and no width: 32 bits, with bits 31:5 zero, are the processor family's (PRESUMED, log 6). -/
def pageCode (s : State) (acc : Access) (present reserved : Bool) : Dword :=
  0#27 ++ BitVec.ofBool (acc == .fetch) ++ BitVec.ofBool reserved ++ BitVec.ofBool (s.cpl == 3#2) ++ 0#1 ++
    BitVec.ofBool present

/-- The page check of one byte: its page must be present, without a reserved bit set, and readable at the
current privilege level (20_memory.md rule R60(c)). -/
def pageFault (s : State) (acc : Access) (lin : Qword) : Option ByteFault :=
  match regionOf s lin with
  | none => none
  | some r =>
    if r.present = false then some (.pf lin (pageCode s acc false false))
    else if r.reserved then some (.pf lin (pageCode s acc true true))
    else if r.readable.getLsbD s.cpl.toNat = false then some (.pf lin (pageCode s acc true false))
    else none

/-- What is wrong with the byte at an offset of a segment: the segment checks come before the page check
(60_exceptions.md rule R215(4), (5)). -/
def byteFault (s : State) (acc : Access) (seg : SegName) (off : Qword) : Option ByteFault :=
  match segFault s seg off with
  | some f => some f
  | none => pageFault s acc (linear s seg off)

/-- Raises the exception of a byte; a page fault writes CR2 (20_memory.md rule R60(c)). -/
def raiseByte {α : Type} (f : ByteFault) (s : State) : Host.Outcome α Fault Refusal :=
  match f with
  | .ss => raise .ss s
  | .gp => raise .gp s
  | .pf lin code => raise (.pf code) { s with cr2 := lin }

/-- Which of the faulting bytes is reported: any of them, by the free value (20_memory.md rule R60; log 3). -/
def pickFault (f : ByteFault) (fs : List ByteFault) (n : Nat) : ByteFault :=
  (f :: fs).getD (n % (fs.length + 1)) f

/-- `Translate`: the physical address of each byte, or the exception of one that has none
(20_memory.md rule R60). -/
def translate (s : State) (acc : Access) (seg : SegName) (offs : List Qword) :
    Host.Outcome (List Nat) Fault Refusal :=
  match offs.filterMap (byteFault s acc seg) with
  | [] => .next (offs.map fun o => physical s (linear s seg o))
  | f :: fs => raiseByte (pickFault f fs (Config.freePick s.faults)) s

/-! ## The data read (20_memory.md rules R57, R58) -/

/-- The low `A` bits of an address (20_memory.md rule R52). -/
def truncTo (a : AddrSize) (x : Qword) : Qword :=
  match a with
  | .a16 => (x.setWidth 16).setWidth 64
  | .a32 => (x.setWidth 32).setWidth 64
  | .a64 => x

/-- The offset of byte `k` of an operand at `off`. For `A` 16 or 32 it is a parameter whether it wraps modulo 2^A
(20_memory.md rule R52, U12). For `A = 64` it has 64 bits, so that under either value an operand across the top of the
address space goes on at offset 0; crossing the top of an offset space is by itself no fault for any `A`, where U12
leaves a fault or bytes open (DESIGN CHOICE, log 27). -/
def byteOffset (s : State) (a : AddrSize) (off : Qword) (k : Nat) : Qword :=
  if s.cfg.wrapOffsets then truncTo a (off + BitVec.ofNat 64 k) else off + BitVec.ofNat 64 k

/-- The bytes that read number `n` of the run answers: what the oracle lists for it, else what memory holds
(20_memory.md rule R57; log 7). -/
def answer (s : State) (n : Nat) (ps : List Nat) : List Byte :=
  match s.oracle.lookup n with
  | none => ps.map (Memory.read s.mem)
  | some bs => ps.mapIdx fun i p => bs.getD i (Memory.read s.mem p)

/-- The events of reading groups of addresses, each group as one access, from read number `n` on. -/
def readEvents (s : State) (n : Nat) : List (List Nat) → List ReadEvent
  | [] => []
  | ps :: pss => ⟨ps, answer s n ps⟩ :: readEvents s (n + 1) pss

/-- Whether an access of `n` bytes at a linear address may raise `#AC(0)`: `AC_ON_VECTOR`, alignment checking in
force, and an address that is no multiple of `n` (60_exceptions.md rule R214). -/
def mayTrapAlign (s : State) (lin : Qword) (n : Nat) : Bool :=
  s.cfg.acOnVector && s.alignmentChecked && lin.toNat % n != 0

/-- The accesses of an operand: a 4-byte-aligned broadcast is one access of 4 bytes, all else is read byte by
byte (20_memory.md rule R58). -/
def accesses (atomic : Bool) (ps : List Nat) : List (List Nat) :=
  if atomic then [ps] else ps.map fun p => [p]

/-- The bytes of a memory operand that have been read, each with its place in the operand, and the events of the
read. -/
structure Bytes where
  bytes : List (Nat × Byte)
  events : List ReadEvent
deriving DecidableEq, Repr

/-- `MemRead(seg, off, n)` on the bytes `ks` of the operand (20_memory.md rule R57, 42_vsubps_evex.md rule R160):
translation, then the alignment check (60_exceptions.md rule R215(6)), then the reads. -/
def memRead (s : State) (seg : SegName) (a : AddrSize) (off : Qword) (n : Nat) (ks : List Nat)
    (broadcast : Bool) : Host.Outcome Bytes Fault Refusal :=
  andThen (translate s .read seg (ks.map (byteOffset s a off))) fun ps =>
    if !ks.isEmpty && mayTrapAlign s (linear s seg off) n && Config.freeTrap (s.history.length + s.faults) then
      raise .ac s
    else if ks.any fun k => isDevice s (linear s seg (byteOffset s a off k)) then
      .refused .deviceMemory
    else
      let evs := readEvents s s.history.length
        (accesses (broadcast && !ks.isEmpty && (linear s seg off).toNat % 4 == 0) ps)
      .next ⟨ks.zip (evs.flatMap ReadEvent.bytes), evs⟩

/-- Byte `k` of an operand that has been read; a byte that was not accessed (rule R160) reaches no result. -/
def Bytes.at (b : Bytes) (k : Nat) : Byte := (b.bytes.lookup k).getD 0#8

/-- The four bytes from byte `k` on, least significant first (20_memory.md rule R53). -/
def Bytes.dword (b : Bytes) (k : Nat) : Dword := b.at (k + 3) ++ b.at (k + 2) ++ b.at (k + 1) ++ b.at k

/-! ## Instruction fetch (20_memory.md rule R65, 30_encoding.md rule R80) -/

/-- The offset of the instruction's byte `k` in CS: 64 bits in 64-bit mode, 32 bits elsewhere
(10_state.md rule R31). Where the bytes straddle the top of the offset space the model goes on at offset 0; rule R31
leaves this to the fetch of 20_memory.md rule R65, which does not say (DESIGN CHOICE, log 29). -/
def fetchOffset (s : State) (k : Nat) : Qword :=
  match s.mode with
  | .mode64 => s.pc + BitVec.ofNat 64 k
  | _ => truncTo .a32 (s.pc + BitVec.ofNat 64 k)

/-- Why no byte could be fetched. -/
inductive FetchStop
  | fault (f : ByteFault)
  | device
  | tooLong
deriving DecidableEq, Repr

/-- Up to `fuel` bytes from byte `k` of the instruction on, and what stops the fetch of the byte after them: after
15 bytes, the length limit (30_encoding.md rule R80). -/
def fetchFrom (s : State) : Nat → Nat → List Byte × FetchStop
  | 0, _ => ([], .tooLong)
  | fuel + 1, k =>
    match byteFault s .fetch .cs (fetchOffset s k) with
    | some f => ([], .fault f)
    | none =>
      if isDevice s (linear s .cs (fetchOffset s k)) then ([], .device)
      else
        (Memory.read s.mem (physical s (linear s .cs (fetchOffset s k))) :: (fetchFrom s fuel (k + 1)).1,
          (fetchFrom s fuel (k + 1)).2)

/-- The bytes at the program counter, at most 15, and what stops the fetch after them. -/
def fetch (s : State) : List Byte × FetchStop := fetchFrom s maxLength 0

/-- An instruction that does not end within the bytes fetched: the fetch fault of the byte that it needs, or
`#GP(0)` for its length (60_exceptions.md rule R215(1)). Real-address mode is out of scope (log 1). -/
def raiseFetch (st : FetchStop) (s : State) : Host.Outcome State Fault Refusal :=
  if s.mode = .realAddress then .refused .modeOutOfScope
  else match st with
    | .fault f => raiseByte f s
    | .device => .refused .deviceMemory
    | .tooLong => raise .gp s

/-! ## Registers -/

/-- The number of elements `KL` of a vector length (00_scope.md rule R12). -/
def vlLanes : VLen → Nat
  | .v128 => 4
  | .v256 => 8
  | .v512 => 16

/-- The number of bytes of a vector length. -/
def vlBytes (vl : VLen) : Nat := 4 * vlLanes vl

/-- `ZMM[n]`, by elements. -/
def State.readZmm (s : State) (n : BitVec 5) : Lanes := s.zmm[n.toNat]'n.isLt

/-- `K[n]`. -/
def State.readK (s : State) (n : BitVec 3) : Qword := s.k[n.toNat]'n.isLt

/-- `x[n]`, a general register. -/
def State.readGpr (s : State) (n : BitVec 4) : Qword := s.gpr[n.toNat]'n.isLt

/-- `zext_MAX_VL`: the low `VL` bits of a result, with the bits `[MAX_VL-1:VL]` zero (00_scope.md rule R14); bits
from `MAX_VL` on do not exist and are held at 0 (log 11). -/
def zextMaxVl (c : Config) (vl : VLen) (r : Lanes) : Lanes :=
  Vector.ofFn fun j => if j.val < vlLanes vl ∧ j.val < vlLanes c.maxVl then r[j] else 0#32

/-- Bits `[127:0]` replaced and bits `[MAX_VL-1:128]` unmodified (40_subps_legacy_sse.md rule R131). -/
def replaceLow128 (old r : Lanes) : Lanes :=
  Vector.ofFn fun j => if j.val < 4 then r[j] else old[j]

/-- `pc + ilen`, modulo 2^32 outside 64-bit mode (10_state.md rule R31). -/
def nextPc (s : State) (ilen : Nat) : Qword :=
  match s.mode with
  | .mode64 => s.pc + BitVec.ofNat 64 ilen
  | _ => truncTo .a32 (s.pc + BitVec.ofNat 64 ilen)

/-! ## Before and after the operation -/

/-- The order of the checks before an instruction (60_exceptions.md rules R215, R217): `ud` are its #UD
conditions, then #NM. A state with `MXCSR[31:16]` not 0 is refused (U1), and an instruction of
real-address mode that is not #UD is out of scope (log 1). -/
def enter (ud : Bool) (s : State) (body : Host.Outcome State Fault Refusal) :
    Host.Outcome State Fault Refusal :=
  if mxReserved s.mxcsr ≠ 0#16 then .refused .mxcsrReserved
  else if ud then raise .ud s
  else if s.mode = .realAddress then .refused .modeOutOfScope
  else if s.crTs then raise .nm s
  else body

/-- `deliver_fp(F)` (60_exceptions.md rule R216): the `MXCSR` of a step that completes, or `#XM` or `#UD` with the
flags of rule R203 set and nothing else changed. -/
def deliverFp (s : State) (f : FpFlags) : Host.Outcome Dword Fault Refusal :=
  let u := unmasked s.mxcsr f
  if u.isEmpty then .next (s.mxcsr ||| flagBits f)
  else
    let s' := { s with mxcsr := s.mxcsr ||| flagBits (faultFlags (Config.freeFlags s.faults) f u) }
    if s.osxmmexcpt then raise .xm s' else raise .ud s'

/-- What a completed step writes (10_state.md rule R34): the destination entry `d`, `MXCSR` and the pc; and the
events of its data read join the history (20_memory.md rule R57). -/
def complete (s : State) (d : BitVec 5) (v : Lanes) (mx : Dword) (evs : List ReadEvent) (ilen : Nat) :
    State :=
  { s with
    zmm := s.zmm.set d.toNat v d.isLt
    mxcsr := mx
    pc := nextPc s ilen
    history := s.history ++ evs }

/-- An invalid encoding at `pc` (30_encoding.md rules R98, R105, R108; 60_exceptions.md rule R217). -/
def raiseInvalid (s : State) : Host.Outcome State Fault Refusal := enter true s (raise .ud s)

end Sys2Proof.Machine
end

