-- ==== Sys2Proof/Machine/Operands.lean ====
section
/-! DEFINITION. The operands: the effective address and segment of a memory operand (20_memory.md rule R52,
30_encoding.md rules R92 to R94), the second source in every form, and the element-by-element
subtraction (00_scope.md rule R12). -/

namespace Sys2Proof.Machine

/-! ## Memory addresses -/

/-- The segment that an override prefix names: CS, DS, ES and SS are ignored in 64-bit mode
(30_encoding.md rule R85). -/
def overrideOf (m : Mode) : Pfx → Option SegName
  | .segFs => some .fs
  | .segGs => some .gs
  | .segCs => if m = .mode64 then none else some .cs
  | .segDs => if m = .mode64 then none else some .ds
  | .segEs => if m = .mode64 then none else some .es
  | .segSs => if m = .mode64 then none else some .ss
  | _ => none

/-- The segment override in force, the last one that counts (30_encoding.md rule R85; log 14). -/
def segOverride (m : Mode) (p : List Pfx) : Option SegName := (p.filterMap (overrideOf m)).getLast?

/-- The displacement as an address, sign-extended; a disp8 is multiplied by `n8`, which is 1 but in the EVEX forms
(30_encoding.md rules R93, R103). -/
def dispValue (n8 : Nat) : Disp → Qword
  | .none => 0#64
  | .d8 d => d.signExtend 64 * BitVec.ofNat 64 n8
  | .d16 d => d.signExtend 64
  | .d32 d => d.signExtend 64

/-- The low `A` bits of a general register (20_memory.md rule R52). -/
def addrReg (s : State) (a : AddrSize) (n : BitVec 4) : Qword := truncTo a (s.readGpr n)

/-- The register sum of 16-bit addressing, and whether its default segment is SS (30_encoding.md rule R94): BX is
register 3, BP 5, SI 6, DI 7. -/
def sum16 (s : State) (mod : BitVec 2) (rm : BitVec 3) : Qword × Bool :=
  let r := addrReg s .a16
  if rm = 0b000#3 then (r 3#4 + r 6#4, false)
  else if rm = 0b001#3 then (r 3#4 + r 7#4, false)
  else if rm = 0b010#3 then (r 5#4 + r 6#4, true)
  else if rm = 0b011#3 then (r 5#4 + r 7#4, true)
  else if rm = 0b100#3 then (r 6#4, false)
  else if rm = 0b101#3 then (r 7#4, false)
  else if rm = 0b110#3 then (if mod = 0b00#2 then (0#64, false) else (r 5#4, true))
  else (r 3#4, false)

/-- Whether a base register's default segment is SS: number 4 (SP) or 5 (BP) (20_memory.md rule R52). -/
def baseUsesSs (n : BitVec 4) : Bool := n == 4#4 || n == 5#4

/-- The index term of a SIB byte: `X:index = 0100` means no index (30_encoding.md rule R92). -/
def indexTerm (s : State) (a : AddrSize) (x : Bool) (b : Sib) : Qword :=
  if regNum s.mode x b.index = 0b0100#4 then 0#64
  else addrReg s a (regNum s.mode x b.index) * (1#64 <<< b.scale.toNat)

/-- The register sum of 32-bit and 64-bit addressing, and whether its default segment is SS (30_encoding.md rule
R92). `rip` is `pc + ilen`, the base of RIP-relative addressing (20_memory.md rule R52). -/
def sum3264 (s : State) (a : AddrSize) (x b : Bool) (rip : Qword) (o : MemOp) : Qword × Bool :=
  match o.sib with
  | some sb =>
    if sb.base = 0b101#3 ∧ o.mod = 0b00#2 then (indexTerm s a x sb, false)
    else
      (addrReg s a (regNum s.mode b sb.base) + indexTerm s a x sb, baseUsesSs (regNum s.mode b sb.base))
  | none =>
    if o.rm = 0b101#3 ∧ o.mod = 0b00#2 then (if s.mode = .mode64 then rip else 0#64, false)
    else (addrReg s a (regNum s.mode b o.rm), baseUsesSs (regNum s.mode b o.rm))

/-- The segment and offset of a memory operand (20_memory.md rule R52). `x` and `b` are the extension bits in
force, `n8` the scale of a disp8. -/
def memAddr (s : State) (p : List Pfx) (x b : Bool) (n8 ilen : Nat) (o : MemOp) : SegName × Qword :=
  let a := addrSize s.mode p
  let sum := if a = .a16 then sum16 s o.mod o.rm else sum3264 s a x b (nextPc s ilen) o
  ((segOverride s.mode p).getD (if sum.2 then .ss else .ds), truncTo a (sum.1 + dispValue n8 o.disp))

/-! ## The second source -/

/-- The second source by elements, with the events of its read. -/
structure Loaded where
  lanes : Lanes
  events : List ReadEvent
deriving DecidableEq, Repr

/-- The elements of a full-width memory operand: element `j` is the four bytes from byte `4j` on
(20_memory.md rule R53). -/
def fullLanes (b : Bytes) : Loaded := ⟨Vector.ofFn fun j => b.dword (4 * j.val), b.events⟩

/-- The elements of a broadcast operand: its four bytes for every element (42_vsubps_evex.md rule R153). -/
def broadcastLanes (b : Bytes) : Loaded := ⟨Vector.ofFn fun _ => b.dword 0, b.events⟩

/-- A full-width memory operand of `VL` bits, all of it read. -/
def loadFull (s : State) (p : List Pfx) (ad : SegName × Qword) (vl : VLen) :
    Host.Outcome Loaded Fault Refusal :=
  andThen (memRead s ad.1 (addrSize s.mode p) ad.2 (vlBytes vl) (List.range (vlBytes vl)) false) fun b =>
    .next (fullLanes b)

/-- The legacy form's second source: a register, or 16 bytes that must be aligned, else `#GP(0)`
(40_subps_legacy_sse.md rule R130, 20_memory.md rule R54). -/
def legacySource (s : State) (p : List Pfx) (rm : Rm) (ilen : Nat) : Host.Outcome Loaded Fault Refusal :=
  match rm with
  | .reg n => .next ⟨s.readZmm (low16 (regNum s.mode (rexOf s.mode p).2.2 n)), []⟩
  | .mem o =>
    let ad := memAddr s p (rexOf s.mode p).2.1 (rexOf s.mode p).2.2 1 ilen o
    if (linear s ad.1 ad.2).toNat % 16 ≠ 0 then raise .gp s else loadFull s p ad .v128

/-- A VEX form's second source: a register, or `VL/8` bytes of any alignment (41_vsubps_vex.md rules R140, R141). -/
def vexSource (s : State) (p : List Pfx) (x b : Bool) (vl : VLen) (rm : Rm) (ilen : Nat) :
    Host.Outcome Loaded Fault Refusal :=
  match rm with
  | .reg n => .next ⟨s.readZmm (low16 (regNum s.mode b n)), []⟩
  | .mem o => loadFull s p (memAddr s p x b 1 ilen o) vl

/-- Whether element `j` is active: no writemask, or bit `j` of it is 1 (42_vsubps_evex.md rule R155). -/
def active (s : State) (aaa : BitVec 3) (j : Nat) : Bool :=
  aaa == 0#3 || (s.readK aaa).getLsbD j

/-- The bytes of a full-width EVEX operand that are accessed: all, or with `FAULT_SUPPRESSION` those of active
elements (42_vsubps_evex.md rule R160; with no writemask every element is active). -/
def fullBytes (s : State) (aaa : BitVec 3) (vl : VLen) : List Nat :=
  (List.range (vlBytes vl)).filter fun k => !s.cfg.faultSuppression || active s aaa (k / 4)

/-- The bytes of a broadcast operand that are accessed: the four, but with `FAULT_SUPPRESSION` none where no
element is active (42_vsubps_evex.md rule R160). -/
def broadcastBytes (s : State) (aaa : BitVec 3) (vl : VLen) : List Nat :=
  if !s.cfg.faultSuppression || (List.range (vlLanes vl)).any (active s aaa) then List.range 4 else []

/-- `N`, by which a disp8 of an EVEX form is multiplied (30_encoding.md rule R103). -/
def evexScale (vl : VLen) (bc : Bool) : Nat := if bc then 4 else vlBytes vl

/-- An EVEX form's second source: a register `X:B:rm`, a full-width memory operand, or a broadcast
(42_vsubps_evex.md rule R161). -/
def evexSource (s : State) (p : List Pfx) (e : Evex) (bc : Bool) (vl : VLen) (rm : Rm) (ilen : Nat) :
    Host.Outcome Loaded Fault Refusal :=
  match rm with
  | .reg n => .next ⟨s.readZmm (regNum5 s.mode e.x e.b n), []⟩
  | .mem o =>
    let ad := memAddr s p e.x e.b (evexScale vl bc) ilen o
    let a := addrSize s.mode p
    if bc then
      andThen (memRead s ad.1 a ad.2 4 (broadcastBytes s e.aaa vl) true) fun b => .next (broadcastLanes b)
    else
      andThen (memRead s ad.1 a ad.2 (vlBytes vl) (fullBytes s e.aaa vl) false) fun b => .next (fullLanes b)

/-! ## The elements -/

/-- The rounding mode and control bits of one execution (43_lane_arithmetic.md rule R170). -/
structure Control where
  rm : Rounding
  daz : Bool
  ftz : Bool
  um : Bool
deriving DecidableEq, Repr

/-- The control of an execution without embedded rounding: `MXCSR.RC`, DAZ, FTZ and UM (10_state.md rule R28,
40_subps_legacy_sse.md rule R132, 41_vsubps_vex.md rule R143, 42_vsubps_evex.md rule R157). -/
def mxControl (s : State) : Control :=
  ⟨.ofBits (mxRc s.mxcsr), mxDaz s.mxcsr, mxFtz s.mxcsr, mxUm s.mxcsr⟩

/-- The control under embedded rounding: `EVEX.RC`, and underflow taken as masked (42_vsubps_evex.md rules R157,
R158). Whether FTZ flushes when `MXCSR.UM = 0` is the parameter `erFlush` (U6). -/
def erControl (s : State) (rc : BitVec 2) : Control :=
  ⟨.ofBits rc, mxDaz s.mxcsr, mxFtz s.mxcsr && (mxUm s.mxcsr || s.cfg.erFlush), true⟩

/-- One element subtraction under a control. -/
def laneOf (c : Control) (a b : Dword) : Dword × FpFlags := laneSub c.rm c.daz c.ftz c.um a b

/-- Element `j` of an execution: the subtraction where it is active; else what masking leaves, and no condition
(42_vsubps_evex.md rules R155, R159). -/
def element (c : Control) (act : Nat → Bool) (masked a b : Lanes) (j : Fin 16) : Dword × FpFlags :=
  if act j.val then laneOf c a[j] b[j] else (masked[j], FpFlags.none)

/-- The union of the conditions of the elements (60_exceptions.md rule R200). -/
def unionAll (g : Fin 16 → FpFlags) : FpFlags :=
  (List.finRange 16).foldr (fun j f => (g j).union f) FpFlags.none

/-- All elements of an execution of `VL` bits, and `F`, the union of their conditions: no element's result is an
input of another (00_scope.md rule R12, 60_exceptions.md rule R200). -/
def elements (c : Control) (vl : VLen) (act : Nat → Bool) (masked a b : Lanes) : Lanes × FpFlags :=
  let g := element c (fun j => decide (j < vlLanes vl) && act j) masked a b
  (Vector.ofFn fun j => (g j).1, unionAll fun j => (g j).2)

end Sys2Proof.Machine
end

