-- ==== Sys2Proof/Machine/EvexForms.lean ====
section
/-! DEFINITION. The EVEX forms of `VSUBPS`, with writemask, zeroing, broadcast and embedded rounding
(spec/42_vsubps_evex.md). -/

namespace Sys2Proof.Machine

/-- The #UD conditions of an EVEX form that 60_exceptions.md rule R217 tests: a prefix that may not precede EVEX,
`CR4.OSXSAVE = 0`, `XCR0[2:1]` not 11, `XCR0[7:5]` not 111, no AVX512F, no AVX512VL where the form needs it, `z = 1`
with `aaa = 000`; and real-address mode (rule R205, last sentence; log 1). Wrong fixed bits, `W = 1` and
`L'L = 11` match no row: the decoder answers `invalid` for them. -/
def udEvex (needsVl : Bool) (p : List Pfx) (e : Evex) (s : State) : Bool :=
  badVexPfx p || s.mode == .realAddress || !s.osxsave || !s.xcrAvx || !s.xcrAvx512 || !s.cfg.avx512f ||
    (needsVl && !s.cfg.avx512vl) || (e.z && e.aaa == 0#3)

/-- What a masked-off element receives: zero under zeroing-masking, its old value under merging-masking (rule
R155). -/
def maskedOff (e : Evex) (old : Lanes) : Lanes := if e.z then Vector.replicate 16 0#32 else old

/-- The whole step of an EVEX form of `VL` bits without embedded rounding (rule R161): `ZMM[R':R:reg]` receives
`ZMM[V':vvvv]` minus the second source in its active elements, with the bits above `VL` zeroed (rule R156). -/
def evexStep (vl : VLen) (p : List Pfx) (e : Evex) (bc : Bool) (reg : BitVec 3) (rm : Rm) (ilen : Nat)
    (s : State) : Host.Outcome State Fault Refusal :=
  let d := regNum5 s.mode e.rp e.r reg
  enter (udEvex (vl != .v512) p e s) s <|
    andThen (evexSource s p e bc vl rm ilen) fun src =>
      let src1 := s.readZmm (vvvvNum5 s.mode e.vp e.vvvv)
      let res := elements (mxControl s) vl (active s e.aaa) (maskedOff e (s.readZmm d)) src1 src.lanes
      andThen (deliverFp s res.2) fun mx =>
        .next (complete s d (zextMaxVl s.cfg vl res.1) mx src.events ilen)

/-- The whole step of the 512-bit register form with embedded rounding (rule R161 with `sae`): `EVEX.RC` rounds,
every numeric exception is suppressed and `MXCSR` is unchanged (rules R157, R158). -/
def evexErStep (p : List Pfx) (e : Evex) (rc : BitVec 2) (reg rm : BitVec 3) (ilen : Nat) (s : State) :
    Host.Outcome State Fault Refusal :=
  let d := regNum5 s.mode e.rp e.r reg
  enter (udEvex false p e s) s <|
    let src1 := s.readZmm (vvvvNum5 s.mode e.vp e.vvvv)
    let src2 := s.readZmm (regNum5 s.mode e.x e.b rm)
    let res := elements (erControl s rc) .v512 (active s e.aaa) (maskedOff e (s.readZmm d)) src1 src2
    .next (complete s d (zextMaxVl s.cfg .v512 res.1) s.mxcsr [] ilen)

/-- `VSUBPS xmm1 {k1}{z}, xmm2, xmm3/m128/m32bcst` (rule R150). -/
def execVsubpsEvex128 (p : List Pfx) (e : Evex) (bc : Bool) (reg : BitVec 3) (rm : Rm) (s : State) :
    Host.Outcome State Fault Refusal :=
  evexStep .v128 p e bc reg rm (instrLength (.vsubpsEvex128 p e bc reg rm)) s

/-- `VSUBPS ymm1 {k1}{z}, ymm2, ymm3/m256/m32bcst` (rule R151). -/
def execVsubpsEvex256 (p : List Pfx) (e : Evex) (bc : Bool) (reg : BitVec 3) (rm : Rm) (s : State) :
    Host.Outcome State Fault Refusal :=
  evexStep .v256 p e bc reg rm (instrLength (.vsubpsEvex256 p e bc reg rm)) s

/-- `VSUBPS zmm1 {k1}{z}, zmm2, zmm3/m512/m32bcst` (rule R152). -/
def execVsubpsEvex512 (p : List Pfx) (e : Evex) (bc : Bool) (reg : BitVec 3) (rm : Rm) (s : State) :
    Host.Outcome State Fault Refusal :=
  evexStep .v512 p e bc reg rm (instrLength (.vsubpsEvex512 p e bc reg rm)) s

/-- `VSUBPS zmm1 {k1}{z}, zmm2, zmm3{er}` (rules R152, R157, R158). -/
def execVsubpsEvex512er (p : List Pfx) (e : Evex) (rc : BitVec 2) (reg rm : BitVec 3) (s : State) :
    Host.Outcome State Fault Refusal :=
  evexErStep p e rc reg rm (instrLength (.vsubpsEvex512er p e rc reg rm)) s

end Sys2Proof.Machine
end

