-- ==== Sys2Proof/Machine/Legacy.lean ====
section
/-! DEFINITION. The legacy form `SUBPS xmm1, xmm2/m128` (spec/40_subps_legacy_sse.md). -/

namespace Sys2Proof.Machine

/-- The #UD conditions of the legacy form: LOCK, `CR0.EM = 1`, `CR4.OSFXSR = 0`, no SSE (60_exceptions.md rule
R217). -/
def udLegacy (p : List Pfx) (s : State) : Bool :=
  p.contains .lock || s.crEm || !s.osfxsr || !s.cfg.sse

/-- `SUBPS xmm1, xmm2/m128` (rule R130): `REX.R:reg` is destination and first source, and its bits
`[MAX_VL-1:128]` are unmodified (rule R131). -/
def execSubps (p : List Pfx) (reg : BitVec 3) (rm : Rm) (s : State) : Host.Outcome State Fault Refusal :=
  let ilen := instrLength (.subps p reg rm)
  let d := low16 (regNum s.mode (rexOf s.mode p).1 reg)
  enter (udLegacy p s) s <|
    andThen (legacySource s p rm ilen) fun src =>
      let old := s.readZmm d
      let r := elements (mxControl s) .v128 (fun _ => true) old old src.lanes
      andThen (deliverFp s r.2) fun mx =>
        .next (complete s d (replaceLow128 old r.1) mx src.events ilen)

end Sys2Proof.Machine
end

