-- ==== Sys2Proof/Machine/VexForms.lean ====
section
/-! DEFINITION. The VEX forms of `VSUBPS`, 128-bit and 256-bit, each in its two spellings
(spec/41_vsubps_vex.md). -/

namespace Sys2Proof.Machine

/-- The #UD conditions of a VEX form: a prefix that may not precede VEX, `CR4.OSXSAVE = 0`, `XCR0[2:1]` not 11, no
AVX (60_exceptions.md rule R217); and real-address mode (rule R205, last sentence; log 1). -/
def udVex (p : List Pfx) (s : State) : Bool :=
  badVexPfx p || s.mode == .realAddress || !s.osxsave || !s.xcrAvx || !s.cfg.avx

/-- The whole step of a VEX form of `VL` bits (rules R140, R141): `ZMM[R:reg]` receives `ZMM[vvvv]` minus the second
source, with the bits above `VL` zeroed (rule R142). `x` and `b` are VEX.X and VEX.B. -/
def vexStep (vl : VLen) (p : List Pfx) (r x b : Bool) (vvvv : BitVec 4) (reg : BitVec 3) (rm : Rm) (ilen : Nat)
    (s : State) : Host.Outcome State Fault Refusal :=
  let d := low16 (regNum s.mode r reg)
  enter (udVex p s) s <|
    andThen (vexSource s p x b vl rm ilen) fun src =>
      let src1 := s.readZmm (low16 (vvvvNum s.mode vvvv))
      let res := elements (mxControl s) vl (fun _ => true) src1 src1 src.lanes
      andThen (deliverFp s res.2) fun mx =>
        .next (complete s d (zextMaxVl s.cfg vl res.1) mx src.events ilen)

/-- `VSUBPS xmm1, xmm2, xmm3/m128`, two-byte spelling: X = B = 0 (rule R140; 30_encoding.md rule R96). -/
def execVsubps128c5 (p : List Pfx) (v : Vex2) (reg : BitVec 3) (rm : Rm) (s : State) :
    Host.Outcome State Fault Refusal :=
  vexStep .v128 p v.r false false v.vvvv reg rm (instrLength (.vsubps128c5 p v reg rm)) s

/-- `VSUBPS xmm1, xmm2, xmm3/m128`, three-byte spelling; W is ignored (rule R140; 30_encoding.md rule R97). -/
def execVsubps128c4 (p : List Pfx) (v : Vex3) (reg : BitVec 3) (rm : Rm) (s : State) :
    Host.Outcome State Fault Refusal :=
  vexStep .v128 p v.r v.x v.b v.vvvv reg rm (instrLength (.vsubps128c4 p v reg rm)) s

/-- `VSUBPS ymm1, ymm2, ymm3/m256`, two-byte spelling: X = B = 0 (rule R141; 30_encoding.md rule R96). -/
def execVsubps256c5 (p : List Pfx) (v : Vex2) (reg : BitVec 3) (rm : Rm) (s : State) :
    Host.Outcome State Fault Refusal :=
  vexStep .v256 p v.r false false v.vvvv reg rm (instrLength (.vsubps256c5 p v reg rm)) s

/-- `VSUBPS ymm1, ymm2, ymm3/m256`, three-byte spelling; W is ignored (rule R141; 30_encoding.md rule R97). -/
def execVsubps256c4 (p : List Pfx) (v : Vex3) (reg : BitVec 3) (rm : Rm) (s : State) :
    Host.Outcome State Fault Refusal :=
  vexStep .v256 p v.r v.x v.b v.vvvv reg rm (instrLength (.vsubps256c4 p v reg rm)) s

end Sys2Proof.Machine
end

