-- ==== Sys2Proof/Machine/Dispatch.lean ====
section
/-! DEFINITION. The meaning of every instruction, one arm a constructor. -/

namespace Sys2Proof.Machine

def exec (i : Instr) (s : State) : Host.Outcome State Fault Refusal :=
  match i with
  | .subps p reg rm => Sys2Proof.Machine.execSubps p reg rm s
  | .vsubps128c5 p v reg rm => Sys2Proof.Machine.execVsubps128c5 p v reg rm s
  | .vsubps128c4 p v reg rm => Sys2Proof.Machine.execVsubps128c4 p v reg rm s
  | .vsubps256c5 p v reg rm => Sys2Proof.Machine.execVsubps256c5 p v reg rm s
  | .vsubps256c4 p v reg rm => Sys2Proof.Machine.execVsubps256c4 p v reg rm s
  | .vsubpsEvex128 p e bc reg rm => Sys2Proof.Machine.execVsubpsEvex128 p e bc reg rm s
  | .vsubpsEvex256 p e bc reg rm => Sys2Proof.Machine.execVsubpsEvex256 p e bc reg rm s
  | .vsubpsEvex512 p e bc reg rm => Sys2Proof.Machine.execVsubpsEvex512 p e bc reg rm s
  | .vsubpsEvex512er p e rc reg rm => Sys2Proof.Machine.execVsubpsEvex512er p e rc reg rm s

end Sys2Proof.Machine
end

