-- ==== Sys2Proof/Machine/Launch.lean ====
section
/-! DEFINITION. What the outside world does to the machine: it places a program, signals INIT (10_state.md rule
R35), and, by software outside the scope, boots it (70_reset_and_hazards.md rule R242). -/

namespace Sys2Proof.Machine

/-- Writes bytes where the instruction's bytes `k, k+1, …` are fetched (20_memory.md rule R65). -/
def placeFrom (s : State) : Nat → List Byte → List Host.Cell → List Host.Cell
  | _, [], m => m
  | k, b :: bs, m =>
    placeFrom s (k + 1) bs (Memory.write m (physical s (linear s .cs (fetchOffset s k))) b)

/-- `s` with bytes stored at the program counter. -/
def placeProgram (s : State) (bs : List Byte) : State := { s with mem := placeFrom s 0 bs s.mem }

/-- The machine after INIT (10_state.md rule R35, second column): the vector and opmask registers, `MXCSR`, XCR0 and
memory are unchanged, `CR0` keeps its bits CD and NW and is reset otherwise, and the rest is as after reset (log 26).
The spec names CD and NW without numbers: bits 30 and 29 are the processor family's (PRESUMED, log 10). -/
def State.init (s : State) : State :=
  { State.reset with
    cfg := s.cfg
    zmm := s.zmm
    k := s.k
    mxcsr := s.mxcsr
    xcr0 := s.xcr0
    cr0 := (s.cr0 &&& 0x60000000#32) ||| 0x00000010#32
    regions := s.regions
    mem := s.mem
    oracle := s.oracle
    history := s.history
    faults := s.faults }

/-- What system software has done before the forms can execute, in 64-bit mode (70_reset_and_hazards.md rule R242):
`CR0.EM` and TS clear and MP set, `CR4.OSFXSR`, OSXMMEXCPT and OSXSAVE set, XCR0 bits 0, 1, 2, 5, 6, 7 set. The
spec names MP without a number: bit 1 is the processor family's (PRESUMED, log 10). The software itself is outside the
scope (60_exceptions.md rule R231). -/
def State.booted (s : State) : State :=
  { s with
    mode := .mode64
    cr0 := (s.cr0 &&& 0xFFFFFFF3#32) ||| 0x00000002#32
    cr4 := s.cr4 ||| 0x00040600#32
    xcr0 := s.xcr0 ||| 0xE7#64 }

end Sys2Proof.Machine
end

