-- ==== Sys2Proof/Machine/Step.lean ====
section
/-! DEFINITION. One step (00_scope.md rule R15): the instruction at the program counter is fetched, decoded and
executed. -/

namespace Sys2Proof.Machine

/-- One step of the machine (00_scope.md rule R15; 30_encoding.md rule R110; 60_exceptions.md rule R215). -/
def step (s : State) : Host.Outcome State Fault Refusal :=
  match decode s.mode (fetch s).1 with
  | .instr i _ => exec i s
  | .invalid => raiseInvalid s
  | .rejected r => .refused (.notAForm r)
  | .more => raiseFetch (fetch s).2 s

/-- `s` with a word of opcode_table.json, an encoding of 64-bit mode, stored where step fetches its next
instruction, in 64-bit mode (log 1, 22). -/
def State.withFetchWord (s : State) (nbits w : Nat) : State :=
  placeProgram { s with mode := .mode64 } (tableBytes nbits w)

end Sys2Proof.Machine
end

