-- ==== Sys2Proof/Safety.lean ====
section
/-! DEFINITION. The terms in which claims about the machine are stated: launch states, when an instruction may go on
to its operation, when an operand can be read and what it then holds, what a step leaves unchanged, the invariant of
the state, and a safe run. -/

namespace Sys2Proof.Machine

/-! ## Launch states -/

/-- The launch-state premises of 70_reset_and_hazards.md rule R243 that a state can show: the mode is in scope (a),
the configuration meets its constraints (b), `MXCSR[31:16] = 0` (c), `EFLAGS.TF = 0` (d). The spec names TF and gives
no bit number: bit 8 is the processor family's (PRESUMED, log 10). -/
abbrev Launch (s : State) : Prop :=
  s.mode ≠ .realAddress ∧ s.cfg.ok ∧ mxReserved s.mxcsr = 0#16 ∧ s.eflags.getLsbD 8 = false

/-! ## What stands before an operation -/

/-- The #UD conditions of an instruction (60_exceptions.md rule R217). -/
def udOf : Instr → State → Bool
  | .subps p _ _, s => udLegacy p s
  | .vsubps128c5 p _ _ _, s => udVex p s
  | .vsubps128c4 p _ _ _, s => udVex p s
  | .vsubps256c5 p _ _ _, s => udVex p s
  | .vsubps256c4 p _ _ _, s => udVex p s
  | .vsubpsEvex128 p e _ _ _, s => udEvex true p e s
  | .vsubpsEvex256 p e _ _ _, s => udEvex true p e s
  | .vsubpsEvex512 p e _ _ _, s => udEvex false p e s
  | .vsubpsEvex512er p e _ _ _, s => udEvex false p e s

/-- The prefix bytes of an instruction (30_encoding.md rule R85). -/
def prefixesOf : Instr → List Pfx
  | .subps p _ _ => p
  | .vsubps128c5 p _ _ _ => p
  | .vsubps128c4 p _ _ _ => p
  | .vsubps256c5 p _ _ _ => p
  | .vsubps256c4 p _ _ _ => p
  | .vsubpsEvex128 p _ _ _ _ => p
  | .vsubpsEvex256 p _ _ _ _ => p
  | .vsubpsEvex512 p _ _ _ _ => p
  | .vsubpsEvex512er p _ _ _ _ => p

/-- An instruction goes on to its operation: `MXCSR[31:16]` is 0, no #UD condition holds, the mode is in scope, and
`CR0.TS = 0` (60_exceptions.md rules R207, R217; 93_implementation_defined.md U1). -/
abbrev Ready (ud : Bool) (s : State) : Prop :=
  mxReserved s.mxcsr = 0#16 ∧ ud = false ∧ s.mode ≠ .realAddress ∧ s.crTs = false

/-- No condition of `F` is unmasked (60_exceptions.md rule R201). -/
abbrev AllMasked (s : State) (f : FpFlags) : Prop := unmasked s.mxcsr f = FpFlags.none

/-! ## Instruction bytes -/

/-- The bytes `bs` stand at the program counter and can be fetched (20_memory.md rule R65). -/
def Holds (s : State) (bs : List Byte) : Prop :=
  ∀ (k : Nat) (h : k < bs.length),
    byteFault s .fetch .cs (fetchOffset s k) = none ∧ isDevice s (linear s .cs (fetchOffset s k)) = false ∧
      Memory.read s.mem (physical s (linear s .cs (fetchOffset s k))) = bs[k]

/-! ## Elements -/

/-- Whether a pattern is a zero, a denormal or a normal number (43_lane_arithmetic.md rule R171). -/
def isFinite (v : Dword) : Bool := expField v != 255#8

/-- The exact difference `x` of two finite patterns after denormals-are-zeros, in units of 2^-149
(43_lane_arithmetic.md rules R173, R180). -/
def exactDiff (daz : Bool) (a b : Dword) : Int := valOf (dazOf daz a) - valOf (dazOf daz b)

/-- The largest finite magnitude, `(2^24 - 1) * 2^104`, in units of 2^-149 (43_lane_arithmetic.md rule R171). -/
def maxFinite : Nat := (2 ^ 24 - 1) * 2 ^ 253

/-- The subtraction of one element in every form but embedded rounding: rounding mode and control bits of `MXCSR`
(10_state.md rule R28). -/
def mxSub (s : State) (a b : Dword) : Dword × FpFlags :=
  laneSub (.ofBits (mxRc s.mxcsr)) (mxDaz s.mxcsr) (mxFtz s.mxcsr) (mxUm s.mxcsr) a b

/-- The subtraction of one element under embedded rounding: the mode is `EVEX.RC`, underflow counts as masked, and
whether FTZ flushes when `MXCSR.UM = 0` is a parameter (42_vsubps_evex.md rules R157, R158; U6, log 13). -/
def erSub (s : State) (rc : BitVec 2) (a b : Dword) : Dword × FpFlags :=
  laneSub (.ofBits rc) (mxDaz s.mxcsr) (mxFtz s.mxcsr && (mxUm s.mxcsr || s.cfg.erFlush)) true a b

/-- `F` is the union of the conditions `f j` of the active elements `j` below `KL` (60_exceptions.md rule R200). -/
structure SignalledBy (F : FpFlags) (kl : Nat) (act : Nat → Bool) (f : Fin 16 → FpFlags) : Prop where
  ie : F.ie = true ↔ ∃ j : Fin 16, j.val < kl ∧ act j.val = true ∧ (f j).ie = true
  de : F.de = true ↔ ∃ j : Fin 16, j.val < kl ∧ act j.val = true ∧ (f j).de = true
  oe : F.oe = true ↔ ∃ j : Fin 16, j.val < kl ∧ act j.val = true ∧ (f j).oe = true
  ue : F.ue = true ↔ ∃ j : Fin 16, j.val < kl ∧ act j.val = true ∧ (f j).ue = true
  pe : F.pe = true ↔ ∃ j : Fin 16, j.val < kl ∧ act j.val = true ∧ (f j).pe = true

/-- No active element below `KL` signals an unmasked condition (60_exceptions.md rule R201). -/
abbrev LanesMasked (s : State) (kl : Nat) (act : Nat → Bool) (f : Fin 16 → FpFlags) : Prop :=
  ∀ j : Fin 16, j.val < kl → act j.val = true → AllMasked s (f j)

/-! ## Memory operands -/

/-- The bytes `ks` of an operand can be read: each translates, and none has read side effects
(20_memory.md rules R58, R60). -/
abbrev Accessible (s : State) (seg : SegName) (a : AddrSize) (off : Qword) (ks : List Nat) : Prop :=
  ∀ k ∈ ks, byteFault s .read seg (byteOffset s a off k) = none ∧
    isDevice s (linear s seg (byteOffset s a off k)) = false

/-- The physical address of byte `k` of an operand (20_memory.md rules R54, R60). -/
def bytePhys (s : State) (seg : SegName) (a : AddrSize) (off : Qword) (k : Nat) : Nat :=
  physical s (linear s seg (byteOffset s a off k))

/-- What reading the bytes `ks` of an operand yields where all can be read: the oracle's answers to the accesses, in
order (20_memory.md rules R57, R58). -/
def readOf (s : State) (seg : SegName) (a : AddrSize) (off : Qword) (ks : List Nat) (atomic : Bool) : Bytes :=
  let evs := readEvents s s.history.length (accesses atomic (ks.map (bytePhys s seg a off)))
  ⟨ks.zip (evs.flatMap ReadEvent.bytes), evs⟩

/-- Whether a broadcast operand is read as one access: it is 4-byte aligned and read at all
(20_memory.md rule R58). -/
def oneAccess (s : State) (seg : SegName) (off : Qword) (ks : List Nat) : Bool :=
  !ks.isEmpty && (linear s seg off).toNat % 4 == 0

/-- The memory operand of an instruction, if it has one: its segment, offset and size in bytes (20_memory.md rules R51,
R52). -/
def operandOf (i : Instr) (s : State) : Option (SegName × Qword × Nat) :=
  let mk := fun (p : List Pfx) (x b : Bool) (n8 n : Nat) (rm : Rm) =>
    match rm with
    | .reg _ => none
    | .mem o => some ((memAddr s p x b n8 (instrLength i) o).1, (memAddr s p x b n8 (instrLength i) o).2, n)
  match i with
  | .subps p _ rm => mk p (rexOf s.mode p).2.1 (rexOf s.mode p).2.2 1 16 rm
  | .vsubps128c5 p _ _ rm => mk p false false 1 16 rm
  | .vsubps128c4 p v _ rm => mk p v.x v.b 1 16 rm
  | .vsubps256c5 p _ _ rm => mk p false false 1 32 rm
  | .vsubps256c4 p v _ rm => mk p v.x v.b 1 32 rm
  | .vsubpsEvex128 p e bc _ rm => mk p e.x e.b (if bc then 4 else 16) (if bc then 4 else 16) rm
  | .vsubpsEvex256 p e bc _ rm => mk p e.x e.b (if bc then 4 else 32) (if bc then 4 else 32) rm
  | .vsubpsEvex512 p e bc _ rm => mk p e.x e.b (if bc then 4 else 64) (if bc then 4 else 64) rm
  | .vsubpsEvex512er .. => none

/-- The bytes of its memory operand that an instruction accesses: all of them, but with `FAULT_SUPPRESSION` only those
that an active element of an EVEX form needs (20_memory.md rule R51, 42_vsubps_evex.md rule R160). -/
def accessedOf (i : Instr) (s : State) : List Nat :=
  let evex := fun (vl : VLen) (e : Evex) (bc : Bool) =>
    if bc then
      if s.cfg.faultSuppression ∧ ∀ j < vlLanes vl, active s e.aaa j = false then [] else [0, 1, 2, 3]
    else (List.range (vlBytes vl)).filter fun k => !s.cfg.faultSuppression || active s e.aaa (k / 4)
  match i with
  | .subps .. | .vsubps128c5 .. | .vsubps128c4 .. => List.range 16
  | .vsubps256c5 .. | .vsubps256c4 .. => List.range 32
  | .vsubpsEvex128 _ e bc _ _ => evex .v128 e bc
  | .vsubpsEvex256 _ e bc _ _ => evex .v256 e bc
  | .vsubpsEvex512 _ e bc _ _ => evex .v512 e bc
  | .vsubpsEvex512er .. => []

/-- Whether the form asks for an aligned memory operand: the legacy form alone (20_memory.md rule R54). -/
def needsAligned : Instr → Bool
  | .subps .. => true
  | .vsubps128c5 .. | .vsubps128c4 .. | .vsubps256c5 .. | .vsubps256c4 .. => false
  | .vsubpsEvex128 .. | .vsubpsEvex256 .. | .vsubpsEvex512 .. | .vsubpsEvex512er .. => false

/-- The instruction goes on to its operation, and its memory operand has `n` bytes at `off` in `seg`, aligned where
the form asks for it: what stands before `Translate` (60_exceptions.md rule R215). -/
abbrev ReadsAt (i : Instr) (s : State) (seg : SegName) (off : Qword) (n : Nat) : Prop :=
  Ready (udOf i s) s ∧ operandOf i s = some (seg, off, n) ∧
    (needsAligned i = true → (linear s seg off).toNat % 16 = 0)

/-- The offset of byte `k` of an instruction's operand at `off` (20_memory.md rule R52). -/
abbrev offsetOf (i : Instr) (s : State) (off : Qword) (k : Nat) : Qword :=
  byteOffset s (addrSize s.mode (prefixesOf i)) off k

/-- An offset passes the segment checks: in 64-bit mode its linear address is canonical, elsewhere the segment is
usable and the offset within its limit (20_memory.md rule R60(a), (b); the limit as log 27 reads it). -/
abbrev InSegment (s : State) (seg : SegName) (off : Qword) : Prop :=
  if s.mode = .mode64 then canonical (linear s seg off) = true
  else (s.seg seg).usable = true ∧ off ≤ (s.seg seg).limit.setWidth 64

/-- The segment-override prefixes that count in a mode, with the segment each names (30_encoding.md rule R85). -/
def overridePfxs (m : Mode) : List (Pfx × SegName) :=
  if m = .mode64 then [(.segFs, .fs), (.segGs, .gs)]
  else [(.segCs, .cs), (.segSs, .ss), (.segDs, .ds), (.segEs, .es), (.segFs, .fs), (.segGs, .gs)]

/-- `sel` is the segment that the prefixes `p` override with, if they do: the last that counts names it
(30_encoding.md rule R85). -/
def OverriddenBy (m : Mode) (p : List Pfx) (sel : Option SegName) : Prop :=
  match sel with
  | none => ∀ g ∈ overridePfxs m, g.1 ∉ p
  | some seg => ∃ (before after : List Pfx) (g : Pfx), (g, seg) ∈ overridePfxs m ∧ p = before ++ g :: after ∧
      ∀ h ∈ overridePfxs m, h.1 ∉ after

/-! ## Frames -/

/-- The destination entry of an instruction (30_encoding.md rules R83, R91). -/
def destOf : Instr → State → BitVec 5
  | .subps p reg _, s => low16 (regNum s.mode (rexOf s.mode p).1 reg)
  | .vsubps128c5 _ v reg _, s => low16 (regNum s.mode v.r reg)
  | .vsubps128c4 _ v reg _, s => low16 (regNum s.mode v.r reg)
  | .vsubps256c5 _ v reg _, s => low16 (regNum s.mode v.r reg)
  | .vsubps256c4 _ v reg _, s => low16 (regNum s.mode v.r reg)
  | .vsubpsEvex128 _ e _ reg _, s => regNum5 s.mode e.rp e.r reg
  | .vsubpsEvex256 _ e _ reg _, s => regNum5 s.mode e.rp e.r reg
  | .vsubpsEvex512 _ e _ reg _, s => regNum5 s.mode e.rp e.r reg
  | .vsubpsEvex512er _ e _ reg _, s => regNum5 s.mode e.rp e.r reg

/-- What no form writes (10_state.md rule R34), from `s` to `t`, where `d` is the destination entry: every other
vector register, every opmask and general register, the segment and control registers, EFLAGS, the mode and level,
`MXCSR[31:6]` and the flag ZE, every byte of memory, and the model's own parameters, oracle and count of faults. -/
structure Frame (d : BitVec 5) (s t : State) : Prop where
  zmm : ∀ n : BitVec 5, n ≠ d → t.readZmm n = s.readZmm n
  k : ∀ n : BitVec 3, t.readK n = s.readK n
  gpr : ∀ n : BitVec 4, t.readGpr n = s.readGpr n
  mxControl : t.mxcsr.extractLsb' 6 26 = s.mxcsr.extractLsb' 6 26
  mxZe : t.mxcsr.getLsbD 2 = s.mxcsr.getLsbD 2
  mem : ∀ a : Nat, Memory.read t.mem a = Memory.read s.mem a
  eflags : t.eflags = s.eflags
  cr0 : t.cr0 = s.cr0
  cr2 : t.cr2 = s.cr2
  cr4 : t.cr4 = s.cr4
  xcr0 : t.xcr0 = s.xcr0
  segs : t.segs = s.segs
  fsBase : t.fsBase = s.fsBase
  gsBase : t.gsBase = s.gsBase
  mode : t.mode = s.mode
  cpl : t.cpl = s.cpl
  cfg : t.cfg = s.cfg
  regions : t.regions = s.regions
  oracle : t.oracle = s.oracle
  faults : t.faults = s.faults

/-- What a step that completes with conditions `F` leaves, beside the destination: the frame, `MXCSR` with the flags
of `F` set (60_exceptions.md rule R201), the pc past the instruction (10_state.md rule R31), and the reads of the
operand in the history (20_memory.md rule R57). -/
structure Completed (d : BitVec 5) (f : FpFlags) (evs : List ReadEvent) (ilen : Nat) (s t : State) : Prop where
  frame : Frame d s t
  mxcsr : t.mxcsr = s.mxcsr ||| flagBits f
  pc : t.pc = nextPc s ilen
  history : t.history = s.history ++ evs

/-- An execution answers a next state: the conditions it signals are those of its active elements, the destination
entry holds `v` element by element, and all else is as `Completed` says. -/
def Yields (o : Host.Outcome State Fault Refusal) (s : State) (d : BitVec 5) (kl : Nat) (act : Nat → Bool)
    (f : Fin 16 → FpFlags) (v : Fin 16 → Dword) (evs : List ReadEvent) (ilen : Nat) : Prop :=
  ∃ t F, o = .next t ∧ SignalledBy F kl act f ∧ (∀ j : Fin 16, (t.readZmm d)[j] = v j) ∧
    Completed d F evs ilen s t

/-- The execution of a form without a writemask on sources `a` and `b`: where no element signals an unmasked
condition it completes, each of the low `KL` elements of `d` receives the difference, and each other element `up j`
(rules R130, R140, R141, R201). -/
def Subtracts (o : Host.Outcome State Fault Refusal) (s : State) (d : BitVec 5) (kl : Nat) (a b : Lanes)
    (up : Fin 16 → Dword) (evs : List ReadEvent) (ilen : Nat) : Prop :=
  LanesMasked s kl (fun _ => true) (fun j => (mxSub s a[j] b[j]).2) →
    Yields o s d kl (fun _ => true) (fun j => (mxSub s a[j] b[j]).2)
      (fun j => if j.val < kl then (mxSub s a[j] b[j]).1 else up j) evs ilen

/-- The execution of an EVEX form without embedded rounding on sources `a` and `b`: as `Subtracts`, for its active
elements; an element that is not active keeps its old value, or is zero under zeroing-masking, and the elements from
`KL` on are zero (42_vsubps_evex.md rules R155, R156, R159). -/
def MaskedSubtracts (o : Host.Outcome State Fault Refusal) (s : State) (e : Evex) (d : BitVec 5) (kl : Nat)
    (a b : Lanes) (evs : List ReadEvent) (ilen : Nat) : Prop :=
  LanesMasked s kl (active s e.aaa) (fun j => (mxSub s a[j] b[j]).2) →
    Yields o s d kl (active s e.aaa) (fun j => (mxSub s a[j] b[j]).2)
      (fun j =>
        if j.val < kl then
          if active s e.aaa j.val then (mxSub s a[j] b[j]).1
          else if e.z then 0#32 else (s.readZmm d)[j]
        else 0#32) evs ilen

/-- The execution ends in the exception of an unmasked numeric condition (60_exceptions.md rules R202, R203): `#XM` or
`#UD` by `CR4.OSXMMEXCPT`, with flags `G` set, some of the signalled conditions `F` and among them an unmasked one, and
nothing else changed but the model's count of faults. -/
def NumericFault (o : Host.Outcome State Fault Refusal) (s : State) (kl : Nat) (act : Nat → Bool)
    (f : Fin 16 → FpFlags) : Prop :=
  ∃ F G : FpFlags, SignalledBy F kl act f ∧ G.inter F = G ∧ G.inter (unmasked s.mxcsr F) ≠ FpFlags.none ∧
    o = .fault ((if s.cr4.getLsbD 10 then Fault.xm else Fault.ud)
      { s with mxcsr := s.mxcsr ||| flagBits G, faults := s.faults + 1 })

/-- As `Subtracts`, and where an element signals an unmasked condition as `NumericFault` (60_exceptions.md rules R201 to
R203). -/
def SubtractsOrFaults (o : Host.Outcome State Fault Refusal) (s : State) (d : BitVec 5) (kl : Nat) (a b : Lanes)
    (up : Fin 16 → Dword) (evs : List ReadEvent) (ilen : Nat) : Prop :=
  let f := fun j : Fin 16 => (mxSub s a[j] b[j]).2
  Subtracts o s d kl a b up evs ilen ∧
    (¬ LanesMasked s kl (fun _ => true) f → NumericFault o s kl (fun _ => true) f)

/-- As `MaskedSubtracts`, and where an active element signals an unmasked condition as `NumericFault`. -/
def MaskedSubtractsOrFaults (o : Host.Outcome State Fault Refusal) (s : State) (e : Evex) (d : BitVec 5) (kl : Nat)
    (a b : Lanes) (evs : List ReadEvent) (ilen : Nat) : Prop :=
  let f := fun j : Fin 16 => (mxSub s a[j] b[j]).2
  MaskedSubtracts o s e d kl a b evs ilen ∧
    (¬ LanesMasked s kl (active s e.aaa) f → NumericFault o s kl (active s e.aaa) f)

/-- A fault with the state it carries changed. -/
def Fault.onState (g : State → State) : Fault → Fault
  | .ud s => .ud (g s)
  | .nm s => .nm (g s)
  | .ss s => .ss (g s)
  | .gp s => .gp (g s)
  | .pf c s => .pf c (g s)
  | .ac s => .ac (g s)
  | .xm s => .xm (g s)

/-- An outcome with the state it ends in changed: the same kind of outcome, for the same reason. -/
def onState (g : State → State) (o : Host.Outcome State Fault Refusal) : Host.Outcome State Fault Refusal :=
  match o with
  | .next t => .next (g t)
  | .fault e => .fault (e.onState g)
  | .refused r => .refused r

/-- The state an outcome ends in: the next state, or the state a fault carries. -/
def endState (o : Host.Outcome State Fault Refusal) : Option State :=
  match o with
  | .next t => some t
  | .fault e => some e.after
  | .refused _ => none

/-- `#AC(0)` may be raised for an operand of `n` bytes at `off`: alignment checking is in force for vector operands, and
the linear address is no multiple of `n` (60_exceptions.md rule R214). -/
abbrev Misaligned (s : State) (seg : SegName) (off : Qword) (n : Nat) : Prop :=
  s.cfg.acOnVector = true ∧ s.cr0.getLsbD 18 = true ∧ s.eflags.getLsbD 18 = true ∧ s.cpl = 3#2 ∧
    (linear s seg off).toNat % n ≠ 0

/-- The free value decides between `#AC(0)` and what `done` says of the execution (20_memory.md rule R55). -/
def TrapsOr (o : Host.Outcome State Fault Refusal) (s : State) (done : Prop) : Prop :=
  if Config.freeTrap (s.history.length + s.faults) = true then o = .fault (.ac { s with faults := s.faults + 1 })
  else done

/-- An outcome with the pc of a next state moved past an instruction of another length. -/
def afterLength (s : State) (ilen : Nat) (o : Host.Outcome State Fault Refusal) :
    Host.Outcome State Fault Refusal :=
  match o with
  | .next t => .next { t with pc := nextPc s ilen }
  | .fault e => .fault e
  | .refused r => .refused r

/-! ## Invariant -/

/-- What holds of every state that a run reaches: bits of a vector register from `MAX_VL` on, entries from 16 on
without AVX512F, and bits of an opmask register from `KW` on do not exist and are 0 (10_state.md rules R20, R21,
R24); `MXCSR[31:16]` is 0 (rule R26); memory has its canonical form; outside 64-bit mode the pc has 32 bits
(rule R31). -/
structure Inv (s : State) : Prop where
  zmmWidth : ∀ (n : BitVec 5) (j : Fin 16), vlLanes s.cfg.maxVl ≤ j.val → (s.readZmm n)[j] = 0#32
  zmmCount : s.cfg.avx512f = false → ∀ (n : BitVec 5) (j : Fin 16), 16 ≤ n.toNat → (s.readZmm n)[j] = 0#32
  kWidth : s.cfg.kw = .w16 → ∀ n : BitVec 3, (s.readK n).extractLsb' 16 48 = 0#48
  mxReserved : mxReserved s.mxcsr = 0#16
  memory : Memory.wf s.mem
  pcWidth : s.mode ≠ .mode64 → s.pc.extractLsb' 32 32 = 0#32

/-! ## Safe runs -/

/-- A run of `k` steps from `s` that ends in no fault and no refusal. -/
def SafeRun (k : Nat) (s : State) : Prop := ∃ t, Sys2Proof.core.run k s = .next t

end Sys2Proof.Machine
end

