-- ==== Sys2Proof/Certificates/Slice0/Obligations.lean ====
section
/-! DEFINITION. The statements for the provers. "The model's choice" marks what a log entry, not a rule, decides. -/

open Sys2Proof Sys2Proof.Machine

/-! ## Encoding, decoding and the step -/

/-- Every operand value that an encoding admits survives encoding and decoding, in every mode and whatever bytes
follow (30_encoding.md rules R84 to R103). -/
def Obligations.DecodeEncode : Prop :=
  ∀ (m : Mode) (i : Instr) (rest : List Byte), wellFormed m i = true →
    decode m (encode i ++ rest) = .instr i rest

/-- The decoder takes an instruction only from its own encoding, and only well-shaped ones
(30_encoding.md rule R110). -/
def Obligations.DecodeExact : Prop :=
  ∀ (m : Mode) (bs : List Byte) (i : Instr) (rest : List Byte), decode m bs = .instr i rest →
    encode i ++ rest = bs ∧ wellShaped m i = true

/-- A step runs the instruction that the fetched bytes decode to, and does nothing around it (00_scope.md rule
R15). -/
def Obligations.StepRunsDecoded : Prop :=
  ∀ (s : State) (i : Instr) (rest : List Byte), decode s.mode (fetch s).1 = .instr i rest →
    wellFormed s.mode i = true → step s = exec i s

/-- Where the encoding of a well-formed instruction stands at the program counter, a step runs that instruction,
whatever stands after it, readable or not; and where a byte that the instruction needs cannot be fetched, the step ends
in that byte's fault: `#GP(0)` outside CS, else `#PF` with bit 4 of its code set and CR2 at the byte; in device memory
it is refused (20_memory.md rules R60, R65, 60_exceptions.md rules R213, R215(1); bits 31:5 of the code and what an
absent page reports are the model's choice, log 6, and so is the refusal, log 20). -/
def Obligations.StepRunsEncoded : Prop :=
  (∀ (s : State) (i : Instr), wellFormed s.mode i = true → Holds s (encode i) → step s = exec i s) ∧
  ∀ (s : State) (i : Instr) (k : Nat), s.mode ≠ .realAddress → wellShaped s.mode i = true → k < instrLength i →
    k < 15 → Holds s ((encode i).take k) →
    let off := fetchOffset s k
    let lin := linear s .cs off
    (¬ InSegment s .cs off → step s = .fault (.gp { s with faults := s.faults + 1 })) ∧
    (InSegment s .cs off → pageFault s .fetch lin ≠ none →
      ∃ (r : Region) (code : Dword), regionOf s lin = some r ∧
        (r.present = false ∨ r.reserved = true ∨ r.readable.getLsbD s.cpl.toNat = false) ∧
        code.getLsbD 0 = r.present ∧ code.getLsbD 1 = false ∧ (code.getLsbD 2 = true ↔ s.cpl = 3#2) ∧
        code.getLsbD 3 = (r.present && r.reserved) ∧ code.getLsbD 4 = true ∧ code.extractLsb' 5 27 = 0#27 ∧
        step s = .fault (.pf code { s with cr2 := lin, faults := s.faults + 1 })) ∧
    (InSegment s .cs off → pageFault s .fetch lin = none → isDevice s lin = true → step s = .refused .deviceMemory)

/-- Words written out from the encodings decode to the instructions they stand for (30_encoding.md rules R84, R95,
R96, R99). -/
def Obligations.SampleWordsDecode : Prop :=
  decode .mode64 [0x0F, 0x5C, 0xC1] = .instr (.subps [] 0 (.reg 1)) [] ∧
  decode .mode64 [0xC5, 0xFC, 0x5C, 0xD1] = .instr (.vsubps256c5 [] ⟨false, 0⟩ 2 (.reg 1)) [] ∧
  decode .mode64 [0xC4, 0xE1, 0xE8, 0x5C, 0xDA] =
    .instr (.vsubps128c4 [] ⟨false, false, false, true, 2⟩ 3 (.reg 2)) [] ∧
  decode .mode64 [0x62, 0xF1, 0x74, 0x78, 0x5C, 0xC2] =
    .instr (.vsubpsEvex512er [] ⟨false, false, false, false, false, false, 1, 0⟩ 3 0 2) []

/-- A mandatory prefix, or `pp` not 00 in a VEX or EVEX prefix, makes another instruction, which a step refuses
(30_encoding.md rule R104). -/
def Obligations.NeighboursRefused : Prop :=
  (∀ (m : Mode) (p : List Pfx) (rest : List Byte), p.all (wfPfx m) = true →
    (.opSize ∈ p ∨ .repne ∈ p ∨ .rep ∈ p) →
    decode m (p.map encodePfx ++ [0x0F#8, 0x5C#8] ++ rest) = .rejected .otherInstruction) ∧
  (∀ (m : Mode) (p : List Pfx) (b : Byte) (rest : List Byte), p.all (wfPfx m) = true → badVexPfx p = false →
    (m = .mode64 ∨ b.extractLsb' 6 2 = 3#2) → b.extractLsb' 0 2 ≠ 0#2 →
    decode m (p.map encodePfx ++ [0xC5#8, b, 0x5C#8] ++ rest) = .rejected .otherInstruction) ∧
  (∀ (m : Mode) (p : List Pfx) (b c : Byte) (rest : List Byte), p.all (wfPfx m) = true → badVexPfx p = false →
    (m = .mode64 ∨ b.extractLsb' 6 2 = 3#2) → b.extractLsb' 0 5 = 1#5 → c.extractLsb' 0 2 ≠ 0#2 →
    decode m (p.map encodePfx ++ [0xC4#8, b, c, 0x5C#8] ++ rest) = .rejected .otherInstruction) ∧
  (∀ (m : Mode) (p : List Pfx) (p0 p1 p2 : Byte) (rest : List Byte), p.all (wfPfx m) = true →
    badVexPfx p = false → (m = .mode64 ∨ p0.extractLsb' 6 2 = 3#2) → p0.extractLsb' 0 4 = 1#4 →
    p1.getLsbD 2 = true → p1.extractLsb' 0 2 ≠ 0#2 →
    decode m (p.map encodePfx ++ [0x62#8, p0, p1, p2, 0x5C#8] ++ rest) = .rejected .otherInstruction) ∧
  (∀ (s : State) (r : Reject), decode s.mode (fetch s).1 = .rejected r → step s = .refused (.notAForm r))

/-- In any mode an EVEX encoding of the opcode with a wrong fixed bit, with `W = 1`, or with `L'L = 11` and no embedded
rounding is invalid (outside 64-bit mode, where it is EVEX at all and no bit of U7 is stored as 0); so is a VEX prefix
with a reserved opcode map; and an invalid encoding ends the step in `#UD` (30_encoding.md rules R98(c), R105(c), R108(a), (b); 60_exceptions.md rule R217; that
`MXCSR[31:16]` not 0 is refused first is the model's choice, log 18). Outside 64-bit mode a three-byte VEX or an EVEX
encoding of the opcode with a register-extension bit of U7 stored as 0 is refused in 32-bit mode, whatever else is wrong
with it (log 15), and invalid in real-address mode (rules R98(b), R105(b), R205, R240; log 16). -/
def Obligations.ReservedEncodingsInvalid : Prop :=
  (∀ (m : Mode) (p : List Pfx) (p0 p1 p2 : Byte) (reg : BitVec 3) (rm : Rm) (bs rest : List Byte),
    p.all (wfPfx m) = true →
    (m = .mode64 ∨ (p0.extractLsb' 6 2 = 3#2 ∧ p0.getLsbD 5 = true ∧ p0.getLsbD 4 = true ∧ p1.getLsbD 6 = true ∧
      p2.getLsbD 3 = true)) →
    p0.extractLsb' 0 2 = 1#2 → p1.extractLsb' 0 2 = 0#2 →
    readModRm (addrSize m p) bs = some (reg, rm, rest) →
    (p0.extractLsb' 2 2 ≠ 0#2 ∨ p1.getLsbD 2 = false ∨ p1.getLsbD 7 = true ∨
      (p2.extractLsb' 5 2 = 3#2 ∧ (p2.getLsbD 4 = false ∨ ∃ o, rm = .mem o))) →
    decode m (p.map encodePfx ++ [0x62#8, p0, p1, p2, 0x5C#8] ++ bs) = .invalid) ∧
  (∀ (m : Mode) (p : List Pfx) (b c op : Byte) (rest : List Byte), p.all (wfPfx m) = true →
    (m = .mode64 ∨ b.extractLsb' 6 2 = 3#2) → b.extractLsb' 0 5 ≠ 1#5 → b.extractLsb' 0 5 ≠ 2#5 →
    b.extractLsb' 0 5 ≠ 3#5 → decode m (p.map encodePfx ++ [0xC4#8, b, c, op] ++ rest) = .invalid) ∧
  (∀ (m : Mode) (p : List Pfx) (b c : Byte) (rest : List Byte), m ≠ .mode64 → p.all (wfPfx m) = true →
    b.extractLsb' 6 2 = 3#2 → b.extractLsb' 0 5 = 1#5 → c.extractLsb' 0 2 = 0#2 → c.getLsbD 6 = false →
    decode m (p.map encodePfx ++ [0xC4#8, b, c, 0x5C#8] ++ rest) =
      if m = .protected32 then .rejected .uncertain32 else .invalid) ∧
  (∀ (m : Mode) (p : List Pfx) (p0 p1 p2 : Byte) (rest : List Byte), m ≠ .mode64 → p.all (wfPfx m) = true →
    p0.extractLsb' 6 2 = 3#2 → p0.extractLsb' 0 2 = 1#2 → p1.extractLsb' 0 2 = 0#2 →
    (p0.getLsbD 5 = false ∨ p0.getLsbD 4 = false ∨ p1.getLsbD 6 = false ∨ p2.getLsbD 3 = false) →
    decode m (p.map encodePfx ++ [0x62#8, p0, p1, p2, 0x5C#8] ++ rest) =
      if m = .protected32 then .rejected .uncertain32 else .invalid) ∧
  (∀ s : State, decode s.mode (fetch s).1 = .invalid → mxReserved s.mxcsr = 0#16 →
    step s = .fault (.ud { s with faults := s.faults + 1 }))

/-- An encoding longer than 15 bytes raises `#GP(0)` (30_encoding.md rule R80). -/
def Obligations.LengthLimit : Prop :=
  ∀ (s : State) (i : Instr), s.mode ≠ .realAddress → wellShaped s.mode i = true → 15 < instrLength i →
    Holds s ((encode i).take 15) → step s = .fault (.gp { s with faults := s.faults + 1 })

/-- Extension bits count in 64-bit mode only, the register number's most significant bit first; elsewhere each reads as
0, the top bit of `vvvv` and `V'` among them; REX counts only where it stands last (30_encoding.md rules R86, R91,
R98(b), R105(b); that a term with such a bit set reads so is the model's choice, log 28). -/
def Obligations.RegisterNumbers : Prop :=
  (∀ (x y : Bool) (n : BitVec 3), (regNum .mode64 x n).toNat = 8 * x.toNat + n.toNat ∧
    (regNum5 .mode64 y x n).toNat = 16 * y.toNat + 8 * x.toNat + n.toNat) ∧
  (∀ (y : Bool) (v : BitVec 4), vvvvNum .mode64 v = v ∧
    (vvvvNum5 .mode64 y v).toNat = 16 * y.toNat + v.toNat) ∧
  (∀ (x y : Bool) (n : BitVec 3), (regNum .protected32 x n).toNat = n.toNat ∧
    (regNum5 .protected32 y x n).toNat = n.toNat) ∧
  (∀ (y : Bool) (v : BitVec 4), (vvvvNum .protected32 v).toNat = v.toNat % 8 ∧
    (vvvvNum5 .protected32 y v).toNat = v.toNat % 8) ∧
  (∀ (p : List Pfx) (w r x b : Bool), rexOf .mode64 (p ++ [.rex w r x b]) = (r, x, b) ∧
    rexOf .protected32 (p ++ [.rex w r x b]) = (false, false, false)) ∧
  (∀ (p : List Pfx), endsInRex p = false → rexOf .mode64 p = (false, false, false))

/-! ## The element operation -/

/-- A NaN operand is propagated, quieted, the first operand before the second, its sign and payload kept; IE exactly
when an operand is signalling (43_lane_arithmetic.md rules R175, R176). -/
def Obligations.NanPropagation : Prop :=
  ∀ (rm : Rounding) (daz ftz um : Bool) (a b : Dword),
    (isNan a = true → laneSub rm daz ftz um a b =
      (a ||| 0x00400000#32, { FpFlags.none with ie := cls a == .snan || cls b == .snan })) ∧
    (isNan a = false → isNan b = true → laneSub rm daz ftz um a b =
      (b ||| 0x00400000#32, { FpFlags.none with ie := cls b == .snan }))

/-- Infinite operands (43_lane_arithmetic.md rules R177, R178): infinities of the same sign give the default NaN and
IE alone; any other infinite operand gives the infinity, exactly, and DE when the other operand is a denormal and DAZ
is 0. -/
def Obligations.InfiniteOperands : Prop :=
  ∀ (rm : Rounding) (daz ftz um : Bool) (a b : Dword),
    (cls a = .inf → cls b = .inf → signBit a = signBit b →
      laneSub rm daz ftz um a b = (0xFFC00000#32, { FpFlags.none with ie := true })) ∧
    (isNan a = false → isNan b = false → ¬ (cls a = .inf ∧ cls b = .inf ∧ signBit a = signBit b) →
      (cls a = .inf → laneSub rm daz ftz um a b =
        (a, { FpFlags.none with de := !daz && cls b == .denormal })) ∧
      (cls a ≠ .inf → cls b = .inf → laneSub rm daz ftz um a b =
        (b ^^^ 0x80000000#32, { FpFlags.none with de := !daz && cls a == .denormal })))

/-- An exact zero difference: zeros of opposite sign give the first operand's zero, all else `+0`, or `-0` when
rounding down; no OE, UE or PE (43_lane_arithmetic.md rule R179). -/
def Obligations.ExactZero : Prop :=
  ∀ (rm : Rounding) (daz ftz um : Bool) (a b : Dword), isFinite a = true → isFinite b = true →
    exactDiff daz a b = 0 →
    (laneSub rm daz ftz um a b).1 =
      (if cls (dazOf daz a) = .zero ∧ cls (dazOf daz b) = .zero ∧ signBit a ≠ signBit b then
        (if signBit a then 0x80000000#32 else 0x00000000#32)
      else if rm = .down then 0x80000000#32 else 0x00000000#32) ∧
    (laneSub rm daz ftz um a b).2.oe = false ∧ (laneSub rm daz ftz um a b).2.ue = false ∧
    (laneSub rm daz ftz um a b).2.pe = false

/-- DE is signalled exactly when DAZ is 0, no operand is a NaN, the case is not infinity minus infinity, and an
operand is a denormal (43_lane_arithmetic.md rule R185). -/
def Obligations.DenormalOperand : Prop :=
  ∀ (rm : Rounding) (daz ftz um : Bool) (a b : Dword),
    (laneSub rm daz ftz um a b).2.de = true ↔
      daz = false ∧ isNan a = false ∧ isNan b = false ∧
        ¬ (cls a = .inf ∧ cls b = .inf ∧ signBit a = signBit b) ∧ (cls a = .denormal ∨ cls b = .denormal)

/-- The sets of conditions that one element can signal (43_lane_arithmetic.md rule R186): IE alone; OE and UE never
together; OE only with PE; UE with PE only under FTZ with UM 1, and UE without PE only with UM 0. -/
def Obligations.FlagSets : Prop :=
  ∀ (rm : Rounding) (daz ftz um : Bool) (a b : Dword),
    ((laneSub rm daz ftz um a b).2.ie = true →
      (laneSub rm daz ftz um a b).2 = { FpFlags.none with ie := true }) ∧
    ((laneSub rm daz ftz um a b).2.oe = true →
      (laneSub rm daz ftz um a b).2.ue = false ∧ (laneSub rm daz ftz um a b).2.pe = true) ∧
    ((laneSub rm daz ftz um a b).2.ue = true →
      ((laneSub rm daz ftz um a b).2.pe = true ∧ ftz = true ∧ um = true) ∨
        ((laneSub rm daz ftz um a b).2.pe = false ∧ um = false))

/-- Tiny results (43_lane_arithmetic.md rules R183, R184): with UM 1 and FTZ 0 the exact denormal and no UE or PE;
with UM 1 and FTZ 1 the zero of the difference's sign, with UE and PE; with UM 0 the exact denormal, with UE and
without PE. -/
def Obligations.TinyResults : Prop :=
  ∀ (rm : Rounding) (daz ftz um : Bool) (a b : Dword), isFinite a = true → isFinite b = true →
    exactDiff daz a b ≠ 0 → (exactDiff daz a b).natAbs < 2 ^ 23 →
    (laneSub rm daz ftz um a b).2.oe = false ∧
    (um = true → ftz = true →
      (laneSub rm daz ftz um a b).1 = (if exactDiff daz a b < 0 then 0x80000000#32 else 0x00000000#32) ∧
      (laneSub rm daz ftz um a b).2.ue = true ∧ (laneSub rm daz ftz um a b).2.pe = true) ∧
    (¬ (um = true ∧ ftz = true) →
      cls (laneSub rm daz ftz um a b).1 = .denormal ∧
      valOf (laneSub rm daz ftz um a b).1 = exactDiff daz a b ∧
      (laneSub rm daz ftz um a b).2.ue = !um ∧ (laneSub rm daz ftz um a b).2.pe = false)

/-- PE is signalled exactly when the result of finite operands is not the exact difference
(43_lane_arithmetic.md rule R181). -/
def Obligations.PrecisionIsInexactness : Prop :=
  ∀ (rm : Rounding) (daz ftz um : Bool) (a b : Dword), isFinite a = true → isFinite b = true →
    ((laneSub rm daz ftz um a b).2.pe = true ↔
      isFinite (laneSub rm daz ftz um a b).1 = false ∨
        valOf (laneSub rm daz ftz um a b).1 ≠ exactDiff daz a b)

/-- When the difference of finite operands overflows, mode by mode, and the result then (43_lane_arithmetic.md rule
R182): to nearest from half a unit above the largest finite number on, truncating and toward the nearer side of zero
from 2^128 on, away from zero above the largest finite number. -/
def Obligations.OverflowExactly : Prop :=
  ∀ (rm : Rounding) (daz ftz um : Bool) (a b : Dword), isFinite a = true → isFinite b = true →
    let x := exactDiff daz a b
    let r := laneSub rm daz ftz um a b
    (r.2.oe = true ↔
      match rm with
      | .nearest => maxFinite + 2 ^ 252 ≤ x.natAbs
      | .truncate => 2 ^ 277 ≤ x.natAbs
      | .down => if x < 0 then maxFinite < x.natAbs else 2 ^ 277 ≤ x.natAbs
      | .up => if x < 0 then 2 ^ 277 ≤ x.natAbs else maxFinite < x.natAbs) ∧
    (r.2.oe = true → r.2.pe = true ∧ r.1 =
      match rm with
      | .nearest => if x < 0 then 0xFF800000#32 else 0x7F800000#32
      | .truncate => if x < 0 then 0xFF7FFFFF#32 else 0x7F7FFFFF#32
      | .down => if x < 0 then 0xFF800000#32 else 0x7F7FFFFF#32
      | .up => if x < 0 then 0xFF7FFFFF#32 else 0x7F800000#32)

/-- Round to nearest is nearest: where a difference neither overflows nor is flushed, no finite pattern is nearer to
it than the result, and a different value as near only if the result's last bit is 0 (43_lane_arithmetic.md rules
R180, R188(d)). -/
def Obligations.NearestIsNearest : Prop :=
  ∀ (daz ftz um : Bool) (a b : Dword), isFinite a = true → isFinite b = true →
    let x := exactDiff daz a b
    let r := laneSub (.ofBits 0b00#2) daz ftz um a b
    r.2.oe = false → ¬ (r.2.ue = true ∧ r.2.pe = true) →
    isFinite r.1 = true ∧ ∀ v : Dword, isFinite v = true →
      (valOf r.1 - x).natAbs ≤ (valOf v - x).natAbs ∧
      ((valOf r.1 - x).natAbs = (valOf v - x).natAbs → valOf v ≠ valOf r.1 → r.1.getLsbD 0 = false)

/-- Directed rounding is tightest: where a difference neither overflows nor is flushed, rounding down gives the
greatest finite value not above it, rounding up the least not below it, and truncation the one of greatest magnitude
not beyond it (43_lane_arithmetic.md rules R172, R180). -/
def Obligations.DirectedIsTightest : Prop :=
  ∀ (rc : BitVec 2) (daz ftz um : Bool) (a b : Dword), isFinite a = true → isFinite b = true →
    let x := exactDiff daz a b
    let r := laneSub (.ofBits rc) daz ftz um a b
    r.2.oe = false → ¬ (r.2.ue = true ∧ r.2.pe = true) →
    isFinite r.1 = true ∧
    (rc = 0b01#2 → valOf r.1 ≤ x ∧ ∀ v : Dword, isFinite v = true → valOf v ≤ x → valOf v ≤ valOf r.1) ∧
    (rc = 0b10#2 → x ≤ valOf r.1 ∧ ∀ v : Dword, isFinite v = true → x ≤ valOf v → valOf r.1 ≤ valOf v) ∧
    (rc = 0b11#2 → (0 ≤ x → 0 ≤ valOf r.1 ∧ valOf r.1 ≤ x) ∧ (x ≤ 0 → x ≤ valOf r.1 ∧ valOf r.1 ≤ 0) ∧
      ∀ v : Dword, isFinite v = true → (0 ≤ x → valOf v ≤ x → valOf v ≤ valOf r.1) ∧
        (x ≤ 0 → x ≤ valOf v → valOf r.1 ≤ valOf v))

/-- The difference of two positive finite numbers, as DAZ leaves them, within a factor of 2 of each other is exact, FTZ
being 0 (43_lane_arithmetic.md rules R173, R188(c); with FTZ 1 a tiny difference is flushed, rule R183). -/
def Obligations.NearbyIsExact : Prop :=
  ∀ (rm : Rounding) (daz um : Bool) (a b : Dword), isFinite a = true → isFinite b = true →
    let x := valOf (dazOf daz a)
    let y := valOf (dazOf daz b)
    0 < x → 0 < y → x ≤ 2 * y → y ≤ 2 * x →
    (laneSub rm daz false um a b).2.pe = false ∧ valOf (laneSub rm daz false um a b).1 = x - y

/-- Exchanging finite operands of different value changes the sign of the result and no condition, to nearest and
truncating; in the directed modes the other direction answers (43_lane_arithmetic.md rules R180, R188(a)). -/
def Obligations.ExchangeNegates : Prop :=
  ∀ (daz ftz um : Bool) (a b : Dword), isFinite a = true → isFinite b = true → exactDiff daz a b ≠ 0 →
    let neg := fun r : Dword × FpFlags => (r.1 ^^^ 0x80000000#32, r.2)
    laneSub .nearest daz ftz um b a = neg (laneSub .nearest daz ftz um a b) ∧
    laneSub .truncate daz ftz um b a = neg (laneSub .truncate daz ftz um a b) ∧
    laneSub .down daz ftz um b a = neg (laneSub .up daz ftz um a b) ∧
    laneSub .up daz ftz um b a = neg (laneSub .down daz ftz um a b)

/-! ## Results -/

/-- `SUBPS xmm1, xmm2` completes with the element differences in bits 127:0 and the bits above unmodified
(40_subps_legacy_sse.md rules R130, R131). -/
def Obligations.SubpsRegister : Prop :=
  ∀ (p : List Pfx) (reg n : BitVec 3) (s : State), Ready (udOf (.subps p reg (.reg n)) s) s →
    let d := low16 (regNum s.mode (rexOf s.mode p).1 reg)
    Subtracts (exec (.subps p reg (.reg n)) s) s d 4 (s.readZmm d)
      (s.readZmm (low16 (regNum s.mode (rexOf s.mode p).2.2 n))) (fun j => (s.readZmm d)[j]) [] (p.length + 3)

/-- `SUBPS xmm1, m128` completes, from an aligned operand that can be read (40_subps_legacy_sse.md rules R130,
R131; 20_memory.md rule R54). -/
def Obligations.SubpsMemory : Prop :=
  ∀ (p : List Pfx) (reg : BitVec 3) (o : MemOp) (s : State), Ready (udOf (.subps p reg (.mem o)) s) s →
    let d := low16 (regNum s.mode (rexOf s.mode p).1 reg)
    let a := addrSize s.mode p
    let n := instrLength (.subps p reg (.mem o))
    let ad := memAddr s p (rexOf s.mode p).2.1 (rexOf s.mode p).2.2 1 n o
    let m := readOf s ad.1 a ad.2 (List.range 16) false
    (linear s ad.1 ad.2).toNat % 16 = 0 → Accessible s ad.1 a ad.2 (List.range 16) →
    Subtracts (exec (.subps p reg (.mem o)) s) s d 4 (s.readZmm d)
      (Vector.ofFn fun j : Fin 16 => m.dword (4 * j.val)) (fun j => (s.readZmm d)[j]) m.events n

/-- The four VEX spellings complete from registers, with the bits above `VL` zeroed (41_vsubps_vex.md rules R140 to
R142); the two-byte spelling has `B = 0` (30_encoding.md rule R96). -/
def Obligations.VexRegister : Prop :=
  ∀ (p : List Pfx) (v : Vex2) (w : Vex3) (reg n : BitVec 3) (s : State), s.cfg.ok → Ready (udVex p s) s →
    Subtracts (exec (.vsubps128c5 p v reg (.reg n)) s) s (low16 (regNum s.mode v.r reg)) 4
      (s.readZmm (low16 (vvvvNum s.mode v.vvvv))) (s.readZmm (low16 (regNum s.mode false n)))
      (fun _ => 0#32) [] (p.length + 4) ∧
    Subtracts (exec (.vsubps256c5 p v reg (.reg n)) s) s (low16 (regNum s.mode v.r reg)) 8
      (s.readZmm (low16 (vvvvNum s.mode v.vvvv))) (s.readZmm (low16 (regNum s.mode false n)))
      (fun _ => 0#32) [] (p.length + 4) ∧
    Subtracts (exec (.vsubps128c4 p w reg (.reg n)) s) s (low16 (regNum s.mode w.r reg)) 4
      (s.readZmm (low16 (vvvvNum s.mode w.vvvv))) (s.readZmm (low16 (regNum s.mode w.b n)))
      (fun _ => 0#32) [] (p.length + 5) ∧
    Subtracts (exec (.vsubps256c4 p w reg (.reg n)) s) s (low16 (regNum s.mode w.r reg)) 8
      (s.readZmm (low16 (vvvvNum s.mode w.vvvv))) (s.readZmm (low16 (regNum s.mode w.b n)))
      (fun _ => 0#32) [] (p.length + 5)

/-- The four VEX spellings complete from memory of any alignment, 16 bytes for `VL` 128 and 32 for `VL` 256
(41_vsubps_vex.md rules R140 to R142; 20_memory.md rules R51, R54). -/
def Obligations.VexMemory : Prop :=
  ∀ (wide : Bool) (p : List Pfx) (v : Vex2) (w : Vex3) (reg : BitVec 3) (o : MemOp) (s : State), s.cfg.ok →
    Ready (udVex p s) s →
    let a := addrSize s.mode p
    let n := if wide then 32 else 16
    (let i := if wide then Instr.vsubps256c5 p v reg (.mem o) else .vsubps128c5 p v reg (.mem o)
     let ad := memAddr s p false false 1 (instrLength i) o
     let m := readOf s ad.1 a ad.2 (List.range n) false
     Accessible s ad.1 a ad.2 (List.range n) → mayTrapAlign s (linear s ad.1 ad.2) n = false →
     Subtracts (exec i s) s (low16 (regNum s.mode v.r reg)) (n / 4)
       (s.readZmm (low16 (vvvvNum s.mode v.vvvv))) (Vector.ofFn fun j : Fin 16 => m.dword (4 * j.val))
       (fun _ => 0#32) m.events (instrLength i)) ∧
    (let i := if wide then Instr.vsubps256c4 p w reg (.mem o) else .vsubps128c4 p w reg (.mem o)
     let ad := memAddr s p w.x w.b 1 (instrLength i) o
     let m := readOf s ad.1 a ad.2 (List.range n) false
     Accessible s ad.1 a ad.2 (List.range n) → mayTrapAlign s (linear s ad.1 ad.2) n = false →
     Subtracts (exec i s) s (low16 (regNum s.mode w.r reg)) (n / 4)
       (s.readZmm (low16 (vvvvNum s.mode w.vvvv))) (Vector.ofFn fun j : Fin 16 => m.dword (4 * j.val))
       (fun _ => 0#32) m.events (instrLength i))

/-- The three EVEX lengths complete from registers without embedded rounding, under their writemask
(42_vsubps_evex.md rules R150 to R152, R155, R156). -/
def Obligations.EvexRegister : Prop :=
  ∀ (p : List Pfx) (e : Evex) (reg n : BitVec 3) (s : State), s.cfg.ok →
    let d := regNum5 s.mode e.rp e.r reg
    let a := s.readZmm (vvvvNum5 s.mode e.vp e.vvvv)
    let b := s.readZmm (regNum5 s.mode e.x e.b n)
    (Ready (udEvex true p e s) s →
      MaskedSubtracts (exec (.vsubpsEvex128 p e false reg (.reg n)) s) s e d 4 a b [] (p.length + 6)) ∧
    (Ready (udEvex true p e s) s →
      MaskedSubtracts (exec (.vsubpsEvex256 p e false reg (.reg n)) s) s e d 8 a b [] (p.length + 6)) ∧
    (Ready (udEvex false p e s) s →
      MaskedSubtracts (exec (.vsubpsEvex512 p e false reg (.reg n)) s) s e d 16 a b [] (p.length + 6))

/-- The three EVEX lengths complete from a full-width memory operand whose accessed bytes can be read: all of them,
or with `FAULT_SUPPRESSION` those of active elements (42_vsubps_evex.md rules R150 to R152, R155, R156, R160). -/
def Obligations.EvexMemory : Prop :=
  ∀ (vl : VLen) (p : List Pfx) (e : Evex) (reg : BitVec 3) (o : MemOp) (s : State), s.cfg.ok →
    let i := match vl with
      | .v128 => Instr.vsubpsEvex128 p e false reg (.mem o)
      | .v256 => Instr.vsubpsEvex256 p e false reg (.mem o)
      | .v512 => Instr.vsubpsEvex512 p e false reg (.mem o)
    let ad := memAddr s p e.x e.b (vlBytes vl) (instrLength i) o
    let ks := (List.range (vlBytes vl)).filter fun k => !s.cfg.faultSuppression || active s e.aaa (k / 4)
    let m := readOf s ad.1 (addrSize s.mode p) ad.2 ks false
    Ready (udOf i s) s → Accessible s ad.1 (addrSize s.mode p) ad.2 ks →
    mayTrapAlign s (linear s ad.1 ad.2) (vlBytes vl) = false →
    MaskedSubtracts (exec i s) s e (regNum5 s.mode e.rp e.r reg) (vlLanes vl)
      (s.readZmm (vvvvNum5 s.mode e.vp e.vvvv)) (Vector.ofFn fun j : Fin 16 => m.dword (4 * j.val))
      m.events (instrLength i)

/-- The three EVEX lengths complete from a broadcast operand, whose 4 bytes are read once and serve every active
element; with `FAULT_SUPPRESSION` they are read only if an element is active (42_vsubps_evex.md rules R153, R155,
R156, R160; 30_encoding.md rule R103). -/
def Obligations.EvexBroadcast : Prop :=
  ∀ (vl : VLen) (p : List Pfx) (e : Evex) (reg : BitVec 3) (o : MemOp) (s : State), s.cfg.ok →
    let i := match vl with
      | .v128 => Instr.vsubpsEvex128 p e true reg (.mem o)
      | .v256 => Instr.vsubpsEvex256 p e true reg (.mem o)
      | .v512 => Instr.vsubpsEvex512 p e true reg (.mem o)
    let ad := memAddr s p e.x e.b 4 (instrLength i) o
    let ks := if s.cfg.faultSuppression ∧ ∀ j < vlLanes vl, active s e.aaa j = false then []
      else [0, 1, 2, 3]
    let m := readOf s ad.1 (addrSize s.mode p) ad.2 ks (oneAccess s ad.1 ad.2 ks)
    Ready (udOf i s) s → Accessible s ad.1 (addrSize s.mode p) ad.2 ks →
    mayTrapAlign s (linear s ad.1 ad.2) 4 = false →
    MaskedSubtracts (exec i s) s e (regNum5 s.mode e.rp e.r reg) (vlLanes vl)
      (s.readZmm (vvvvNum5 s.mode e.vp e.vvvv)) (Vector.ofFn fun _ : Fin 16 => m.dword 0)
      m.events (instrLength i)

/-- Embedded rounding: the 512-bit register form rounds by `EVEX.RC`, completes whatever the masks of `MXCSR`, and
leaves `MXCSR` unchanged (42_vsubps_evex.md rules R157, R158; 60_exceptions.md rule R204; the flush of a tiny result
when `MXCSR.UM = 0` is the parameter of log 13). -/
def Obligations.EvexRounding : Prop :=
  ∀ (p : List Pfx) (e : Evex) (rc : BitVec 2) (reg n : BitVec 3) (s : State), s.cfg.ok →
    Ready (udEvex false p e s) s →
    let d := regNum5 s.mode e.rp e.r reg
    let a := s.readZmm (vvvvNum5 s.mode e.vp e.vvvv)
    let b := s.readZmm (regNum5 s.mode e.x e.b n)
    ∃ t, exec (.vsubpsEvex512er p e rc reg n) s = .next t ∧ t.mxcsr = s.mxcsr ∧
      (∀ j : Fin 16, (t.readZmm d)[j] =
        if active s e.aaa j.val then (erSub s rc a[j] b[j]).1
        else if e.z then 0#32 else (s.readZmm d)[j]) ∧
      Completed d FpFlags.none [] (p.length + 6) s t

/-- With every element masked off an EVEX form computes nothing: from registers, or from memory with
`FAULT_SUPPRESSION`, it completes whatever the sources and the operand's address, keeps or zeroes the low elements,
zeroes the rest, reads no byte and sets no flag (42_vsubps_evex.md rules R156, R159, R160, R164(a)). That `#AC(0)` is
not raised for an unaligned operand of which no byte is accessed is the model's choice (log 24). -/
def Obligations.AllMaskedOff : Prop :=
  ∀ (vl : VLen) (p : List Pfx) (e : Evex) (bc : Bool) (reg : BitVec 3) (rm : Rm) (s : State), s.cfg.ok →
    let i := match vl with
      | .v128 => Instr.vsubpsEvex128 p e bc reg rm
      | .v256 => Instr.vsubpsEvex256 p e bc reg rm
      | .v512 => Instr.vsubpsEvex512 p e bc reg rm
    let d := regNum5 s.mode e.rp e.r reg
    Ready (udOf i s) s → (∀ j < vlLanes vl, active s e.aaa j = false) →
    ((∃ n, rm = .reg n) ∨ s.cfg.faultSuppression = true) →
    ∃ t, exec i s = .next t ∧ t.mxcsr = s.mxcsr ∧
      (∀ j : Fin 16, (t.readZmm d)[j] =
        if j.val < vlLanes vl then (if e.z then 0#32 else (s.readZmm d)[j]) else 0#32) ∧
      Completed d FpFlags.none [] (instrLength i) s t

/-- Bytes of masked-off elements reach no result: two memories that agree on the bytes of active elements give the
same destination, `MXCSR` and pc, with no other agent answering reads (42_vsubps_evex.md rule R160; 20_memory.md rule
R67). -/
def Obligations.MaskedBytesIrrelevant : Prop :=
  ∀ (vl : VLen) (p : List Pfx) (e : Evex) (reg : BitVec 3) (o : MemOp) (s t : State) (m' : List Host.Cell),
    let i := match vl with
      | .v128 => Instr.vsubpsEvex128 p e false reg (.mem o)
      | .v256 => Instr.vsubpsEvex256 p e false reg (.mem o)
      | .v512 => Instr.vsubpsEvex512 p e false reg (.mem o)
    let ad := memAddr s p e.x e.b (vlBytes vl) (instrLength i) o
    s.oracle = [] →
    (∀ k < vlBytes vl, active s e.aaa (k / 4) = true →
      Memory.read m' (bytePhys s ad.1 (addrSize s.mode p) ad.2 k) =
        Memory.read s.mem (bytePhys s ad.1 (addrSize s.mode p) ad.2 k)) →
    exec i s = .next t →
    ∃ t', exec i { s with mem := m' } = .next t' ∧ t'.zmm = t.zmm ∧ t'.mxcsr = t.mxcsr ∧ t'.pc = t.pc

/-- The bits of the destination above the result: unmodified by the legacy form, zeroed by every VEX and EVEX form,
under either masking (40_subps_legacy_sse.md rule R131, 41_vsubps_vex.md rule R142, 42_vsubps_evex.md rule R156). -/
def Obligations.UpperBits : Prop :=
  ∀ (i : Instr) (s t : State), exec i s = .next t → ∀ j : Fin 16,
    match i with
    | .subps _ _ _ => 4 ≤ j.val → (t.readZmm (destOf i s))[j] = (s.readZmm (destOf i s))[j]
    | .vsubps128c5 .. => 4 ≤ j.val → (t.readZmm (destOf i s))[j] = 0#32
    | .vsubps128c4 .. => 4 ≤ j.val → (t.readZmm (destOf i s))[j] = 0#32
    | .vsubps256c5 .. => 8 ≤ j.val → (t.readZmm (destOf i s))[j] = 0#32
    | .vsubps256c4 .. => 8 ≤ j.val → (t.readZmm (destOf i s))[j] = 0#32
    | .vsubpsEvex128 .. => 4 ≤ j.val → (t.readZmm (destOf i s))[j] = 0#32
    | .vsubpsEvex256 .. => 8 ≤ j.val → (t.readZmm (destOf i s))[j] = 0#32
    | .vsubpsEvex512 .. => 16 ≤ j.val → (t.readZmm (destOf i s))[j] = 0#32
    | .vsubpsEvex512er .. => 16 ≤ j.val → (t.readZmm (destOf i s))[j] = 0#32

/-- The two spellings of a VEX form with `X = B = 0` are one instruction but for their length, whatever `W` holds: with
a register or memory operand, whether the step completes, faults or is refused. Only a RIP-relative operand, whose
address depends on the length, is another (30_encoding.md rules R92, R96, R97). -/
def Obligations.VexSpellingsAgree : Prop :=
  ∀ (p : List Pfx) (r w : Bool) (v : BitVec 4) (reg : BitVec 3) (rm : Rm) (s : State),
    (s.mode = .mode64 → ∀ o : MemOp, rm = .mem o → ¬ (o.mod = 0b00#2 ∧ o.rm = 0b101#3)) →
    (let i := Instr.vsubps128c4 p ⟨r, false, false, w, v⟩ reg rm
     exec i s = afterLength s (instrLength i) (exec (.vsubps128c5 p ⟨r, v⟩ reg rm) s)) ∧
    (let i := Instr.vsubps256c4 p ⟨r, false, false, w, v⟩ reg rm
     exec i s = afterLength s (instrLength i) (exec (.vsubps256c5 p ⟨r, v⟩ reg rm) s))

/-! ## What a step writes -/

/-- A completed step writes its destination entry, flags of `MXCSR`, the pc and nothing else; it clears no flag,
and under embedded rounding it sets none (10_state.md rules R27, R34). -/
def Obligations.StepFrame : Prop :=
  ∀ (i : Instr) (s t : State), exec i s = .next t →
    Frame (destOf i s) s t ∧ s.mxcsr &&& t.mxcsr = s.mxcsr ∧
      (∀ (p : List Pfx) (e : Evex) (rc : BitVec 2) (reg n : BitVec 3), i = .vsubpsEvex512er p e rc reg n →
        t.mxcsr = s.mxcsr)

/-- A completed step adds the length of the decoded instruction's encoding to the pc, modulo 2^32 outside 64-bit mode
(10_state.md rule R31). -/
def Obligations.PcAdvances : Prop :=
  ∀ (s t : State), step s = .next t → ∃ (i : Instr) (rest : List Byte),
    decode s.mode (fetch s).1 = .instr i rest ∧ (fetch s).1 = encode i ++ rest ∧
    t.pc.toNat = (s.pc.toNat + (encode i).length) % (if s.mode = .mode64 then 2 ^ 64 else 2 ^ 32)

/-- A step that faults changes nothing but flags of `MXCSR`, in `#XM` and `#UD` only, and CR2, in `#PF` only; it
clears no flag (60_exceptions.md rules R220, R221; the count of faults is the model's own, log 17). -/
def Obligations.FaultLeavesState : Prop :=
  ∀ (s : State) (e : Fault), step s = .fault e →
    ∃ (g : FpFlags) (c : Qword),
      e.after = { s with mxcsr := s.mxcsr ||| flagBits g, cr2 := c, faults := s.faults + 1 } ∧
      (e.vector ≠ 19 → e.vector ≠ 6 → g = FpFlags.none) ∧ (e.vector ≠ 14 → c = s.cr2)

/-- The flags `MXCSR[5:0]` are read by no form: from two states that differ in them alone, ZE among them, set or cleared,
an execution ends the same way, with the same next state, exception or refusal, and each adds the same newly signalled
conditions to its own flags (10_state.md rule R27). -/
def Obligations.FlagsNotRead : Prop :=
  ∀ (i : Instr) (s : State) (mx : Dword), mx.extractLsb' 6 26 = s.mxcsr.extractLsb' 6 26 →
    ∃ f : FpFlags, (∀ t, endState (exec i s) = some t → t.mxcsr = s.mxcsr ||| flagBits f) ∧
      exec i { s with mxcsr := mx } = onState (fun t => { t with mxcsr := mx ||| flagBits f }) (exec i s)

/-- A form with register sources executes identically at every privilege level and whatever `EFLAGS` holds: it
completes, raises the same exception or is refused alike (60_exceptions.md rule R230; 10_state.md rule R27). -/
def Obligations.PrivilegeNotRead : Prop :=
  ∀ (p : List Pfx) (v : Vex2) (w : Vex3) (e : Evex) (rc : BitVec 2) (reg n : BitVec 3) (s : State)
    (c : BitVec 2) (f : Dword) (i : Instr),
    i ∈ [.subps p reg (.reg n), .vsubps128c5 p v reg (.reg n), .vsubps128c4 p w reg (.reg n),
      .vsubps256c5 p v reg (.reg n), .vsubps256c4 p w reg (.reg n), .vsubpsEvex128 p e false reg (.reg n),
      .vsubpsEvex256 p e false reg (.reg n), .vsubpsEvex512 p e false reg (.reg n),
      .vsubpsEvex512er p e rc reg n] →
    exec i { s with cpl := c, eflags := f } = onState (fun t => { t with cpl := c, eflags := f }) (exec i s)

/-! ## Exceptions -/

/-- An unmasked condition of an element ends a register form without embedded rounding in `#XM` or `#UD`, with the
destination not written (60_exceptions.md rules R202, R203; which flags are set is free within the bounds, log 2). -/
def Obligations.UnmaskedRegister : Prop :=
  ∀ (p : List Pfx) (v : Vex2) (w : Vex3) (e : Evex) (reg n : BitVec 3) (s : State),
    (let d := low16 (regNum s.mode (rexOf s.mode p).1 reg)
     let f := fun j : Fin 16 => (mxSub s (s.readZmm d)[j]
       (s.readZmm (low16 (regNum s.mode (rexOf s.mode p).2.2 n)))[j]).2
     Ready (udLegacy p s) s → ¬ LanesMasked s 4 (fun _ => true) f →
     NumericFault (exec (.subps p reg (.reg n)) s) s 4 (fun _ => true) f) ∧
    (let f := fun j : Fin 16 => (mxSub s (s.readZmm (low16 (vvvvNum s.mode v.vvvv)))[j]
       (s.readZmm (low16 (regNum s.mode false n)))[j]).2
     Ready (udVex p s) s →
     (¬ LanesMasked s 4 (fun _ => true) f →
       NumericFault (exec (.vsubps128c5 p v reg (.reg n)) s) s 4 (fun _ => true) f) ∧
     (¬ LanesMasked s 8 (fun _ => true) f →
       NumericFault (exec (.vsubps256c5 p v reg (.reg n)) s) s 8 (fun _ => true) f)) ∧
    (let f := fun j : Fin 16 => (mxSub s (s.readZmm (low16 (vvvvNum s.mode w.vvvv)))[j]
       (s.readZmm (low16 (regNum s.mode w.b n)))[j]).2
     Ready (udVex p s) s →
     (¬ LanesMasked s 4 (fun _ => true) f →
       NumericFault (exec (.vsubps128c4 p w reg (.reg n)) s) s 4 (fun _ => true) f) ∧
     (¬ LanesMasked s 8 (fun _ => true) f →
       NumericFault (exec (.vsubps256c4 p w reg (.reg n)) s) s 8 (fun _ => true) f)) ∧
    (let f := fun j : Fin 16 => (mxSub s (s.readZmm (vvvvNum5 s.mode e.vp e.vvvv))[j]
       (s.readZmm (regNum5 s.mode e.x e.b n))[j]).2
     (Ready (udEvex true p e s) s →
       (¬ LanesMasked s 4 (active s e.aaa) f →
         NumericFault (exec (.vsubpsEvex128 p e false reg (.reg n)) s) s 4 (active s e.aaa) f) ∧
       (¬ LanesMasked s 8 (active s e.aaa) f →
         NumericFault (exec (.vsubpsEvex256 p e false reg (.reg n)) s) s 8 (active s e.aaa) f)) ∧
     (Ready (udEvex false p e s) s → ¬ LanesMasked s 16 (active s e.aaa) f →
       NumericFault (exec (.vsubpsEvex512 p e false reg (.reg n)) s) s 16 (active s e.aaa) f))

/-- An unmasked condition of an element ends a form with a memory operand in `#XM` or `#UD` too, once the operand has
been read: the legacy form, the four VEX spellings, and the three EVEX lengths with a full-width or a broadcast
operand (60_exceptions.md rules R202, R203, R215(7); log 2). -/
def Obligations.UnmaskedMemory : Prop :=
  ∀ (p : List Pfx) (v : Vex2) (w : Vex3) (e : Evex) (reg : BitVec 3) (o : MemOp) (s : State) (wide : Bool)
    (vl : VLen),
    let a := addrSize s.mode p
    let n := if wide then 32 else 16
    (let d := low16 (regNum s.mode (rexOf s.mode p).1 reg)
     let ad := memAddr s p (rexOf s.mode p).2.1 (rexOf s.mode p).2.2 1 (instrLength (.subps p reg (.mem o))) o
     let m := readOf s ad.1 a ad.2 (List.range 16) false
     let f := fun j : Fin 16 => (mxSub s (s.readZmm d)[j] (m.dword (4 * j.val))).2
     Ready (udLegacy p s) s → (linear s ad.1 ad.2).toNat % 16 = 0 → Accessible s ad.1 a ad.2 (List.range 16) →
     ¬ LanesMasked s 4 (fun _ => true) f →
     NumericFault (exec (.subps p reg (.mem o)) s) s 4 (fun _ => true) f) ∧
    (let i := if wide then Instr.vsubps256c5 p v reg (.mem o) else .vsubps128c5 p v reg (.mem o)
     let ad := memAddr s p false false 1 (instrLength i) o
     let m := readOf s ad.1 a ad.2 (List.range n) false
     let f := fun j : Fin 16 => (mxSub s (s.readZmm (low16 (vvvvNum s.mode v.vvvv)))[j] (m.dword (4 * j.val))).2
     Ready (udVex p s) s → Accessible s ad.1 a ad.2 (List.range n) → mayTrapAlign s (linear s ad.1 ad.2) n = false →
     ¬ LanesMasked s (n / 4) (fun _ => true) f → NumericFault (exec i s) s (n / 4) (fun _ => true) f) ∧
    (let i := if wide then Instr.vsubps256c4 p w reg (.mem o) else .vsubps128c4 p w reg (.mem o)
     let ad := memAddr s p w.x w.b 1 (instrLength i) o
     let m := readOf s ad.1 a ad.2 (List.range n) false
     let f := fun j : Fin 16 => (mxSub s (s.readZmm (low16 (vvvvNum s.mode w.vvvv)))[j] (m.dword (4 * j.val))).2
     Ready (udVex p s) s → Accessible s ad.1 a ad.2 (List.range n) → mayTrapAlign s (linear s ad.1 ad.2) n = false →
     ¬ LanesMasked s (n / 4) (fun _ => true) f → NumericFault (exec i s) s (n / 4) (fun _ => true) f) ∧
    ∀ bc : Bool,
      let i := match vl with
        | .v128 => Instr.vsubpsEvex128 p e bc reg (.mem o)
        | .v256 => Instr.vsubpsEvex256 p e bc reg (.mem o)
        | .v512 => Instr.vsubpsEvex512 p e bc reg (.mem o)
      let size := if bc then 4 else vlBytes vl
      let ad := memAddr s p e.x e.b size (instrLength i) o
      let ks := accessedOf i s
      let m := readOf s ad.1 a ad.2 ks (bc && oneAccess s ad.1 ad.2 ks)
      let f := fun j : Fin 16 => (mxSub s (s.readZmm (vvvvNum5 s.mode e.vp e.vvvv))[j]
        (m.dword (if bc then 0 else 4 * j.val))).2
      Ready (udOf i s) s → Accessible s ad.1 a ad.2 ks → mayTrapAlign s (linear s ad.1 ad.2) size = false →
      ¬ LanesMasked s (vlLanes vl) (active s e.aaa) f →
      NumericFault (exec i s) s (vlLanes vl) (active s e.aaa) f

/-- Device not available: with `CR0.TS = 1` every instruction that is not `#UD` ends in `#NM`, and the legacy form's
`CR0.EM = 1` wins over it (60_exceptions.md rule R207). -/
def Obligations.DeviceNotAvailable : Prop :=
  (∀ (i : Instr) (s : State), mxReserved s.mxcsr = 0#16 → s.mode ≠ .realAddress → s.cr0.getLsbD 3 = true →
    udOf i s = false → exec i s = .fault (.nm { s with faults := s.faults + 1 })) ∧
  (∀ (p : List Pfx) (reg : BitVec 3) (rm : Rm) (s : State), mxReserved s.mxcsr = 0#16 →
    s.cr0.getLsbD 3 = true → s.cr0.getLsbD 2 = true →
    exec (.subps p reg rm) s = .fault (.ud { s with faults := s.faults + 1 }))

/-- A form whose CPUID feature flag is 0 ends in `#UD` (60_exceptions.md rule R206). -/
def Obligations.FeatureFlags : Prop :=
  ∀ (i : Instr) (s : State), mxReserved s.mxcsr = 0#16 →
    (match i with
      | .subps .. => s.cfg.sse = false
      | .vsubps128c5 .. => s.cfg.avx = false
      | .vsubps128c4 .. => s.cfg.avx = false
      | .vsubps256c5 .. => s.cfg.avx = false
      | .vsubps256c4 .. => s.cfg.avx = false
      | .vsubpsEvex128 .. => s.cfg.avx512f = false ∨ s.cfg.avx512vl = false
      | .vsubpsEvex256 .. => s.cfg.avx512f = false ∨ s.cfg.avx512vl = false
      | .vsubpsEvex512 .. => s.cfg.avx512f = false
      | .vsubpsEvex512er .. => s.cfg.avx512f = false) →
    exec i s = .fault (.ud { s with faults := s.faults + 1 })

/-- A LOCK prefix with any of the forms raises `#UD` (30_encoding.md rule R106). -/
def Obligations.LockInvalid : Prop :=
  ∀ (i : Instr) (s : State), mxReserved s.mxcsr = 0#16 → .lock ∈ prefixesOf i →
    exec i s = .fault (.ud { s with faults := s.faults + 1 })

/-- The control bits, prefixes and masking fields that make a form `#UD` (60_exceptions.md rules R205, R210): the
legacy form with `CR0.EM = 1` or `CR4.OSFXSR = 0`; a VEX or EVEX form with `CR4.OSXSAVE = 0`, `XCR0[2:1]` not 11, or
66h, F2h or F3h among its prefixes, or a REX byte immediately before the VEX or EVEX prefix (one that another prefix
follows is ignored, log 14); an EVEX form with `XCR0[7:5]` not 111, or zeroing without a writemask. -/
def Obligations.ControlBits : Prop :=
  ∀ (i : Instr) (s : State), mxReserved s.mxcsr = 0#16 →
    (match i with
      | .subps .. => s.cr0.getLsbD 2 = true ∨ s.cr4.getLsbD 9 = false
      | .vsubps128c5 p _ _ _ | .vsubps128c4 p _ _ _ | .vsubps256c5 p _ _ _ | .vsubps256c4 p _ _ _ =>
        s.cr4.getLsbD 18 = false ∨ s.xcr0.extractLsb' 1 2 ≠ 3#2 ∨ endsInRex p = true ∨
          .opSize ∈ p ∨ .repne ∈ p ∨ .rep ∈ p
      | .vsubpsEvex128 p e _ _ _ | .vsubpsEvex256 p e _ _ _ | .vsubpsEvex512 p e _ _ _
      | .vsubpsEvex512er p e _ _ _ =>
        s.cr4.getLsbD 18 = false ∨ s.xcr0.extractLsb' 1 2 ≠ 3#2 ∨ s.xcr0.extractLsb' 5 3 ≠ 7#3 ∨
          endsInRex p = true ∨ .opSize ∈ p ∨ .repne ∈ p ∨ .rep ∈ p ∨ (e.z = true ∧ e.aaa = 0#3)) →
    exec i s = .fault (.ud { s with faults := s.faults + 1 })

/-- What is refused instead of an operation: a state with `MXCSR[31:16]` not 0 (93_implementation_defined.md U1; before
any other check, log 18), real-address mode where no `#UD` condition holds (00_scope.md rule R6(f); log 1), and a memory
operand of any form with an accessed byte in device memory (20_memory.md rule R58, U13; log 20). -/
def Obligations.OutOfScopeRefused : Prop :=
  (∀ (i : Instr) (s : State), mxReserved s.mxcsr ≠ 0#16 → exec i s = .refused .mxcsrReserved) ∧
  (∀ (i : Instr) (s : State), mxReserved s.mxcsr = 0#16 → s.mode = .realAddress → udOf i s = false →
    exec i s = .refused .modeOutOfScope) ∧
  (∀ (i : Instr) (s : State) (seg : SegName) (off : Qword) (n : Nat), ReadsAt i s seg off n →
    (∀ k ∈ accessedOf i s, byteFault s .read seg (offsetOf i s off k) = none) →
    mayTrapAlign s (linear s seg off) n = false →
    (∃ k ∈ accessedOf i s, isDevice s (linear s seg (offsetOf i s off k)) = true) →
    exec i s = .refused .deviceMemory)

/-- The legacy form's memory operand that is not 16-byte aligned raises `#GP(0)`, whatever else is wrong with it
(20_memory.md rule R54; before translation, log 23). -/
def Obligations.LegacyMisaligned : Prop :=
  ∀ (p : List Pfx) (reg : BitVec 3) (o : MemOp) (s : State), Ready (udLegacy p s) s →
    let ad := memAddr s p (rexOf s.mode p).2.1 (rexOf s.mode p).2.2 1 (instrLength (.subps p reg (.mem o))) o
    (linear s ad.1 ad.2).toNat % 16 ≠ 0 →
    exec (.subps p reg (.mem o)) s = .fault (.gp { s with faults := s.faults + 1 })

/-- Where every accessed byte of a memory operand, of any form and in either mode, passes the segment checks and some
byte's page is absent, unreadable or has a reserved bit set, the step ends in a page fault for one of those bytes, CR2
holding its linear address (20_memory.md rule R60(c), 60_exceptions.md rule R213; that an absent page reports no reserved
bit, and bits 31:5 of the code, are the model's choice, log 6). -/
def Obligations.PageFaultReported : Prop :=
  ∀ (i : Instr) (s : State) (seg : SegName) (off : Qword) (n : Nat), ReadsAt i s seg off n →
    let lin := fun k => linear s seg (offsetOf i s off k)
    (∀ k ∈ accessedOf i s, InSegment s seg (offsetOf i s off k)) →
    (∃ k ∈ accessedOf i s, pageFault s .read (lin k) ≠ none) →
    ∃ k ∈ accessedOf i s, ∃ (r : Region) (code : Dword), regionOf s (lin k) = some r ∧
      (r.present = false ∨ r.reserved = true ∨ r.readable.getLsbD s.cpl.toNat = false) ∧
      code.getLsbD 0 = r.present ∧ code.getLsbD 1 = false ∧ (code.getLsbD 2 = true ↔ s.cpl = 3#2) ∧
      code.getLsbD 3 = (r.present && r.reserved) ∧ code.getLsbD 4 = false ∧ code.extractLsb' 5 27 = 0#27 ∧
      exec i s = .fault (.pf code { s with cr2 := lin k, faults := s.faults + 1 })

/-- An illegal address: where some accessed byte of a memory operand, of any form, is not canonical in 64-bit mode, or
elsewhere lies outside the limit of its segment or in an unusable segment, and no other byte has a page fault, the step
ends in `#SS(0)` through SS and in `#GP(0)` through any other segment, or an unusable one (20_memory.md rule R60(a), (b),
60_exceptions.md rule R208; limits and an unusable SS as log 27 reads them). -/
def Obligations.NonCanonical : Prop :=
  ∀ (i : Instr) (s : State) (seg : SegName) (off : Qword) (n : Nat), ReadsAt i s seg off n →
    (∃ k ∈ accessedOf i s, ¬ InSegment s seg (offsetOf i s off k)) →
    (∀ k ∈ accessedOf i s, InSegment s seg (offsetOf i s off k) →
      pageFault s .read (linear s seg (offsetOf i s off k)) = none) →
    exec i s =
      .fault ((if seg = .ss ∧ (s.mode = .mode64 ∨ (s.seg seg).usable = true) then Fault.ss else Fault.gp)
        { s with faults := s.faults + 1 })

/-- A byte of an active element that has no translation makes an EVEX form with a memory operand fault, under both
settings of `FAULT_SUPPRESSION`, with the exception of one of the bytes accessed: a full-width operand, and a broadcast
operand, whose 4 bytes serve every active element and are accessed without one where `FAULT_SUPPRESSION` is false
(42_vsubps_evex.md rule R160; 20_memory.md rule R60; which of the bytes is free, log 3). -/
def Obligations.ActiveByteFaults : Prop :=
  ∀ (vl : VLen) (p : List Pfx) (e : Evex) (reg : BitVec 3) (o : MemOp) (s : State),
    (let i := match vl with
      | .v128 => Instr.vsubpsEvex128 p e false reg (.mem o)
      | .v256 => Instr.vsubpsEvex256 p e false reg (.mem o)
      | .v512 => Instr.vsubpsEvex512 p e false reg (.mem o)
     let ad := memAddr s p e.x e.b (vlBytes vl) (instrLength i) o
     let err := fun k => byteFault s .read ad.1 (byteOffset s (addrSize s.mode p) ad.2 k)
     Ready (udOf i s) s → (∃ k < vlBytes vl, active s e.aaa (k / 4) = true ∧ err k ≠ none) →
     ∃ k < vlBytes vl, (s.cfg.faultSuppression = true → active s e.aaa (k / 4) = true) ∧
       ∃ f, err k = some f ∧ exec i s = raiseByte f s) ∧
    (let i := match vl with
      | .v128 => Instr.vsubpsEvex128 p e true reg (.mem o)
      | .v256 => Instr.vsubpsEvex256 p e true reg (.mem o)
      | .v512 => Instr.vsubpsEvex512 p e true reg (.mem o)
     let ad := memAddr s p e.x e.b 4 (instrLength i) o
     let err := fun k => byteFault s .read ad.1 (byteOffset s (addrSize s.mode p) ad.2 k)
     Ready (udOf i s) s → ((∃ j < vlLanes vl, active s e.aaa j = true) ∨ s.cfg.faultSuppression = false) →
     (∃ k < 4, err k ≠ none) → ∃ k < 4, ∃ f, err k = some f ∧ exec i s = raiseByte f s)

/-- Without `AC_ON_VECTOR`, `CR0.AM`, `EFLAGS.AC`, privilege level 3, or a memory operand of a VEX or EVEX form whose
linear address is no multiple of its size, no instruction ends in `#AC(0)` (60_exceptions.md rule R214). -/
def Obligations.AlignmentCheckOnlyWhen : Prop :=
  ∀ (i : Instr) (s : State),
    (s.cfg.acOnVector = false ∨ s.cr0.getLsbD 18 = false ∨ s.eflags.getLsbD 18 = false ∨ s.cpl ≠ 3#2 ∨
      (∃ (p : List Pfx) (reg : BitVec 3) (rm : Rm), i = .subps p reg rm) ∨
      ∀ (seg : SegName) (off : Qword) (n : Nat), operandOf i s = some (seg, off, n) →
        (linear s seg off).toNat % n = 0) →
    ∀ a : State, exec i s ≠ .fault (.ac a)

/-- Where `#AC(0)` may be raised for an unaligned operand whose accessed bytes can be read, both outcomes are allowed, and
a free value decides: the exception, or what the operation gives, the completed instruction or, where an active element
signals an unmasked condition, `#XM` or `#UD`. So for the four VEX spellings and the three EVEX lengths, with a full-width or a broadcast operand of which a byte is accessed (20_memory.md rule R55, 60_exceptions.md
rules R202, R214, R215(6), (7); that the free value is applied to the number of data reads and faults so far is the model's choice, log 4, and
so is that an operand of which no byte is accessed is not checked, log 24). -/
def Obligations.AlignmentCheckEitherWay : Prop :=
  ∀ (p : List Pfx) (v : Vex2) (w : Vex3) (e : Evex) (reg : BitVec 3) (o : MemOp) (s : State) (wide bc : Bool)
    (vl : VLen), s.cfg.ok →
    let a := addrSize s.mode p
    let n := if wide then 32 else 16
    (let i := if wide then Instr.vsubps256c5 p v reg (.mem o) else .vsubps128c5 p v reg (.mem o)
     let ad := memAddr s p false false 1 (instrLength i) o
     let m := readOf s ad.1 a ad.2 (List.range n) false
     Ready (udVex p s) s → Accessible s ad.1 a ad.2 (List.range n) → Misaligned s ad.1 ad.2 n →
     TrapsOr (exec i s) s (SubtractsOrFaults (exec i s) s (low16 (regNum s.mode v.r reg)) (n / 4)
       (s.readZmm (low16 (vvvvNum s.mode v.vvvv))) (Vector.ofFn fun j : Fin 16 => m.dword (4 * j.val))
       (fun _ => 0#32) m.events (instrLength i))) ∧
    (let i := if wide then Instr.vsubps256c4 p w reg (.mem o) else .vsubps128c4 p w reg (.mem o)
     let ad := memAddr s p w.x w.b 1 (instrLength i) o
     let m := readOf s ad.1 a ad.2 (List.range n) false
     Ready (udVex p s) s → Accessible s ad.1 a ad.2 (List.range n) → Misaligned s ad.1 ad.2 n →
     TrapsOr (exec i s) s (SubtractsOrFaults (exec i s) s (low16 (regNum s.mode w.r reg)) (n / 4)
       (s.readZmm (low16 (vvvvNum s.mode w.vvvv))) (Vector.ofFn fun j : Fin 16 => m.dword (4 * j.val))
       (fun _ => 0#32) m.events (instrLength i))) ∧
    (let i := match vl with
       | .v128 => Instr.vsubpsEvex128 p e bc reg (.mem o)
       | .v256 => Instr.vsubpsEvex256 p e bc reg (.mem o)
       | .v512 => Instr.vsubpsEvex512 p e bc reg (.mem o)
     let size := if bc then 4 else vlBytes vl
     let ad := memAddr s p e.x e.b size (instrLength i) o
     let ks := accessedOf i s
     let m := readOf s ad.1 a ad.2 ks (bc && oneAccess s ad.1 ad.2 ks)
     Ready (udOf i s) s → ks ≠ [] → Accessible s ad.1 a ad.2 ks → Misaligned s ad.1 ad.2 size →
     TrapsOr (exec i s) s (MaskedSubtractsOrFaults (exec i s) s e (regNum5 s.mode e.rp e.r reg) (vlLanes vl)
       (s.readZmm (vvvvNum5 s.mode e.vp e.vvvv))
       (Vector.ofFn fun j : Fin 16 => m.dword (if bc then 0 else 4 * j.val)) m.events (instrLength i)))

/-! ## Memory -/

/-- Reading after a write, in a memory of canonical form: the byte written, and every other byte as before
(20_memory.md rule R50). -/
def Obligations.ReadAfterWrite : Prop :=
  ∀ (m : List Host.Cell) (a b : Nat) (v : Byte), Memory.wf m →
    Memory.read (Memory.write m a v) b = if b = a then v else Memory.read m b

/-- Little-endian: where no other agent answers, and whichever bytes `ks` of an operand are read, the element whose four
bytes are among them is those bytes, least significant first; and they are, for every element of a VEX operand or of
the legacy form's, for every active element of a full-width EVEX operand, and for a broadcast operand, as element 0,
wherever an element is active (20_memory.md rule R53, 42_vsubps_evex.md rules R153, R160). -/
def Obligations.LittleEndian : Prop :=
  (∀ (s : State) (seg : SegName) (a : AddrSize) (off : Qword) (ks : List Nat) (one : Bool) (j : Nat),
    s.oracle = [] → ks.Nodup → (∀ b < 4, 4 * j + b ∈ ks) →
    let byte := fun k => Memory.read s.mem (bytePhys s seg a off k)
    (readOf s seg a off ks one).dword (4 * j) =
      byte (4 * j + 3) ++ byte (4 * j + 2) ++ byte (4 * j + 1) ++ byte (4 * j)) ∧
  ∀ (i : Instr) (s : State), (accessedOf i s).Nodup ∧ ∀ j b : Nat, b < 4 →
    match i with
    | .subps .. | .vsubps128c5 .. | .vsubps128c4 .. => j < 4 → 4 * j + b ∈ accessedOf i s
    | .vsubps256c5 .. | .vsubps256c4 .. => j < 8 → 4 * j + b ∈ accessedOf i s
    | .vsubpsEvex128 _ e bc _ _ => j < 4 → active s e.aaa j = true → (if bc then b else 4 * j + b) ∈ accessedOf i s
    | .vsubpsEvex256 _ e bc _ _ => j < 8 → active s e.aaa j = true → (if bc then b else 4 * j + b) ∈ accessedOf i s
    | .vsubpsEvex512 _ e bc _ _ => j < 16 → active s e.aaa j = true → (if bc then b else 4 * j + b) ∈ accessedOf i s
    | .vsubpsEvex512er .. => True

/-- How the accessed bytes `ks` of an operand are read, all of them or those of active elements: byte by byte, event `i`
of the read being byte `ks[i]`, answered by the oracle where it answers and else by memory; and an aligned broadcast as
one event of four bytes (20_memory.md rules R56 to R58; the oracle's form is the model's choice, log 7, and so is the
order of the byte reads in the history, by address, log 25). -/
def Obligations.ReadEvents : Prop :=
  ∀ (s : State) (seg : SegName) (a : AddrSize) (off : Qword),
    (∀ (ks : List Nat), ks.Nodup →
      let r := readOf s seg a off ks false
      r.events.length = ks.length ∧ ∀ (i : Nat) (h : i < ks.length),
        let byte := Memory.read s.mem (bytePhys s seg a off ks[i])
        (r.events.map ReadEvent.phys)[i]? = some [bytePhys s seg a off ks[i]] ∧
        (s.oracle.lookup (s.history.length + i) = none → r.at ks[i] = byte) ∧
        (∀ vs, s.oracle.lookup (s.history.length + i) = some vs → r.at ks[i] = vs.getD 0 byte)) ∧
    let r := readOf s seg a off [0, 1, 2, 3] true
    r.events = [⟨[0, 1, 2, 3].map (bytePhys s seg a off),
        answer s s.history.length ([0, 1, 2, 3].map (bytePhys s seg a off))⟩] ∧
      ∀ k < 4,
        let byte := Memory.read s.mem (bytePhys s seg a off k)
        (s.oracle.lookup s.history.length = none → r.at k = byte) ∧
        (∀ vs, s.oracle.lookup s.history.length = some vs → r.at k = vs.getD k byte)

/-- Effective addresses with 32-bit and 64-bit address size, in 64-bit mode and in 32-bit mode, for every `mod`, `rm` and
SIB byte: the sum of base, scaled index and displacement, of which 67h in 64-bit mode and 32-bit mode keep the low 32
bits; the segment is the one the prefixes override with, else SS for a base register of number 4 or 5, else DS. And the
linear address, with the bases of FS and GS in 64-bit mode and of all six segments in 32-bit mode (20_memory.md rules
R52, R54; 30_encoding.md rules R85, R92, R93, R103; that an override ignored in 64-bit mode displaces none is the model's
choice, log 14). -/
def Obligations.EffectiveAddress : Prop :=
  (∀ (s : State) (p : List Pfx) (sel : Option SegName) (x b : Bool) (n ilen : Nat) (d8 : BitVec 8) (d32 : BitVec 32)
    (rm : BitVec 3) (sib : Sib),
    s.mode = .mode64 ∨ (s.mode = .protected32 ∧ .addrSize ∉ p) → OverriddenBy s.mode p sel →
    let low := fun v : Qword => if s.mode = .mode64 ∧ .addrSize ∉ p then v else (v.setWidth 32).setWidth 64
    let reg := fun (e : Bool) (k : BitVec 3) => s.readGpr (regNum s.mode e k)
    let seg := fun k : BitVec 3 =>
      sel.getD (if regNum s.mode b k = 4#4 ∨ regNum s.mode b k = 5#4 then .ss else .ds)
    let index := if regNum s.mode x sib.index = 4#4 then 0#64
      else reg x sib.index * BitVec.ofNat 64 (2 ^ sib.scale.toNat)
    let at' := memAddr s p x b n ilen
    at' ⟨0b00#2, 0b101#3, none, .d32 d32⟩ =
      (sel.getD .ds, low ((if s.mode = .mode64 then s.pc + BitVec.ofNat 64 ilen else 0#64) + d32.signExtend 64)) ∧
    (rm ≠ 0b100#3 →
      (rm ≠ 0b101#3 → at' ⟨0b00#2, rm, none, .none⟩ = (seg rm, low (reg b rm))) ∧
      at' ⟨0b01#2, rm, none, .d8 d8⟩ =
        (seg rm, low (reg b rm + d8.signExtend 64 * BitVec.ofNat 64 n)) ∧
      at' ⟨0b10#2, rm, none, .d32 d32⟩ = (seg rm, low (reg b rm + d32.signExtend 64))) ∧
    (sib.base = 0b101#3 → at' ⟨0b00#2, 0b100#3, some sib, .d32 d32⟩ =
      (sel.getD .ds, low (index + d32.signExtend 64))) ∧
    (sib.base ≠ 0b101#3 → at' ⟨0b00#2, 0b100#3, some sib, .none⟩ =
      (seg sib.base, low (reg b sib.base + index))) ∧
    at' ⟨0b01#2, 0b100#3, some sib, .d8 d8⟩ =
      (seg sib.base, low (reg b sib.base + index + d8.signExtend 64 * BitVec.ofNat 64 n)) ∧
    at' ⟨0b10#2, 0b100#3, some sib, .d32 d32⟩ =
      (seg sib.base, low (reg b sib.base + index + d32.signExtend 64))) ∧
  (∀ (s : State) (seg : SegName) (off : Qword),
    (s.mode = .mode64 → linear s .fs off = s.fsBase + off ∧ linear s .gs off = s.gsBase + off ∧
      (seg ≠ .fs → seg ≠ .gs → linear s seg off = off)) ∧
    (s.mode = .protected32 → linear s seg off = ((s.seg seg).base + off.setWidth 32).setWidth 64))

/-- 16-bit addressing, 32-bit mode with the prefix 67h: the sums of BX, BP, SI and DI, with each displacement, modulo
2^16, through the segment the prefixes override with, else SS where BP is used, else DS (30_encoding.md rules R85, R94,
R103). -/
def Obligations.EffectiveAddress16 : Prop :=
  ∀ (s : State) (p : List Pfx) (sel : Option SegName) (x b : Bool) (n ilen : Nat) (d8 : BitVec 8) (d16 : BitVec 16),
    s.mode = .protected32 → .addrSize ∈ p → OverriddenBy s.mode p sel →
    let r := fun k : BitVec 4 => (s.readGpr k).setWidth 16
    let at' := memAddr s p x b n ilen
    (∀ (rm : BitVec 3) (sum : BitVec 16) (seg : SegName),
      [(r 3#4 + r 6#4, SegName.ds), (r 3#4 + r 7#4, .ds), (r 5#4 + r 6#4, .ss), (r 5#4 + r 7#4, .ss), (r 6#4, .ds),
        (r 7#4, .ds), (r 5#4, .ss), (r 3#4, .ds)][rm.toNat]? = some (sum, seg) →
      (rm ≠ 0b110#3 → at' ⟨0b00#2, rm, none, .none⟩ = (sel.getD seg, sum.setWidth 64)) ∧
      at' ⟨0b01#2, rm, none, .d8 d8⟩ =
        (sel.getD seg, (sum + d8.signExtend 16 * BitVec.ofNat 16 n).setWidth 64) ∧
      at' ⟨0b10#2, rm, none, .d16 d16⟩ = (sel.getD seg, (sum + d16).setWidth 64)) ∧
    at' ⟨0b00#2, 0b110#3, none, .d16 d16⟩ = (sel.getD .ds, d16.setWidth 64)

/-! ## Reset and invariant -/

/-- The values that the spec gives for reset, and INIT: it keeps the vector and opmask registers, `MXCSR`, XCR0, memory
and the bits CD and NW of CR0, and leaves the rest as after reset (10_state.md rule R35; the spec names CD and NW without
numbers, and that they are bits 30 and 29 is PRESUMED, log 10). -/
def Obligations.ResetValues : Prop :=
  (∀ n : BitVec 5, State.reset.readZmm n = Vector.replicate 16 0#32) ∧
  (∀ n : BitVec 3, State.reset.readK n = 0#64) ∧
  State.reset.mxcsr = 0x00001F80#32 ∧ State.reset.cr0 = 0x60000010#32 ∧ State.reset.cr4 = 0#32 ∧
  State.reset.xcr0 = 1#64 ∧ State.reset.eflags = 0x00000002#32 ∧
  (∀ n : BitVec 4, n ≠ 0#4 → n ≠ 2#4 → State.reset.readGpr n = 0#64) ∧
  State.reset.pc = 0x0000FFF0#64 ∧ State.reset.segs.cs.base = 0xFFFF0000#32 ∧
  State.reset.mode = .realAddress ∧ State.reset.cpl = 0#2 ∧
  ∀ s : State, s.init.zmm = s.zmm ∧ s.init.k = s.k ∧ s.init.mxcsr = s.mxcsr ∧ s.init.xcr0 = s.xcr0 ∧
    s.init.mem = s.mem ∧ s.init.cr0.extractLsb' 29 2 = s.cr0.extractLsb' 29 2 ∧
    s.init.cr0 &&& 0x9FFFFFFF#32 = State.reset.cr0 &&& 0x9FFFFFFF#32 ∧ s.init.cr4 = 0#32 ∧
    s.init.eflags = 0x00000002#32 ∧ s.init.readGpr 0#4 = 0#64 ∧ s.init.pc = 0x0000FFF0#64 ∧
    s.init.segs.cs.base = 0xFFFF0000#32 ∧ s.init.mode = .realAddress ∧ s.init.cpl = 0#2

/-- In the state after reset every form raises `#UD` (70_reset_and_hazards.md rule R240). -/
def Obligations.ResetRaisesUd : Prop :=
  ∀ i : Instr, exec i State.reset = .fault (.ud { State.reset with faults := State.reset.faults + 1 })

/-- The invariant holds after reset (10_state.md rule R35). -/
def Obligations.InvAtReset : Prop := Inv State.reset

/-- Every step keeps the invariant: bits of vector and opmask registers that do not exist stay 0, `MXCSR[31:16]`
stays 0, memory keeps its canonical form, the pc stays within 32 bits outside 64-bit mode (10_state.md rules R20, R24,
R26, R31; holding absent bits at 0 is the model's choice, log 11). -/
def Obligations.StepKeepsInv : Prop :=
  ∀ s t : State, Inv s → step s = .next t → Inv t
end

