-- ==== Sys2Proof/Laws/Decode.lean ====
section
/-! SUPPORT. Reading back what the encoder writes, byte by byte. -/

namespace Sys2Proof

open Sys2Proof.Machine

/-! ## Prefixes -/

/-- A prefix byte is read back. -/
theorem pfxOf_encodePfx {m : Mode} {p : Pfx} (h : wfPfx m p = true) : pfxOf m (encodePfx p) = some p := by
  cases p with
  | rex w r x b =>
    obtain rfl : m = .mode64 := by simpa [wfPfx] using h
    cases w <;> cases r <;> cases x <;> cases b <;> decide
  | _ => cases m <;> decide

/-- The bytes that end the prefixes are no prefixes. -/
theorem pfxOf_opcode (m : Mode) :
    pfxOf m 0x0F#8 = none ∧ pfxOf m 0xC5#8 = none ∧ pfxOf m 0xC4#8 = none ∧ pfxOf m 0x62#8 = none := by
  cases m <;> decide

/-- Prefixes are read back, up to a byte that is none. -/
theorem takePfx_encode {m : Mode} {p : List Pfx} (hp : p.all (wfPfx m) = true) {b : Byte} {bs : List Byte}
    (hb : pfxOf m b = none) : takePfx m (p.map encodePfx ++ b :: bs) = (p, b :: bs) := by
  induction p with
  | nil => simp [takePfx, hb]
  | cons q p ih =>
    simp only [List.all_cons, Bool.and_eq_true] at hp
    simp [takePfx, pfxOf_encodePfx hp.1, ih hp.2]

/-- What is read as a prefix is that prefix's byte. -/
theorem encodePfx_pfxOf {m : Mode} {b : Byte} {p : Pfx} (h : pfxOf m b = some p) :
    encodePfx p = b ∧ wfPfx m p = true := by
  have key : ∀ (m : Mode) (b : Byte), (pfxOf m b).all (fun p => encodePfx p == b && wfPfx m p) = true := by
    intro m
    cases m <;> decide
  have := key m b
  rw [h] at this
  simpa using this

/-- The bytes taken as prefixes are the prefixes' bytes. -/
theorem takePfx_exact (m : Mode) (bs : List Byte) :
    (takePfx m bs).1.map encodePfx ++ (takePfx m bs).2 = bs ∧ (takePfx m bs).1.all (wfPfx m) = true := by
  induction bs with
  | nil => simp [takePfx]
  | cons b bs ih =>
    unfold takePfx
    split
    · next p hp =>
      obtain ⟨h1, h2⟩ := encodePfx_pfxOf hp
      simp [h1, h2, ih]
    · simp

/-- Which decoder goes on after the prefixes. -/
theorem decode_after_prefixes {m : Mode} {p : List Pfx} (hp : p.all (wfPfx m) = true) (bs : List Byte) :
    decode m (p.map encodePfx ++ 0x0F#8 :: bs) = decodeLegacy m p bs ∧
      decode m (p.map encodePfx ++ 0xC5#8 :: bs) = decodeVex2 m p bs ∧
      decode m (p.map encodePfx ++ 0xC4#8 :: bs) = decodeVex3 m p bs ∧
      decode m (p.map encodePfx ++ 0x62#8 :: bs) = decodeEvex m p bs := by
  obtain ⟨h1, h2, h3, h4⟩ := pfxOf_opcode m
  simp [decode, takePfx_encode hp h1, takePfx_encode hp h2, takePfx_encode hp h3, takePfx_encode hp h4]

/-! ## ModRM, SIB, displacement -/

/-- Four bytes make a 32-bit displacement. -/
theorem join32 (d : BitVec 32) :
    d.extractLsb' 24 8 ++ d.extractLsb' 16 8 ++ d.extractLsb' 8 8 ++ d.extractLsb' 0 8 = d := by
  ext i hi
  simp only [BitVec.getElem_append, BitVec.getElem_extractLsb']
  rw [← BitVec.getLsbD_eq_getElem]
  split_ifs <;> congr 1 <;> omega

/-- Two bytes make a 16-bit displacement. -/
theorem join16 (d : BitVec 16) : d.extractLsb' 8 8 ++ d.extractLsb' 0 8 = d := by
  ext i hi
  simp only [BitVec.getElem_append, BitVec.getElem_extractLsb']
  rw [← BitVec.getLsbD_eq_getElem]
  split_ifs <;> congr 1 <;> omega

/-- A displacement is read back. -/
theorem readDisp_encodeDisp (d : Disp) (rest : List Byte) :
    readDisp d.kind (encodeDisp d ++ rest) = some (d, rest) := by
  cases d <;> simp [readDisp, Disp.kind, encodeDisp, join16, join32]

/-- The bytes read as a displacement are its bytes. -/
theorem encodeDisp_readDisp {k : DispKind} {bs rest : List Byte} {d : Disp}
    (h : readDisp k bs = some (d, rest)) : encodeDisp d ++ rest = bs ∧ d.kind = k := by
  have e16 : ∀ x y : Byte, (x ++ y).extractLsb' 0 8 = y ∧ (x ++ y).extractLsb' 8 8 = x := fun x y =>
    ⟨BitVec.extractLsb'_append_eq_right .., BitVec.extractLsb'_append_eq_left ..⟩
  unfold readDisp at h
  split at h <;> simp only [Option.some.injEq, Prod.mk.injEq, reduceCtorEq] at h <;>
    obtain ⟨rfl, rfl⟩ := h
  · simp [encodeDisp, Disp.kind]
  · simp [encodeDisp, Disp.kind]
  · simp [encodeDisp, Disp.kind, e16]
  · next b0 b1 b2 b3 _ =>
    refine ⟨?_, rfl⟩
    have h0 : (b3 ++ b2 ++ b1 ++ b0).extractLsb' 0 8 = b0 := BitVec.extractLsb'_append_eq_right ..
    have h1 : (b3 ++ b2 ++ b1 ++ b0).extractLsb' 8 8 = b1 := by
      refine BitVec.eq_of_getLsbD_eq fun i hi => ?_
      simp only [BitVec.getLsbD_extractLsb', BitVec.getLsbD_append, hi, decide_true, Bool.true_and]
      split_ifs <;> try omega
      congr 1
      omega
    have h2 : (b3 ++ b2 ++ b1 ++ b0).extractLsb' 16 8 = b2 := by
      refine BitVec.eq_of_getLsbD_eq fun i hi => ?_
      simp only [BitVec.getLsbD_extractLsb', BitVec.getLsbD_append, hi, decide_true, Bool.true_and]
      split_ifs <;> try omega
      congr 1
      omega
    have h3 : (b3 ++ b2 ++ b1 ++ b0).extractLsb' 24 8 = b3 := by
      refine BitVec.eq_of_getLsbD_eq fun i hi => ?_
      simp only [BitVec.getLsbD_extractLsb', BitVec.getLsbD_append, hi, decide_true, Bool.true_and]
      split_ifs <;> try omega
      congr 1
      omega
    simp [encodeDisp, h0, h1, h2, h3]

/-- Three fields of a byte are read back. -/
theorem fields233 (x : BitVec 2) (y z : BitVec 3) :
    (x ++ y ++ z).extractLsb' 6 2 = x ∧ (x ++ y ++ z).extractLsb' 3 3 = y ∧
      (x ++ y ++ z).extractLsb' 0 3 = z := by
  revert x y z; decide

/-- A byte is its three fields. -/
theorem join233 (b : Byte) : (b.extractLsb' 6 2 ++ b.extractLsb' 3 3 ++ b.extractLsb' 0 3 : BitVec 8) = b := by
  revert b; decide

/-- A SIB byte is read back. -/
theorem sibOf_encodeSib (s : Sib) : sibOf (encodeSib s) = s := by
  obtain ⟨h1, h2, h3⟩ := fields233 s.scale s.index s.base
  simp [sibOf, encodeSib, h1, h2, h3]

/-- A byte is the SIB byte of its fields. -/
theorem encodeSib_sibOf (b : Byte) : encodeSib (sibOf b) = b := join233 b

/-- ModRM and what follows are read back. -/
theorem readModRm_encodeRm {a : AddrSize} {rm : Rm} (h : wfRm a rm = true) (reg : BitVec 3)
    (rest : List Byte) : readModRm a (encodeRm reg rm ++ rest) = some (reg, rm, rest) := by
  cases rm with
  | reg n =>
    obtain ⟨h1, h2, h3⟩ := fields233 0b11#2 reg n
    simp [encodeRm, readModRm, h1, h2, h3]
  | mem o =>
    obtain ⟨mod, rm, sib, disp⟩ := o
    obtain ⟨h1, h2, h3⟩ := fields233 mod reg rm
    simp only [wfRm, wfMem, Bool.and_eq_true, bne_iff_ne, beq_iff_eq] at h
    obtain ⟨⟨hm, hs⟩, hd⟩ := h
    cases sib with
    | none =>
      have hs' : needsSib a rm = false := by simpa using hs.symm
      simp [encodeRm, readModRm, readMem, h1, h2, h3, hm, hs', ← hd, readDisp_encodeDisp]
    | some sb =>
      have hs' : needsSib a rm = true := by simpa using hs.symm
      simp [encodeRm, readModRm, readMem, h1, h2, h3, hm, hs', sibOf_encodeSib, ← hd, readDisp_encodeDisp]

/-- The bytes read as ModRM and what follows are the operand's bytes. -/
theorem encodeRm_readModRm {a : AddrSize} {bs rest : List Byte} {reg : BitVec 3} {rm : Rm}
    (h : readModRm a bs = some (reg, rm, rest)) : encodeRm reg rm ++ rest = bs ∧ wfRm a rm = true := by
  cases bs with
  | nil => simp [readModRm] at h
  | cons b bs =>
    simp only [readModRm] at h
    split_ifs at h with hmod
    · simp only [Option.some.injEq, Prod.mk.injEq] at h
      obtain ⟨rfl, rfl, rfl⟩ := h
      refine ⟨?_, rfl⟩
      have := join233 b
      rw [hmod] at this
      simp [encodeRm, this]
    · simp only [Option.map_eq_some_iff, Prod.mk.injEq] at h
      obtain ⟨⟨o, bs'⟩, hm, rfl, rfl, rfl⟩ := h
      unfold readMem at hm
      split_ifs at hm with hsib
      · cases bs with
        | nil => simp at hm
        | cons c bs =>
          simp only [Option.map_eq_some_iff, Prod.mk.injEq] at hm
          obtain ⟨⟨d, bs''⟩, hd, rfl, rfl⟩ := hm
          obtain ⟨he, hk⟩ := encodeDisp_readDisp hd
          simp [encodeRm, encodeSib_sibOf, join233, he, wfRm, wfMem, hmod, hsib, hk]
      · simp only [Option.map_eq_some_iff, Prod.mk.injEq] at hm
        obtain ⟨⟨d, bs''⟩, hd, rfl, rfl⟩ := hm
        obtain ⟨he, hk⟩ := encodeDisp_readDisp hd
        simp [encodeRm, join233, he, wfRm, wfMem, hmod, hsib, hk]

/-! ## VEX and EVEX bytes -/

/-- A byte whose bits 7:6 are the complements of two bits that a mode allows makes a VEX or EVEX prefix. -/
theorem isVexByte_of {m : Mode} {b : Byte} {x y : Bool}
    (h : b.extractLsb' 6 2 = BitVec.ofBool (!x) ++ BitVec.ofBool (!y))
    (hm : m = .mode64 ∨ (x = false ∧ y = false)) : isVexByte m b = true := by
  unfold isVexByte
  rw [h]
  rcases hm with rfl | ⟨rfl, rfl⟩ <;> simp

/-- The fields of the two-byte VEX prefix are read back. -/
theorem encodeVex2_fields (v : Vex2) (l : Bool) :
    ∃ b : Byte, encodeVex2 v l = [0xC5#8, b] ∧ vex2Of b = v ∧ b.getLsbD 2 = l ∧ b.extractLsb' 0 2 = 0b00#2 ∧
      b.extractLsb' 6 2 = BitVec.ofBool (!v.r) ++ BitVec.ofBool (!v.vvvv.getLsbD 3) := by
  refine ⟨_, rfl, ?_⟩
  obtain ⟨r, v⟩ := v
  revert r v l
  decide

/-- The fields of the three-byte VEX prefix are read back. -/
theorem encodeVex3_fields (v : Vex3) (l : Bool) :
    ∃ b c : Byte, encodeVex3 v l = [0xC4#8, b, c] ∧ vex3Of b c = v ∧ c.getLsbD 2 = l ∧
      c.extractLsb' 0 2 = 0b00#2 ∧ b.extractLsb' 0 5 = 0b00001#5 ∧
      b.extractLsb' 6 2 = BitVec.ofBool (!v.r) ++ BitVec.ofBool (!v.x) ∧ c.getLsbD 6 = !v.vvvv.getLsbD 3 := by
  refine ⟨_, _, rfl, ?_⟩
  obtain ⟨r, x, b, w, v⟩ := v
  revert r x b w v l
  decide

/-- The fields of the EVEX prefix are read back. -/
theorem encodeEvex_fields (e : Evex) (ll : BitVec 2) (bc : Bool) :
    ∃ p0 p1 p2 : Byte, encodeEvex e ll bc = [0x62#8, p0, p1, p2] ∧
      evexOf p0 p1 p2 = e ∧ p2.extractLsb' 5 2 = ll ∧ p2.getLsbD 4 = bc ∧ p0.extractLsb' 0 2 = 0b01#2 ∧
      p1.extractLsb' 0 2 = 0b00#2 ∧ evexReserved p0 p1 = false ∧ p1.getLsbD 7 = false ∧
      p0.extractLsb' 6 2 = BitVec.ofBool (!e.r) ++ BitVec.ofBool (!e.x) ∧
      p0.getLsbD 5 = !e.b ∧ p0.getLsbD 4 = !e.rp ∧ p1.getLsbD 6 = !e.vvvv.getLsbD 3 ∧ p2.getLsbD 3 = !e.vp := by
  obtain ⟨r, x, b, rp, vp, z, v, aaa⟩ := e
  have h0 : ∀ r x b rp : Bool,
      let p0 : Byte := BitVec.ofBool (!r) ++ BitVec.ofBool (!x) ++ BitVec.ofBool (!b) ++
        BitVec.ofBool (!rp) ++ 0b0001#4
      (!p0.getLsbD 7) = r ∧ (!p0.getLsbD 6) = x ∧ p0.getLsbD 5 = !b ∧ p0.getLsbD 4 = !rp ∧
        p0.extractLsb' 0 2 = 0b01#2 ∧ p0.extractLsb' 2 2 = 0b00#2 ∧
        p0.extractLsb' 6 2 = BitVec.ofBool (!r) ++ BitVec.ofBool (!x) := by decide
  have h1 : ∀ v : BitVec 4,
      let p1 : Byte := 0b0#1 ++ ~~~v ++ 0b100#3
      ~~~(p1.extractLsb' 3 4) = v ∧ p1.extractLsb' 0 2 = 0b00#2 ∧ p1.getLsbD 2 = true ∧
        p1.getLsbD 7 = false ∧ p1.getLsbD 6 = !v.getLsbD 3 := by decide
  have h2 : ∀ (z bc vp : Bool) (ll : BitVec 2) (aaa : BitVec 3),
      let p2 : Byte := BitVec.ofBool z ++ ll ++ BitVec.ofBool bc ++ BitVec.ofBool (!vp) ++ aaa
      p2.getLsbD 7 = z ∧ p2.extractLsb' 5 2 = ll ∧ p2.getLsbD 4 = bc ∧ p2.getLsbD 3 = (!vp) ∧
        p2.extractLsb' 0 3 = aaa := by decide
  obtain ⟨a1, a2, a3, a4, a5, a6, a7⟩ := h0 r x b rp
  obtain ⟨b1, b2, b3, b4, b5⟩ := h1 v
  obtain ⟨c1, c2, c3, c4, c5⟩ := h2 z bc vp ll aaa
  refine ⟨_, _, _, rfl, ?_, c2, c3, a5, b2, ?_, b4, a7, a3, a4, b5, c4⟩
  · simp only [evexOf, a1, a2, a3, a4, b1, c1, c4, c5, Bool.not_not]
  · simp only [evexReserved, a6, b3]
    decide

end Sys2Proof
end

