-- ==== Sys2Proof/Laws/Flags.lean ====
section
/-! SUPPORT. Sets of conditions, the bits of `MXCSR`, and the set that an unmasked condition leaves set. -/

namespace Sys2Proof

/-- A set with no member is the empty set. -/
theorem FpFlags.isEmpty_iff (f : FpFlags) : f.isEmpty = true ↔ f = FpFlags.none := by
  rcases f with ⟨_ | _, _ | _, _ | _, _ | _, _ | _⟩ <;> decide

@[simp] theorem FpFlags.union_none (f : FpFlags) : f.union FpFlags.none = f := by
  simp [FpFlags.union, FpFlags.none]

@[simp] theorem FpFlags.none_union (f : FpFlags) : FpFlags.none.union f = f := by
  simp [FpFlags.union, FpFlags.none]

end Sys2Proof

namespace Sys2Proof.Machine

@[simp] theorem flagBits_none : flagBits FpFlags.none = 0#32 := by decide

@[simp] theorem unmasked_none (mx : Dword) : unmasked mx FpFlags.none = FpFlags.none := by
  simp [unmasked, FpFlags.none]

/-- The flags lie in `MXCSR[5:0]`, and ZE is not among them. -/
theorem flagBits_high (f : FpFlags) : (flagBits f).extractLsb' 6 26 = 0#26 ∧ (flagBits f).getLsbD 2 = false := by
  rcases f with ⟨_ | _, _ | _, _ | _, _ | _, _ | _⟩ <;> decide

/-- Setting flags leaves `MXCSR[31:6]`. -/
theorem or_flagBits_high (mx : Dword) (f : FpFlags) :
    (mx ||| flagBits f).extractLsb' 6 26 = mx.extractLsb' 6 26 := by
  rw [BitVec.extractLsb'_or, (flagBits_high f).1, BitVec.or_zero]

/-- Setting flags leaves ZE. -/
theorem or_flagBits_ze (mx : Dword) (f : FpFlags) : (mx ||| flagBits f).getLsbD 2 = mx.getLsbD 2 := by
  rw [BitVec.getLsbD_or, (flagBits_high f).2, Bool.or_false]

/-- Setting flags leaves the reserved bits of `MXCSR`. -/
theorem mxReserved_or_flagBits (mx : Dword) (f : FpFlags) : mxReserved (mx ||| flagBits f) = mxReserved mx := by
  have h : ∀ m : Dword, mxReserved m = (m.extractLsb' 6 26).extractLsb' 10 16 := by
    intro m
    ext i hi
    have h : 10 + i < 26 := by omega
    simp [mxReserved, h, ← Nat.add_assoc]
  rw [h, h, or_flagBits_high]

/-- Setting flags clears no bit. -/
theorem and_or_flagBits (mx : Dword) (f : FpFlags) : mx &&& (mx ||| flagBits f) = mx := by
  ext i hi
  simpa using Or.inl

/-- The two-phase set lies within the bounds of 60_exceptions.md rule R203. -/
theorem twoPhase_bounds (f u : FpFlags) (hu : u.inter f = u) (hne : u ≠ FpFlags.none) :
    (twoPhase f u).inter f = twoPhase f u ∧ (twoPhase f u).inter u ≠ FpFlags.none := by
  revert hu hne
  rcases f with ⟨_ | _, _ | _, _ | _, _ | _, _ | _⟩ <;> revert u <;>
    rintro ⟨_ | _, _ | _, _ | _, _ | _, _ | _⟩ <;> decide

theorem FpFlags.inter_idem (c f : FpFlags) : (c.inter f).inter f = c.inter f := by
  simp [FpFlags.inter]

/-- What `faultFlags` gives lies within the bounds of 60_exceptions.md rule R203. -/
theorem faultFlags_bounds (c f u : FpFlags) (hu : u.inter f = u) (hne : u ≠ FpFlags.none) :
    (faultFlags c f u).inter f = faultFlags c f u ∧ (faultFlags c f u).inter u ≠ FpFlags.none := by
  unfold faultFlags
  split_ifs with h
  · exact twoPhase_bounds f u hu hne
  · rw [FpFlags.isEmpty_iff] at h
    exact ⟨FpFlags.inter_idem c f, h⟩

/-- The unmasked conditions are among the signalled ones. -/
theorem unmasked_inter (mx : Dword) (f : FpFlags) : (unmasked mx f).inter f = unmasked mx f := by
  simp only [unmasked, FpFlags.inter, FpFlags.mk.injEq]
  refine ⟨?_, ?_, ?_, ?_, ?_⟩ <;> cases f <;> simp [Bool.and_comm]

/-- Conditions are all masked when the set of unmasked ones is empty. -/
theorem allMasked_iff (s : State) (f : FpFlags) : (unmasked s.mxcsr f).isEmpty = true ↔ AllMasked s f :=
  FpFlags.isEmpty_iff _

end Sys2Proof.Machine
end

