-- ==== Sys2Proof/Laws/Elements.lean ====
section
/-! SUPPORT. What the element-by-element subtraction gives: each element, and the union of their conditions. -/

namespace Sys2Proof.Machine

/-- A condition is in a union over a list when an element of the list signals it. -/
theorem foldr_union (g : Fin 16 → FpFlags) (π : FpFlags → Bool) (hn : π FpFlags.none = false)
    (hu : ∀ f h : FpFlags, π (f.union h) = (π f || π h)) (l : List (Fin 16)) :
    π (l.foldr (fun j f => (g j).union f) FpFlags.none) = true ↔ ∃ j ∈ l, π (g j) = true := by
  induction l with
  | nil => simp [hn]
  | cons j l ih => simp [hu, ih]

/-- A condition is in the union over all elements when some element signals it. -/
theorem unionAll_iff (g : Fin 16 → FpFlags) (π : FpFlags → Bool) (hn : π FpFlags.none = false)
    (hu : ∀ f h : FpFlags, π (f.union h) = (π f || π h)) :
    π (unionAll g) = true ↔ ∃ j, π (g j) = true := by
  simpa [unionAll] using foldr_union g π hn hu (List.finRange 16)

/-- The element at `j` of an execution. -/
theorem elements_getElem (c : Control) (vl : VLen) (act : Nat → Bool) (masked a b : Lanes) (j : Fin 16) :
    (elements c vl act masked a b).1[j] =
      if j.val < vlLanes vl ∧ act j.val = true then (laneOf c a[j] b[j]).1 else masked[j] := by
  simp [elements, element, apply_ite Prod.fst]

/-- The conditions of an execution are those of its active elements. -/
theorem elements_signalled (c : Control) (vl : VLen) (act : Nat → Bool) (masked a b : Lanes) :
    SignalledBy (elements c vl act masked a b).2 (vlLanes vl) act (fun j => (laneOf c a[j] b[j]).2) := by
  have key : ∀ π : FpFlags → Bool, π FpFlags.none = false →
      (∀ f h : FpFlags, π (f.union h) = (π f || π h)) →
      (π (elements c vl act masked a b).2 = true ↔
        ∃ j : Fin 16, j.val < vlLanes vl ∧ act j.val = true ∧ π (laneOf c a[j] b[j]).2 = true) := by
    intro π hn hu
    rw [show (elements c vl act masked a b).2 = unionAll fun j =>
        (element c (fun j => decide (j < vlLanes vl) && act j) masked a b j).2 from rfl, unionAll_iff _ π hn hu]
    refine exists_congr fun j => ?_
    unfold element
    split_ifs with h
    · simp only [Bool.and_eq_true, decide_eq_true_eq] at h
      simp [h.1, h.2]
    · simp only [Bool.and_eq_true, decide_eq_true_eq] at h
      simp only [hn, Bool.false_eq_true, false_iff]
      exact fun h' => h ⟨h'.1, h'.2.1⟩
  exact ⟨key (·.ie) rfl fun _ _ => rfl, key (·.de) rfl fun _ _ => rfl, key (·.oe) rfl fun _ _ => rfl,
    key (·.ue) rfl fun _ _ => rfl, key (·.pe) rfl fun _ _ => rfl⟩

/-- A set is determined by the elements that signal it. -/
theorem SignalledBy.unique {F G : FpFlags} {kl : Nat} {act : Nat → Bool} {f : Fin 16 → FpFlags}
    (hF : SignalledBy F kl act f) (hG : SignalledBy G kl act f) : F = G := by
  cases F
  cases G
  simp only [FpFlags.mk.injEq]
  exact ⟨Bool.eq_iff_iff.2 (hF.ie.trans hG.ie.symm), Bool.eq_iff_iff.2 (hF.de.trans hG.de.symm),
    Bool.eq_iff_iff.2 (hF.oe.trans hG.oe.symm), Bool.eq_iff_iff.2 (hF.ue.trans hG.ue.symm),
    Bool.eq_iff_iff.2 (hF.pe.trans hG.pe.symm)⟩

/-- All conditions are masked when each of the five is masked or not signalled. -/
theorem allMasked_iff_each (s : State) (f : FpFlags) :
    AllMasked s f ↔ (f.ie = true → s.mxcsr.getLsbD 7 = true) ∧ (f.de = true → s.mxcsr.getLsbD 8 = true) ∧
      (f.oe = true → s.mxcsr.getLsbD 10 = true) ∧ (f.ue = true → s.mxcsr.getLsbD 11 = true) ∧
      (f.pe = true → s.mxcsr.getLsbD 12 = true) := by
  simp [AllMasked, unmasked, FpFlags.none]

/-- The union of the conditions is masked when those of every active element are. -/
theorem SignalledBy.allMasked_iff {F : FpFlags} {kl : Nat} {act : Nat → Bool} {f : Fin 16 → FpFlags}
    (h : SignalledBy F kl act f) (s : State) : AllMasked s F ↔ LanesMasked s kl act f := by
  simp only [LanesMasked, allMasked_iff_each]
  rw [h.ie, h.de, h.oe, h.ue, h.pe]
  constructor
  · rintro ⟨h1, h2, h3, h4, h5⟩ j hj ha
    exact ⟨fun h => h1 ⟨j, hj, ha, h⟩, fun h => h2 ⟨j, hj, ha, h⟩, fun h => h3 ⟨j, hj, ha, h⟩,
      fun h => h4 ⟨j, hj, ha, h⟩, fun h => h5 ⟨j, hj, ha, h⟩⟩
  · intro h'
    exact ⟨fun ⟨j, hj, ha, h⟩ => (h' j hj ha).1 h, fun ⟨j, hj, ha, h⟩ => (h' j hj ha).2.1 h,
      fun ⟨j, hj, ha, h⟩ => (h' j hj ha).2.2.1 h, fun ⟨j, hj, ha, h⟩ => (h' j hj ha).2.2.2.1 h,
      fun ⟨j, hj, ha, h⟩ => (h' j hj ha).2.2.2.2 h⟩

/-- Only active elements reach the result. -/
theorem elements_congr (c : Control) (vl : VLen) (act : Nat → Bool) (masked a b a' b' : Lanes)
    (h : ∀ j : Fin 16, j.val < vlLanes vl → act j.val = true → a[j] = a'[j] ∧ b[j] = b'[j]) :
    elements c vl act masked a b = elements c vl act masked a' b' := by
  have key : ∀ j : Fin 16, element c (fun j => decide (j < vlLanes vl) && act j) masked a b j =
      element c (fun j => decide (j < vlLanes vl) && act j) masked a' b' j := by
    intro j
    unfold element
    split_ifs with hj
    · simp only [Bool.and_eq_true, decide_eq_true_eq] at hj
      rw [(h j hj.1 hj.2).1, (h j hj.1 hj.2).2]
    · rfl
  unfold elements
  simp only [key]

/-- An element of the zero-extension to `MAX_VL`. -/
theorem zextMaxVl_getElem (c : Config) (vl : VLen) (r : Lanes) (j : Fin 16) :
    (zextMaxVl c vl r)[j] = if j.val < vlLanes vl ∧ j.val < vlLanes c.maxVl then r[j] else 0#32 := by
  simp [zextMaxVl]

/-- An element of a register whose low 128 bits are replaced. -/
theorem replaceLow128_getElem (old r : Lanes) (j : Fin 16) :
    (replaceLow128 old r)[j] = if j.val < 4 then r[j] else old[j] := by
  simp [replaceLow128]

end Sys2Proof.Machine
end

