-- ==== Sys2Proof/Laws/State.lean ====
section
/-! SUPPORT. One lemma a field for each update of the state, and what reading a register gives after one. -/

namespace Sys2Proof.Machine

/-! ## `complete` -/

@[simp] theorem complete_cfg (s : State) (d : BitVec 5) (v : Lanes) (mx : Dword) (evs : List ReadEvent) (n : Nat) :
    (complete s d v mx evs n).cfg = s.cfg := rfl

@[simp] theorem complete_mode (s : State) (d : BitVec 5) (v : Lanes) (mx : Dword) (evs : List ReadEvent) (n : Nat) :
    (complete s d v mx evs n).mode = s.mode := rfl

@[simp] theorem complete_cpl (s : State) (d : BitVec 5) (v : Lanes) (mx : Dword) (evs : List ReadEvent) (n : Nat) :
    (complete s d v mx evs n).cpl = s.cpl := rfl

@[simp] theorem complete_zmm (s : State) (d : BitVec 5) (v : Lanes) (mx : Dword) (evs : List ReadEvent) (n : Nat) :
    (complete s d v mx evs n).zmm = s.zmm.set d.toNat v d.isLt := rfl

@[simp] theorem complete_k (s : State) (d : BitVec 5) (v : Lanes) (mx : Dword) (evs : List ReadEvent) (n : Nat) :
    (complete s d v mx evs n).k = s.k := rfl

@[simp] theorem complete_mxcsr (s : State) (d : BitVec 5) (v : Lanes) (mx : Dword) (evs : List ReadEvent) (n : Nat) :
    (complete s d v mx evs n).mxcsr = mx := rfl

@[simp] theorem complete_gpr (s : State) (d : BitVec 5) (v : Lanes) (mx : Dword) (evs : List ReadEvent) (n : Nat) :
    (complete s d v mx evs n).gpr = s.gpr := rfl

@[simp] theorem complete_pc (s : State) (d : BitVec 5) (v : Lanes) (mx : Dword) (evs : List ReadEvent) (n : Nat) :
    (complete s d v mx evs n).pc = nextPc s n := rfl

@[simp] theorem complete_eflags (s : State) (d : BitVec 5) (v : Lanes) (mx : Dword) (evs : List ReadEvent) (n : Nat) :
    (complete s d v mx evs n).eflags = s.eflags := rfl

@[simp] theorem complete_cr0 (s : State) (d : BitVec 5) (v : Lanes) (mx : Dword) (evs : List ReadEvent) (n : Nat) :
    (complete s d v mx evs n).cr0 = s.cr0 := rfl

@[simp] theorem complete_cr2 (s : State) (d : BitVec 5) (v : Lanes) (mx : Dword) (evs : List ReadEvent) (n : Nat) :
    (complete s d v mx evs n).cr2 = s.cr2 := rfl

@[simp] theorem complete_cr4 (s : State) (d : BitVec 5) (v : Lanes) (mx : Dword) (evs : List ReadEvent) (n : Nat) :
    (complete s d v mx evs n).cr4 = s.cr4 := rfl

@[simp] theorem complete_xcr0 (s : State) (d : BitVec 5) (v : Lanes) (mx : Dword) (evs : List ReadEvent) (n : Nat) :
    (complete s d v mx evs n).xcr0 = s.xcr0 := rfl

@[simp] theorem complete_segs (s : State) (d : BitVec 5) (v : Lanes) (mx : Dword) (evs : List ReadEvent) (n : Nat) :
    (complete s d v mx evs n).segs = s.segs := rfl

@[simp] theorem complete_fsBase (s : State) (d : BitVec 5) (v : Lanes) (mx : Dword) (evs : List ReadEvent) (n : Nat) :
    (complete s d v mx evs n).fsBase = s.fsBase := rfl

@[simp] theorem complete_gsBase (s : State) (d : BitVec 5) (v : Lanes) (mx : Dword) (evs : List ReadEvent) (n : Nat) :
    (complete s d v mx evs n).gsBase = s.gsBase := rfl

@[simp] theorem complete_regions (s : State) (d : BitVec 5) (v : Lanes) (mx : Dword) (evs : List ReadEvent) (n : Nat) :
    (complete s d v mx evs n).regions = s.regions := rfl

@[simp] theorem complete_mem (s : State) (d : BitVec 5) (v : Lanes) (mx : Dword) (evs : List ReadEvent) (n : Nat) :
    (complete s d v mx evs n).mem = s.mem := rfl

@[simp] theorem complete_oracle (s : State) (d : BitVec 5) (v : Lanes) (mx : Dword) (evs : List ReadEvent) (n : Nat) :
    (complete s d v mx evs n).oracle = s.oracle := rfl

@[simp] theorem complete_history (s : State) (d : BitVec 5) (v : Lanes) (mx : Dword) (evs : List ReadEvent) (n : Nat) :
    (complete s d v mx evs n).history = s.history ++ evs := rfl

@[simp] theorem complete_faults (s : State) (d : BitVec 5) (v : Lanes) (mx : Dword) (evs : List ReadEvent) (n : Nat) :
    (complete s d v mx evs n).faults = s.faults := rfl

/-- The destination entry holds what was written. -/
@[simp] theorem complete_readZmm_same (s : State) (d : BitVec 5) (v : Lanes) (mx : Dword) (evs : List ReadEvent)
    (n : Nat) : (complete s d v mx evs n).readZmm d = v := by
  simp [State.readZmm]

/-- Every other entry is unchanged. -/
theorem complete_readZmm_other (s : State) (d e : BitVec 5) (v : Lanes) (mx : Dword) (evs : List ReadEvent)
    (n : Nat) (h : e ≠ d) : (complete s d v mx evs n).readZmm e = s.readZmm e := by
  have : d.toNat ≠ e.toNat := fun h' => h (BitVec.eq_of_toNat_eq h'.symm)
  simp [State.readZmm, this]

@[simp] theorem complete_readK (s : State) (d : BitVec 5) (v : Lanes) (mx : Dword) (evs : List ReadEvent)
    (n : Nat) (m : BitVec 3) : (complete s d v mx evs n).readK m = s.readK m := rfl

@[simp] theorem complete_readGpr (s : State) (d : BitVec 5) (v : Lanes) (mx : Dword) (evs : List ReadEvent)
    (n : Nat) (m : BitVec 4) : (complete s d v mx evs n).readGpr m = s.readGpr m := rfl

/-! ## `placeProgram` -/

@[simp] theorem placeProgram_cfg (s : State) (bs : List Byte) : (placeProgram s bs).cfg = s.cfg := rfl

@[simp] theorem placeProgram_mode (s : State) (bs : List Byte) : (placeProgram s bs).mode = s.mode := rfl

@[simp] theorem placeProgram_cpl (s : State) (bs : List Byte) : (placeProgram s bs).cpl = s.cpl := rfl

@[simp] theorem placeProgram_zmm (s : State) (bs : List Byte) : (placeProgram s bs).zmm = s.zmm := rfl

@[simp] theorem placeProgram_k (s : State) (bs : List Byte) : (placeProgram s bs).k = s.k := rfl

@[simp] theorem placeProgram_mxcsr (s : State) (bs : List Byte) : (placeProgram s bs).mxcsr = s.mxcsr := rfl

@[simp] theorem placeProgram_gpr (s : State) (bs : List Byte) : (placeProgram s bs).gpr = s.gpr := rfl

@[simp] theorem placeProgram_pc (s : State) (bs : List Byte) : (placeProgram s bs).pc = s.pc := rfl

@[simp] theorem placeProgram_eflags (s : State) (bs : List Byte) : (placeProgram s bs).eflags = s.eflags := rfl

@[simp] theorem placeProgram_cr0 (s : State) (bs : List Byte) : (placeProgram s bs).cr0 = s.cr0 := rfl

@[simp] theorem placeProgram_cr2 (s : State) (bs : List Byte) : (placeProgram s bs).cr2 = s.cr2 := rfl

@[simp] theorem placeProgram_cr4 (s : State) (bs : List Byte) : (placeProgram s bs).cr4 = s.cr4 := rfl

@[simp] theorem placeProgram_xcr0 (s : State) (bs : List Byte) : (placeProgram s bs).xcr0 = s.xcr0 := rfl

@[simp] theorem placeProgram_segs (s : State) (bs : List Byte) : (placeProgram s bs).segs = s.segs := rfl

@[simp] theorem placeProgram_fsBase (s : State) (bs : List Byte) : (placeProgram s bs).fsBase = s.fsBase := rfl

@[simp] theorem placeProgram_gsBase (s : State) (bs : List Byte) : (placeProgram s bs).gsBase = s.gsBase := rfl

@[simp] theorem placeProgram_regions (s : State) (bs : List Byte) : (placeProgram s bs).regions = s.regions := rfl

@[simp] theorem placeProgram_mem (s : State) (bs : List Byte) : (placeProgram s bs).mem = placeFrom s 0 bs s.mem := rfl

@[simp] theorem placeProgram_oracle (s : State) (bs : List Byte) : (placeProgram s bs).oracle = s.oracle := rfl

@[simp] theorem placeProgram_history (s : State) (bs : List Byte) : (placeProgram s bs).history = s.history := rfl

@[simp] theorem placeProgram_faults (s : State) (bs : List Byte) : (placeProgram s bs).faults = s.faults := rfl

/-! ## `booted` -/

@[simp] theorem booted_cfg (s : State) : s.booted.cfg = s.cfg := rfl

@[simp] theorem booted_mode (s : State) : s.booted.mode = .mode64 := rfl

@[simp] theorem booted_cpl (s : State) : s.booted.cpl = s.cpl := rfl

@[simp] theorem booted_zmm (s : State) : s.booted.zmm = s.zmm := rfl

@[simp] theorem booted_k (s : State) : s.booted.k = s.k := rfl

@[simp] theorem booted_mxcsr (s : State) : s.booted.mxcsr = s.mxcsr := rfl

@[simp] theorem booted_gpr (s : State) : s.booted.gpr = s.gpr := rfl

@[simp] theorem booted_pc (s : State) : s.booted.pc = s.pc := rfl

@[simp] theorem booted_eflags (s : State) : s.booted.eflags = s.eflags := rfl

@[simp] theorem booted_cr0 (s : State) : s.booted.cr0 = (s.cr0 &&& 0xFFFFFFF3#32) ||| 0x00000002#32 := rfl

@[simp] theorem booted_cr2 (s : State) : s.booted.cr2 = s.cr2 := rfl

@[simp] theorem booted_cr4 (s : State) : s.booted.cr4 = s.cr4 ||| 0x00040600#32 := rfl

@[simp] theorem booted_xcr0 (s : State) : s.booted.xcr0 = s.xcr0 ||| 0xE7#64 := rfl

@[simp] theorem booted_segs (s : State) : s.booted.segs = s.segs := rfl

@[simp] theorem booted_fsBase (s : State) : s.booted.fsBase = s.fsBase := rfl

@[simp] theorem booted_gsBase (s : State) : s.booted.gsBase = s.gsBase := rfl

@[simp] theorem booted_regions (s : State) : s.booted.regions = s.regions := rfl

@[simp] theorem booted_mem (s : State) : s.booted.mem = s.mem := rfl

@[simp] theorem booted_oracle (s : State) : s.booted.oracle = s.oracle := rfl

@[simp] theorem booted_history (s : State) : s.booted.history = s.history := rfl

@[simp] theorem booted_faults (s : State) : s.booted.faults = s.faults := rfl

/-! ## `init` -/

@[simp] theorem init_cfg (s : State) : s.init.cfg = s.cfg := rfl

@[simp] theorem init_mode (s : State) : s.init.mode = State.reset.mode := rfl

@[simp] theorem init_cpl (s : State) : s.init.cpl = State.reset.cpl := rfl

@[simp] theorem init_zmm (s : State) : s.init.zmm = s.zmm := rfl

@[simp] theorem init_k (s : State) : s.init.k = s.k := rfl

@[simp] theorem init_mxcsr (s : State) : s.init.mxcsr = s.mxcsr := rfl

@[simp] theorem init_gpr (s : State) : s.init.gpr = State.reset.gpr := rfl

@[simp] theorem init_pc (s : State) : s.init.pc = State.reset.pc := rfl

@[simp] theorem init_eflags (s : State) : s.init.eflags = State.reset.eflags := rfl

@[simp] theorem init_cr0 (s : State) : s.init.cr0 = (s.cr0 &&& 0x60000000#32) ||| 0x00000010#32 := rfl

@[simp] theorem init_cr2 (s : State) : s.init.cr2 = State.reset.cr2 := rfl

@[simp] theorem init_cr4 (s : State) : s.init.cr4 = State.reset.cr4 := rfl

@[simp] theorem init_xcr0 (s : State) : s.init.xcr0 = s.xcr0 := rfl

@[simp] theorem init_segs (s : State) : s.init.segs = State.reset.segs := rfl

@[simp] theorem init_fsBase (s : State) : s.init.fsBase = State.reset.fsBase := rfl

@[simp] theorem init_gsBase (s : State) : s.init.gsBase = State.reset.gsBase := rfl

@[simp] theorem init_regions (s : State) : s.init.regions = s.regions := rfl

@[simp] theorem init_mem (s : State) : s.init.mem = s.mem := rfl

@[simp] theorem init_oracle (s : State) : s.init.oracle = s.oracle := rfl

@[simp] theorem init_history (s : State) : s.init.history = s.history := rfl

@[simp] theorem init_faults (s : State) : s.init.faults = s.faults := rfl

end Sys2Proof.Machine
end

