-- ==== Sys2Proof/Laws/Ops.lean ====
section
/-! SUPPORT. For each shared operation, what it can do, said once. -/

namespace Sys2Proof.Machine

/-! ## Sequencing and raising -/

@[simp] theorem andThen_next {α β : Type} (a : α) (f : α → Host.Outcome β Fault Refusal) :
    andThen (.next a) f = f a := rfl

@[simp] theorem andThen_fault {α β : Type} (e : Fault) (f : α → Host.Outcome β Fault Refusal) :
    andThen (.fault e) f = .fault e := rfl

@[simp] theorem andThen_refused {α β : Type} (r : Refusal) (f : α → Host.Outcome β Fault Refusal) :
    andThen (.refused r) f = .refused r := rfl

/-- A sequence answers a value when both parts do. -/
theorem andThen_eq_next {α β : Type} {o : Host.Outcome α Fault Refusal} {f : α → Host.Outcome β Fault Refusal}
    {b : β} : andThen o f = .next b ↔ ∃ a, o = .next a ∧ f a = .next b := by
  cases o <;> simp

/-- A sequence faults when its first part does, or its first part answers and the second faults. -/
theorem andThen_eq_fault {α β : Type} {o : Host.Outcome α Fault Refusal} {f : α → Host.Outcome β Fault Refusal}
    {e : Fault} : andThen o f = .fault e ↔ o = .fault e ∨ ∃ a, o = .next a ∧ f a = .fault e := by
  cases o <;> simp

/-- Sequencing is associative. -/
theorem andThen_assoc {α β γ : Type} (o : Host.Outcome α Fault Refusal) (f : α → Host.Outcome β Fault Refusal)
    (g : β → Host.Outcome γ Fault Refusal) :
    andThen (andThen o f) g = andThen o fun a => andThen (f a) g := by
  cases o <;> rfl

theorem raise_eq {α : Type} (mk : State → Fault) (s : State) :
    raise (α := α) mk s = .fault (mk { s with faults := s.faults + 1 }) := rfl

/-! ## `enter` -/

/-- An instruction that is ready goes on to its operation. -/
theorem enter_of_ready {ud : Bool} {s : State} (h : Ready ud s) (body : Host.Outcome State Fault Refusal) :
    enter ud s body = body := by
  obtain ⟨h1, h2, h3, h4⟩ := h
  simp [enter, h1, h2, h3, h4]

/-- Only an instruction that is ready answers a next state. -/
theorem enter_eq_next {ud : Bool} {s t : State} {body : Host.Outcome State Fault Refusal} :
    enter ud s body = .next t ↔ Ready ud s ∧ body = .next t := by
  unfold enter Ready raise
  split_ifs <;> simp_all

/-- The faults before an operation are #UD and #NM. -/
theorem enter_eq_fault {ud : Bool} {s : State} {body : Host.Outcome State Fault Refusal} {e : Fault} :
    enter ud s body = .fault e →
      (ud = true ∧ e = .ud { s with faults := s.faults + 1 }) ∨
      (ud = false ∧ e = .nm { s with faults := s.faults + 1 }) ∨ (Ready ud s ∧ body = .fault e) := by
  unfold enter Ready raise
  split_ifs <;> simp_all

/-! ## `deliverFp` -/

/-- Numeric conditions let a step complete when all are masked, and then their flags are set. -/
theorem deliverFp_eq_next {s : State} {f : FpFlags} {mx : Dword} :
    deliverFp s f = .next mx ↔ AllMasked s f ∧ mx = s.mxcsr ||| flagBits f := by
  unfold deliverFp raise
  simp only
  by_cases h : AllMasked s f
  · rw [if_pos ((allMasked_iff s f).2 h)]
    simp [h, eq_comm]
  · rw [if_neg (fun h' => h ((allMasked_iff s f).1 h'))]
    split_ifs <;> simp [h]

/-- An unmasked numeric condition ends the step in `#XM` or `#UD`, with flags set within the bounds of
60_exceptions.md rule R203. -/
theorem deliverFp_of_unmasked {s : State} {f : FpFlags} (h : ¬ AllMasked s f) :
    ∃ g : FpFlags, g.inter f = g ∧ g.inter (unmasked s.mxcsr f) ≠ FpFlags.none ∧
      deliverFp s f = .fault ((if s.osxmmexcpt then Fault.xm else Fault.ud)
        { s with mxcsr := s.mxcsr ||| flagBits g, faults := s.faults + 1 }) := by
  refine ⟨faultFlags (Config.freeFlags s.faults) f (unmasked s.mxcsr f), ?_⟩
  have hb := faultFlags_bounds (Config.freeFlags s.faults) f (unmasked s.mxcsr f) (unmasked_inter _ _) h
  refine ⟨hb.1, hb.2, ?_⟩
  unfold deliverFp raise
  simp only
  rw [if_neg (fun h' => h ((allMasked_iff s f).1 h'))]
  cases hx : s.osxmmexcpt <;> simp_all [State.osxmmexcpt]

/-! ## Memory -/

@[simp] theorem Memory.read_nil (a : Nat) : Memory.read [] a = Memory.unlisted := rfl

theorem Memory.read_cons (c : Host.Cell) (m : List Host.Cell) (a : Nat) :
    Memory.read (c :: m) a = if a = c.1 then c.2 else Memory.read m a := rfl

/-- An address below every listed one reads as unlisted. -/
theorem Memory.read_of_lt {m : List Host.Cell} {a : Nat} (h : ∀ c ∈ m, a < c.1) :
    Memory.read m a = Memory.unlisted := by
  induction m with
  | nil => rfl
  | cons c m ih =>
    have := h c (by simp)
    rw [Memory.read_cons, if_neg (by omega), ih fun d hd => h d (by simp [hd])]

/-- The addresses listed after a write are the old ones and the one written. -/
theorem Memory.mem_write {m : List Host.Cell} {a : Nat} {v : Byte} {c : Host.Cell}
    (h : c ∈ Memory.write m a v) : c = (a, v) ∧ v ≠ Memory.unlisted ∨ c ∈ m := by
  induction m with
  | nil => unfold Memory.write at h; split at h <;> simp_all
  | cons d m ih =>
    have key : c ∈ Memory.write m a v → c = (a, v) ∧ v ≠ Memory.unlisted ∨ c ∈ d :: m := fun hc =>
      (ih hc).imp id (List.mem_cons_of_mem d)
    unfold Memory.write at h
    split_ifs at h with h1 h2 h3 h4
    · exact .inr h
    · rcases List.mem_cons.1 h with h | h
      · exact .inl ⟨h, h2⟩
      · exact .inr h
    · exact .inr (List.mem_cons_of_mem d h)
    · rcases List.mem_cons.1 h with h | h
      · exact .inl ⟨h, h4⟩
      · exact .inr (List.mem_cons_of_mem d h)
    · rcases List.mem_cons.1 h with h | h
      · exact .inr (h ▸ List.mem_cons_self)
      · exact key h

/-- A write keeps the canonical form. -/
theorem Memory.write_wf {m : List Host.Cell} (h : Memory.wf m) (a : Nat) (v : Byte) :
    Memory.wf (Memory.write m a v) := by
  induction m with
  | nil => unfold Memory.write; split <;> simp_all [Memory.wf]
  | cons d m ih =>
    obtain ⟨hp, hz⟩ := h
    rw [List.pairwise_cons] at hp
    have hm : Memory.wf m := ⟨hp.2, fun c hc => hz c (by simp [hc])⟩
    unfold Memory.write
    split_ifs with h1 h2 h3 h4
    · exact ⟨List.pairwise_cons.2 hp, hz⟩
    · refine ⟨List.pairwise_cons.2 ⟨fun c hc => ?_, List.pairwise_cons.2 hp⟩, ?_⟩
      · rcases List.mem_cons.1 hc with rfl | hc
        · exact h1
        · exact lt_trans h1 (hp.1 c hc)
      · intro c hc
        rcases List.mem_cons.1 hc with rfl | hc
        · exact h2
        · exact hz c hc
    · exact hm
    · refine ⟨List.pairwise_cons.2 ⟨fun c hc => ?_, hp.2⟩, ?_⟩
      · have := hp.1 c hc
        simp only at this ⊢
        omega
      · intro c hc
        rcases List.mem_cons.1 hc with rfl | hc
        · exact h4
        · exact hm.2 c hc
    · refine ⟨List.pairwise_cons.2 ⟨fun c hc => ?_, (ih hm).1⟩, ?_⟩
      · rcases Memory.mem_write hc with ⟨rfl, _⟩ | hc
        · simp only at h1 h3 ⊢; omega
        · exact hp.1 c hc
      · intro c hc
        rcases List.mem_cons.1 hc with rfl | hc
        · exact hz _ (by simp)
        · exact (ih hm).2 c hc

/-- Placing a program keeps the canonical form. -/
theorem placeFrom_wf (s : State) (bs : List Byte) : ∀ (k : Nat) (m : List Host.Cell), Memory.wf m →
    Memory.wf (placeFrom s k bs m) := by
  induction bs with
  | nil => intro k m h; exact h
  | cons b bs ih => intro k m h; exact ih _ _ (Memory.write_wf h _ _)

/-! ## Translation and reading -/

/-- Translation answers when no byte has a fault. -/
theorem translate_eq_next {s : State} {acc : Access} {seg : SegName} {offs : List Qword} {ps : List Nat} :
    translate s acc seg offs = .next ps ↔
      (∀ o ∈ offs, byteFault s acc seg o = none) ∧ ps = offs.map fun o => physical s (linear s seg o) := by
  unfold translate
  have key : offs.filterMap (byteFault s acc seg) = [] ↔ ∀ o ∈ offs, byteFault s acc seg o = none := by
    simp [List.filterMap_eq_nil_iff]
  split
  · next h =>
    constructor
    · intro h'
      simp only [Host.Outcome.next.injEq] at h'
      exact ⟨key.1 h, h'.symm⟩
    · rintro ⟨-, rfl⟩
      rfl
  · next f fs h =>
    constructor
    · intro h'
      exfalso
      revert h'
      unfold raiseByte raise
      split <;> simp
    · rintro ⟨h', -⟩
      rw [key.2 h'] at h
      exact absurd h (by simp)

/-- The byte reported is one of the faulting bytes. -/
theorem pickFault_mem (f : ByteFault) (fs : List ByteFault) (n : Nat) : pickFault f fs n ∈ f :: fs := by
  unfold pickFault
  have h : n % (fs.length + 1) < (f :: fs).length := by
    simpa using Nat.mod_lt n (Nat.succ_pos fs.length)
  rw [List.getD_eq_getElem _ _ h]
  exact List.getElem_mem h

/-- A translation that does not answer raises the exception of one of its bytes. -/
theorem translate_of_fault {s : State} {acc : Access} {seg : SegName} {offs : List Qword}
    (h : ∃ o ∈ offs, byteFault s acc seg o ≠ none) :
    ∃ o ∈ offs, ∃ f, byteFault s acc seg o = some f ∧ translate s acc seg offs = raiseByte f s := by
  unfold translate
  split
  · next hn =>
    obtain ⟨o, ho, hf⟩ := h
    rw [List.filterMap_eq_nil_iff] at hn
    exact absurd (hn o ho) hf
  · next f fs hf =>
    have hp := pickFault_mem f fs (Config.freePick s.faults)
    rw [← hf, List.mem_filterMap] at hp
    obtain ⟨o, ho, he⟩ := hp
    exact ⟨o, ho, _, he, rfl⟩

/-- The segment checks pass exactly where the offset is in its segment. -/
theorem segFault_eq_none {s : State} {seg : SegName} {off : Qword} :
    segFault s seg off = none ↔ InSegment s seg off := by
  unfold segFault InSegment
  cases hm : s.mode <;> simp only [reduceCtorEq, if_true, if_false] <;> split_ifs <;> simp_all

/-- An operand whose bytes can be read, and that does not trap for its alignment, is read. -/
theorem memRead_of_accessible {s : State} {seg : SegName} {a : AddrSize} {off : Qword} {n : Nat} {ks : List Nat}
    {bc : Bool} (h : Accessible s seg a off ks)
    (ht : ks = [] ∨ mayTrapAlign s (linear s seg off) n = false ∨
      Config.freeTrap (s.history.length + s.faults) = false) :
    memRead s seg a off n ks bc = .next (readOf s seg a off ks (bc && oneAccess s seg off ks)) := by
  have htr : translate s .read seg (ks.map (byteOffset s a off)) = .next (ks.map (bytePhys s seg a off)) := by
    rw [translate_eq_next]
    refine ⟨fun o ho => ?_, by simp [bytePhys, Function.comp_def]⟩
    obtain ⟨k, hk, rfl⟩ := List.mem_map.1 ho
    exact (h k hk).1
  have hd : (ks.any fun k => isDevice s (linear s seg (byteOffset s a off k))) = false := by
    rw [List.any_eq_false]
    intro k hk
    simp [(h k hk).2]
  have ht' : (!ks.isEmpty && mayTrapAlign s (linear s seg off) n &&
      Config.freeTrap (s.history.length + s.faults)) = false := by
    rcases ht with rfl | ht | ht
    · simp
    · simp [ht]
    · simp [ht]
  unfold memRead
  rw [htr, andThen_next, if_neg (by simp [ht']), if_neg (by simp [hd])]
  simp [readOf, oneAccess, Bool.and_assoc]

/-- A misaligned operand of which bytes are accessed, all of which translate, traps where the free value says so. -/
theorem memRead_of_trap {s : State} {seg : SegName} {a : AddrSize} {off : Qword} {n : Nat} {ks : List Nat}
    {bc : Bool} (h : ∀ k ∈ ks, byteFault s .read seg (byteOffset s a off k) = none) (hk : ks ≠ [])
    (hm : Misaligned s seg off n) (hf : Config.freeTrap (s.history.length + s.faults) = true) :
    memRead s seg a off n ks bc = raise .ac s := by
  have htr : translate s .read seg (ks.map (byteOffset s a off)) =
      .next ((ks.map (byteOffset s a off)).map fun o => physical s (linear s seg o)) :=
    translate_eq_next.2 ⟨fun o ho => by obtain ⟨k, hk, rfl⟩ := List.mem_map.1 ho; exact h k hk, rfl⟩
  obtain ⟨h1, h2, h3, h4, h5⟩ := hm
  unfold memRead
  rw [htr, andThen_next, if_pos]
  simp [mayTrapAlign, State.alignmentChecked, State.crAm, State.flagAc, hk, hf, h1, h2, h3, h4, h5]

/-- A read that answers has read accessible bytes, and its bytes and events are those of `readOf`. -/
theorem memRead_eq_next {s : State} {seg : SegName} {a : AddrSize} {off : Qword} {n : Nat} {ks : List Nat}
    {bc : Bool} {b : Bytes} (h : memRead s seg a off n ks bc = .next b) :
    Accessible s seg a off ks ∧ b = readOf s seg a off ks (bc && oneAccess s seg off ks) := by
  unfold memRead at h
  obtain ⟨ps, htr, h⟩ := andThen_eq_next.1 h
  rw [translate_eq_next] at htr
  obtain ⟨hn, rfl⟩ := htr
  split_ifs at h with h1 h2
  · exact absurd h (by simp [raise])
  · simp only [List.any_eq_true, not_exists, not_and, Bool.not_eq_true] at h2
    refine ⟨fun k hk => ⟨hn _ (List.mem_map.2 ⟨k, hk, rfl⟩), by simpa using h2 k hk⟩, ?_⟩
    have e : List.map (fun o => physical s (linear s seg o)) (ks.map (byteOffset s a off)) =
        ks.map (bytePhys s seg a off) := by simp [bytePhys]
    simp only [Host.Outcome.next.injEq] at h
    rw [← h, e]
    simp [readOf, oneAccess, Bool.and_assoc]

/-- A read with a byte that has no translation raises the exception of such a byte. -/
theorem memRead_of_fault {s : State} {seg : SegName} {a : AddrSize} {off : Qword} {n : Nat} {ks : List Nat}
    {bc : Bool} (h : ∃ k ∈ ks, byteFault s .read seg (byteOffset s a off k) ≠ none) :
    ∃ k ∈ ks, ∃ f, byteFault s .read seg (byteOffset s a off k) = some f ∧
      memRead s seg a off n ks bc = raiseByte f s := by
  obtain ⟨k, hk, hf⟩ := h
  obtain ⟨o, ho, f, hf, ht⟩ := translate_of_fault (s := s) (acc := .read) (seg := seg)
    (offs := ks.map (byteOffset s a off)) ⟨_, List.mem_map_of_mem hk, hf⟩
  obtain ⟨k, hk, rfl⟩ := List.mem_map.1 ho
  refine ⟨k, hk, f, hf, ?_⟩
  unfold memRead
  rw [ht]
  cases f <;> rfl

/-- A read that translates, cannot trap for its alignment and has a byte in device memory is refused. -/
theorem memRead_of_device {s : State} {seg : SegName} {a : AddrSize} {off : Qword} {n : Nat} {ks : List Nat}
    {bc : Bool} (h : ∀ k ∈ ks, byteFault s .read seg (byteOffset s a off k) = none)
    (ht : mayTrapAlign s (linear s seg off) n = false)
    (hd : ∃ k ∈ ks, isDevice s (linear s seg (byteOffset s a off k)) = true) :
    memRead s seg a off n ks bc = .refused .deviceMemory := by
  have htr : translate s .read seg (ks.map (byteOffset s a off)) =
      .next ((ks.map (byteOffset s a off)).map fun o => physical s (linear s seg o)) :=
    translate_eq_next.2 ⟨fun o ho => by obtain ⟨k, hk, rfl⟩ := List.mem_map.1 ho; exact h k hk, rfl⟩
  unfold memRead
  rw [htr, andThen_next, if_neg (by simp [ht]), if_pos (by simpa [List.any_eq_true] using hd)]

/-! ## Fetch -/

/-- Bytes that stand at the program counter are fetched, and the fetch goes on after them. -/
theorem fetchFrom_of_holds {s : State} {bs : List Byte} : ∀ {fuel k : Nat},
    (∀ (j : Nat) (h : j < bs.length), byteFault s .fetch .cs (fetchOffset s (k + j)) = none ∧
      isDevice s (linear s .cs (fetchOffset s (k + j))) = false ∧
      Memory.read s.mem (physical s (linear s .cs (fetchOffset s (k + j)))) = bs[j]) →
    fetchFrom s (bs.length + fuel) k =
      (bs ++ (fetchFrom s fuel (k + bs.length)).1, (fetchFrom s fuel (k + bs.length)).2) := by
  induction bs with
  | nil => intro fuel k _; simp
  | cons b bs ih =>
    intro fuel k h
    obtain ⟨h1, h2, h3⟩ := h 0 (by simp)
    have ih' := ih (fuel := fuel) (k := k + 1) fun j hj => by
      have := h (j + 1) (by simpa using hj)
      simpa [Nat.add_assoc, Nat.add_comm 1 j] using this
    simp only [Nat.add_zero, List.getElem_cons_zero] at h1 h2 h3
    rw [show (b :: bs).length + fuel = (bs.length + fuel) + 1 by simp; omega, fetchFrom, h1]
    simp only [h2, Bool.false_eq_true, if_false, h3, ih']
    simp [Nat.add_assoc, Nat.add_comm 1]

/-- The bytes fetched where the bytes `bs` stand at the program counter. -/
theorem fetch_of_holds {s : State} {bs : List Byte} (h : Holds s bs) (hl : bs.length ≤ maxLength) :
    fetch s = (bs ++ (fetchFrom s (maxLength - bs.length) bs.length).1,
      (fetchFrom s (maxLength - bs.length) bs.length).2) := by
  have := fetchFrom_of_holds (s := s) (bs := bs) (fuel := maxLength - bs.length) (k := 0) fun j hj => by
    simpa using h j hj
  rw [show bs.length + (maxLength - bs.length) = maxLength by omega] at this
  simpa [fetch] using this

end Sys2Proof.Machine
end

