-- ==== Sys2Proof/Laws/Exec.lean ====
section
/-! SUPPORT. For each meaning, when it answers a next state and which, and how it ends otherwise. -/

namespace Sys2Proof.Machine

/-! ## Sources -/

/-- A full-width operand whose bytes can be read is loaded. -/
theorem loadFull_of_accessible {s : State} {p : List Pfx} {ad : SegName × Qword} {vl : VLen}
    (h : Accessible s ad.1 (addrSize s.mode p) ad.2 (List.range (vlBytes vl)))
    (ht : mayTrapAlign s (linear s ad.1 ad.2) (vlBytes vl) = false) :
    loadFull s p ad vl = .next (fullLanes
      (readOf s ad.1 (addrSize s.mode p) ad.2 (List.range (vlBytes vl)) false)) := by
  unfold loadFull
  rw [memRead_of_accessible h (.inr (.inl ht))]
  simp

/-- A full-width operand that is loaded could be read. -/
theorem loadFull_eq_next {s : State} {p : List Pfx} {ad : SegName × Qword} {vl : VLen} {src : Loaded}
    (h : loadFull s p ad vl = .next src) :
    Accessible s ad.1 (addrSize s.mode p) ad.2 (List.range (vlBytes vl)) ∧
      src = fullLanes (readOf s ad.1 (addrSize s.mode p) ad.2 (List.range (vlBytes vl)) false) := by
  obtain ⟨b, hb, h⟩ := andThen_eq_next.1 h
  obtain ⟨ha, rfl⟩ := memRead_eq_next hb
  simp only [Host.Outcome.next.injEq] at h
  exact ⟨ha, by rw [← h]; simp⟩

/-- A multiple of 16 cannot trap for its alignment as an access of 16 bytes. -/
theorem mayTrapAlign_of_aligned {s : State} {lin : Qword} {n : Nat} (h : lin.toNat % n = 0) :
    mayTrapAlign s lin n = false := by
  simp [mayTrapAlign, h]

/-! ## Meanings that answer a next state -/

/-- The legacy form answers a next state when it is ready, its source can be had, and its conditions are masked. -/
theorem execSubps_eq_next {p : List Pfx} {reg : BitVec 3} {rm : Rm} {s t : State} :
    execSubps p reg rm s = .next t ↔
      Ready (udLegacy p s) s ∧ ∃ src, legacySource s p rm (instrLength (.subps p reg rm)) = .next src ∧
        AllMasked s (elements (mxControl s) .v128 (fun _ => true) (s.readZmm (destOf (.subps p reg rm) s))
          (s.readZmm (destOf (.subps p reg rm) s)) src.lanes).2 ∧
        t = complete s (destOf (.subps p reg rm) s)
          (replaceLow128 (s.readZmm (destOf (.subps p reg rm) s))
            (elements (mxControl s) .v128 (fun _ => true) (s.readZmm (destOf (.subps p reg rm) s))
              (s.readZmm (destOf (.subps p reg rm) s)) src.lanes).1)
          (s.mxcsr ||| flagBits (elements (mxControl s) .v128 (fun _ => true)
            (s.readZmm (destOf (.subps p reg rm) s)) (s.readZmm (destOf (.subps p reg rm) s)) src.lanes).2)
          src.events (instrLength (.subps p reg rm)) := by
  simp only [execSubps, enter_eq_next, andThen_eq_next, deliverFp_eq_next, destOf, Host.Outcome.next.injEq]
  refine and_congr_right fun _ => exists_congr fun src => and_congr_right fun _ => ?_
  constructor
  · rintro ⟨mx, ⟨h1, rfl⟩, rfl⟩
    exact ⟨h1, rfl⟩
  · rintro ⟨h1, rfl⟩
    exact ⟨_, ⟨h1, rfl⟩, rfl⟩

/-- A VEX form answers a next state when it is ready, its source can be had, and its conditions are masked. -/
theorem vexStep_eq_next {vl : VLen} {p : List Pfx} {r x b : Bool} {vvvv : BitVec 4} {reg : BitVec 3} {rm : Rm}
    {ilen : Nat} {s t : State} :
    vexStep vl p r x b vvvv reg rm ilen s = .next t ↔
      Ready (udVex p s) s ∧ ∃ src, vexSource s p x b vl rm ilen = .next src ∧
        AllMasked s (elements (mxControl s) vl (fun _ => true) (s.readZmm (low16 (vvvvNum s.mode vvvv)))
          (s.readZmm (low16 (vvvvNum s.mode vvvv))) src.lanes).2 ∧
        t = complete s (low16 (regNum s.mode r reg))
          (zextMaxVl s.cfg vl (elements (mxControl s) vl (fun _ => true)
            (s.readZmm (low16 (vvvvNum s.mode vvvv))) (s.readZmm (low16 (vvvvNum s.mode vvvv))) src.lanes).1)
          (s.mxcsr ||| flagBits (elements (mxControl s) vl (fun _ => true)
            (s.readZmm (low16 (vvvvNum s.mode vvvv))) (s.readZmm (low16 (vvvvNum s.mode vvvv))) src.lanes).2)
          src.events ilen := by
  simp only [vexStep, enter_eq_next, andThen_eq_next, deliverFp_eq_next, Host.Outcome.next.injEq]
  refine and_congr_right fun _ => exists_congr fun src => and_congr_right fun _ => ?_
  constructor
  · rintro ⟨mx, ⟨h1, rfl⟩, rfl⟩
    exact ⟨h1, rfl⟩
  · rintro ⟨h1, rfl⟩
    exact ⟨_, ⟨h1, rfl⟩, rfl⟩

/-- An EVEX form answers a next state when it is ready, its source can be had, and its conditions are masked. -/
theorem evexStep_eq_next {vl : VLen} {p : List Pfx} {e : Evex} {bc : Bool} {reg : BitVec 3} {rm : Rm}
    {ilen : Nat} {s t : State} :
    evexStep vl p e bc reg rm ilen s = .next t ↔
      Ready (udEvex (vl != .v512) p e s) s ∧ ∃ src, evexSource s p e bc vl rm ilen = .next src ∧
        AllMasked s (elements (mxControl s) vl (active s e.aaa)
          (maskedOff e (s.readZmm (regNum5 s.mode e.rp e.r reg)))
          (s.readZmm (vvvvNum5 s.mode e.vp e.vvvv)) src.lanes).2 ∧
        t = complete s (regNum5 s.mode e.rp e.r reg)
          (zextMaxVl s.cfg vl (elements (mxControl s) vl (active s e.aaa)
            (maskedOff e (s.readZmm (regNum5 s.mode e.rp e.r reg)))
            (s.readZmm (vvvvNum5 s.mode e.vp e.vvvv)) src.lanes).1)
          (s.mxcsr ||| flagBits (elements (mxControl s) vl (active s e.aaa)
            (maskedOff e (s.readZmm (regNum5 s.mode e.rp e.r reg)))
            (s.readZmm (vvvvNum5 s.mode e.vp e.vvvv)) src.lanes).2)
          src.events ilen := by
  simp only [evexStep, enter_eq_next, andThen_eq_next, deliverFp_eq_next, Host.Outcome.next.injEq]
  refine and_congr_right fun _ => exists_congr fun src => and_congr_right fun _ => ?_
  constructor
  · rintro ⟨mx, ⟨h1, rfl⟩, rfl⟩
    exact ⟨h1, rfl⟩
  · rintro ⟨h1, rfl⟩
    exact ⟨_, ⟨h1, rfl⟩, rfl⟩

/-- Embedded rounding answers a next state when it is ready. -/
theorem evexErStep_eq_next {p : List Pfx} {e : Evex} {rc : BitVec 2} {reg rm : BitVec 3} {ilen : Nat}
    {s t : State} :
    evexErStep p e rc reg rm ilen s = .next t ↔
      Ready (udEvex false p e s) s ∧
        t = complete s (regNum5 s.mode e.rp e.r reg)
          (zextMaxVl s.cfg .v512 (elements (erControl s rc) .v512 (active s e.aaa)
            (maskedOff e (s.readZmm (regNum5 s.mode e.rp e.r reg)))
            (s.readZmm (vvvvNum5 s.mode e.vp e.vvvv)) (s.readZmm (regNum5 s.mode e.x e.b rm))).1)
          s.mxcsr [] ilen := by
  simp only [evexErStep, enter_eq_next, Host.Outcome.next.injEq]
  exact and_congr_right fun _ => eq_comm

/-- Every instruction that answers a next state has written its destination entry, flags of `MXCSR` and the pc, and
has appended its reads to the history. -/
theorem exec_eq_complete {i : Instr} {s t : State} (h : exec i s = .next t) :
    Ready (udOf i s) s ∧ ∃ v f evs, t = complete s (destOf i s) v (s.mxcsr ||| flagBits f) evs (instrLength i) := by
  have or0 : s.mxcsr = s.mxcsr ||| flagBits FpFlags.none := by simp
  cases i with
  | subps p reg rm =>
    obtain ⟨hr, src, -, -, ht⟩ := execSubps_eq_next.1 h
    exact ⟨hr, _, _, _, ht⟩
  | vsubps128c5 p v reg rm | vsubps128c4 p v reg rm | vsubps256c5 p v reg rm | vsubps256c4 p v reg rm =>
    obtain ⟨hr, src, -, -, ht⟩ := vexStep_eq_next.1 h
    exact ⟨hr, _, _, _, ht⟩
  | vsubpsEvex128 p e bc reg rm | vsubpsEvex256 p e bc reg rm | vsubpsEvex512 p e bc reg rm =>
    obtain ⟨hr, src, -, -, ht⟩ := evexStep_eq_next.1 h
    exact ⟨hr, _, _, _, ht⟩
  | vsubpsEvex512er p e rc reg rm =>
    obtain ⟨hr, ht⟩ := evexErStep_eq_next.1 h
    rw [or0] at ht
    exact ⟨hr, _, _, _, ht⟩

/-- A completed step has the frame of its destination. -/
theorem complete_frame (s : State) (d : BitVec 5) (v : Lanes) (f : FpFlags) (evs : List ReadEvent) (ilen : Nat) :
    Frame d s (complete s d v (s.mxcsr ||| flagBits f) evs ilen) where
  zmm n hn := complete_readZmm_other s d n v _ evs ilen hn
  k _ := rfl
  gpr _ := rfl
  mxControl := or_flagBits_high s.mxcsr f
  mxZe := or_flagBits_ze s.mxcsr f
  mem _ := rfl
  eflags := rfl
  cr0 := rfl
  cr2 := rfl
  cr4 := rfl
  xcr0 := rfl
  segs := rfl
  fsBase := rfl
  gsBase := rfl
  mode := rfl
  cpl := rfl
  cfg := rfl
  regions := rfl
  oracle := rfl
  faults := rfl

/-- `complete` leaves what `Completed` says. -/
theorem complete_completed (s : State) (d : BitVec 5) (v : Lanes) (f : FpFlags) (evs : List ReadEvent)
    (ilen : Nat) : Completed d f evs ilen s (complete s d v (s.mxcsr ||| flagBits f) evs ilen) :=
  ⟨complete_frame s d v f evs ilen, rfl, rfl, rfl⟩

/-! ## Memory operands -/

/-- The bytes that an EVEX form reads of a broadcast operand. -/
theorem broadcastBytes_eq (s : State) (aaa : BitVec 3) (vl : VLen) :
    broadcastBytes s aaa vl =
      if s.cfg.faultSuppression ∧ ∀ j < vlLanes vl, active s aaa j = false then [] else [0, 1, 2, 3] := by
  unfold broadcastBytes
  by_cases hf : s.cfg.faultSuppression = true
  · by_cases ha : ∀ j < vlLanes vl, active s aaa j = false
    · have : (List.range (vlLanes vl)).any (active s aaa) = false := by
        simpa [List.any_eq_false] using ha
      simp only [hf, this, true_and]
      rw [if_pos ha]
      rfl
    · have : (List.range (vlLanes vl)).any (active s aaa) = true := by
        push Not at ha
        obtain ⟨j, hj, h⟩ := ha
        simp only [List.any_eq_true, List.mem_range]
        exact ⟨j, hj, by simpa using h⟩
      rw [if_pos (by simp [this]), if_neg (fun h => ha h.2)]
      rfl
  · simp [hf]
    rfl

/-- An instruction that gets to its memory operand reads the bytes it accesses, and then goes on. -/
theorem exec_of_readsAt {i : Instr} {s : State} {seg : SegName} {off : Qword} {n : Nat} (h : ReadsAt i s seg off n) :
    ∃ (bc : Bool) (go : Bytes → Host.Outcome State Fault Refusal),
      exec i s = andThen (memRead s seg (addrSize s.mode (prefixesOf i)) off n (accessedOf i s) bc) go := by
  obtain ⟨hr, ho, hal⟩ := h
  cases i with
  | subps p reg rm =>
    cases rm with
    | reg _ => simp [operandOf] at ho
    | mem o =>
      simp only [operandOf, Option.some.injEq, Prod.mk.injEq] at ho
      obtain ⟨rfl, rfl, rfl⟩ := ho
      refine ⟨false, ?_, ?_⟩
      rotate_left
      · refine (enter_of_ready hr _).trans ?_
        simp only [legacySource]
        rw [if_neg (by simpa using hal rfl), loadFull, andThen_assoc]
        rfl
  | vsubps128c5 p v reg rm | vsubps128c4 p v reg rm | vsubps256c5 p v reg rm | vsubps256c4 p v reg rm =>
    cases rm with
    | reg _ => simp [operandOf] at ho
    | mem o =>
      simp only [operandOf, Option.some.injEq, Prod.mk.injEq] at ho
      obtain ⟨rfl, rfl, rfl⟩ := ho
      refine ⟨false, ?_, ?_⟩
      rotate_left
      · refine (enter_of_ready hr _).trans ?_
        simp only [vexSource]
        rw [loadFull, andThen_assoc]
        rfl
  | vsubpsEvex128 p e bc reg rm | vsubpsEvex256 p e bc reg rm | vsubpsEvex512 p e bc reg rm =>
    cases rm with
    | reg _ => simp [operandOf] at ho
    | mem o =>
      simp only [operandOf, Option.some.injEq, Prod.mk.injEq] at ho
      obtain ⟨rfl, rfl, rfl⟩ := ho
      cases bc
      · refine ⟨false, ?_, ?_⟩
        rotate_left
        · refine (enter_of_ready hr _).trans ?_
          simp only [evexSource, Bool.false_eq_true, if_false]
          rw [andThen_assoc]
          rfl
      · refine ⟨true, ?_, ?_⟩
        rotate_left
        · refine (enter_of_ready hr _).trans ?_
          simp only [evexSource, if_true]
          rw [andThen_assoc, broadcastBytes_eq]
          rfl
  | vsubpsEvex512er p e rc reg rm => simp [operandOf] at ho

/-- An instruction with a byte of its memory operand that has no translation raises the exception of such a byte. -/
theorem exec_of_byteFault {i : Instr} {s : State} {seg : SegName} {off : Qword} {n : Nat} (h : ReadsAt i s seg off n)
    (hf : ∃ k ∈ accessedOf i s, byteFault s .read seg (offsetOf i s off k) ≠ none) :
    ∃ k ∈ accessedOf i s, ∃ f, byteFault s .read seg (offsetOf i s off k) = some f ∧ exec i s = raiseByte f s := by
  obtain ⟨bc, go, he⟩ := exec_of_readsAt h
  obtain ⟨k, hk, f, hf, hm⟩ := memRead_of_fault (n := n) (bc := bc) hf
  refine ⟨k, hk, f, hf, ?_⟩
  rw [he, hm]
  cases f <;> rfl

/-- An instruction with a misaligned memory operand, whose accessed bytes translate, traps where the free value says
so. -/
theorem exec_of_trap {i : Instr} {s : State} {seg : SegName} {off : Qword} {n : Nat} (h : ReadsAt i s seg off n)
    (ha : ∀ k ∈ accessedOf i s, byteFault s .read seg (offsetOf i s off k) = none) (hk : accessedOf i s ≠ [])
    (hm : Misaligned s seg off n) (hf : Config.freeTrap (s.history.length + s.faults) = true) :
    exec i s = .fault (.ac { s with faults := s.faults + 1 }) := by
  obtain ⟨bc, go, he⟩ := exec_of_readsAt h
  rw [he, memRead_of_trap ha hk hm hf]
  rfl

/-! ## Faults -/

/-- What a fault may change: flags of `MXCSR`, CR2 and the count of faults. -/
def FaultShape (s : State) (e : Fault) : Prop :=
  ∃ (f : FpFlags) (c : Qword),
    e.after = { s with mxcsr := s.mxcsr ||| flagBits f, cr2 := c, faults := s.faults + 1 } ∧
    ((∃ a, e = .xm a) ∨ (∃ a, e = .ud a) ∨ f = FpFlags.none) ∧ ((∃ n a, e = .pf n a) ∨ c = s.cr2)

/-- A fault that changes nothing has the shape. -/
theorem FaultShape.of_plain {s : State} {e : Fault} (h : e.after = { s with faults := s.faults + 1 }) :
    FaultShape s e :=
  ⟨FpFlags.none, s.cr2, by simp [h], .inr (.inr rfl), .inr rfl⟩

/-- The exception of a byte has the shape. -/
theorem raiseByte_shape {α : Type} {f : ByteFault} {s : State} {e : Fault}
    (h : raiseByte (α := α) f s = .fault e) : FaultShape s e := by
  cases f with
  | ss | gp =>
    simp only [raiseByte, raise, Host.Outcome.fault.injEq] at h
    subst h
    exact .of_plain rfl
  | pf lin code =>
    simp only [raiseByte, raise, Host.Outcome.fault.injEq] at h
    subst h
    exact ⟨FpFlags.none, lin, by simp [Fault.after], .inr (.inr rfl), .inl ⟨_, _, rfl⟩⟩

/-- The exception of a numeric condition has the shape. -/
theorem deliverFp_shape {s : State} {f : FpFlags} {e : Fault} (h : deliverFp s f = .fault e) :
    FaultShape s e := by
  by_cases hm : AllMasked s f
  · rw [deliverFp_eq_next.2 ⟨hm, rfl⟩] at h
    cases h
  · obtain ⟨g, -, -, hg⟩ := deliverFp_of_unmasked hm
    rw [hg] at h
    cases hx : s.osxmmexcpt <;> simp only [hx, if_true, Bool.false_eq_true, if_false] at h <;> cases h
    · exact ⟨g, s.cr2, rfl, .inr (.inl ⟨_, rfl⟩), .inr rfl⟩
    · exact ⟨g, s.cr2, rfl, .inl ⟨_, rfl⟩, .inr rfl⟩

/-- The exceptions before an operation have the shape. -/
theorem enter_shape {ud : Bool} {s : State} {body : Host.Outcome State Fault Refusal} {e : Fault}
    (hb : body = .fault e → FaultShape s e) (h : enter ud s body = .fault e) : FaultShape s e := by
  rcases enter_eq_fault h with ⟨-, rfl⟩ | ⟨-, rfl⟩ | ⟨-, h⟩
  · exact .of_plain rfl
  · exact .of_plain rfl
  · exact hb h

/-- The exceptions of a translation have the shape. -/
theorem translate_shape {s : State} {acc : Access} {seg : SegName} {offs : List Qword} {e : Fault}
    (h : translate s acc seg offs = .fault e) : FaultShape s e := by
  unfold translate at h
  split at h
  · cases h
  · exact raiseByte_shape h

/-- The exceptions of a read have the shape. -/
theorem memRead_shape {s : State} {seg : SegName} {a : AddrSize} {off : Qword} {n : Nat} {ks : List Nat} {bc : Bool}
    {e : Fault} (h : memRead s seg a off n ks bc = .fault e) : FaultShape s e := by
  rcases andThen_eq_fault.1 h with h | ⟨ps, -, h⟩
  · exact translate_shape h
  · split_ifs at h
    · simp only [raise, Host.Outcome.fault.injEq] at h
      subst h
      exact .of_plain rfl

/-- The exceptions of a full-width load have the shape. -/
theorem loadFull_shape {s : State} {p : List Pfx} {ad : SegName × Qword} {vl : VLen} {e : Fault}
    (h : loadFull s p ad vl = .fault e) : FaultShape s e := by
  rcases andThen_eq_fault.1 h with h | ⟨_, -, h⟩
  · exact memRead_shape h
  · cases h

/-- The exceptions of the legacy form's source have the shape. -/
theorem legacySource_shape {s : State} {p : List Pfx} {rm : Rm} {ilen : Nat} {e : Fault}
    (h : legacySource s p rm ilen = .fault e) : FaultShape s e := by
  unfold legacySource at h
  split at h
  · cases h
  · dsimp only at h
    split_ifs at h
    · simp only [raise, Host.Outcome.fault.injEq] at h
      subst h
      exact .of_plain rfl
    · exact loadFull_shape h

/-- The exceptions of a VEX form's source have the shape. -/
theorem vexSource_shape {s : State} {p : List Pfx} {x b : Bool} {vl : VLen} {rm : Rm} {ilen : Nat} {e : Fault}
    (h : vexSource s p x b vl rm ilen = .fault e) : FaultShape s e := by
  unfold vexSource at h
  split at h
  · cases h
  · exact loadFull_shape h

/-- The exceptions of an EVEX form's source have the shape. -/
theorem evexSource_shape {s : State} {p : List Pfx} {v : Evex} {bc : Bool} {vl : VLen} {rm : Rm} {ilen : Nat}
    {e : Fault} (h : evexSource s p v bc vl rm ilen = .fault e) : FaultShape s e := by
  unfold evexSource at h
  split at h
  · cases h
  · split_ifs at h
    · rcases andThen_eq_fault.1 h with h | ⟨_, -, h⟩
      · exact memRead_shape h
      · cases h
    · rcases andThen_eq_fault.1 h with h | ⟨_, -, h⟩
      · exact memRead_shape h
      · cases h

/-- The exceptions of every instruction have the shape. -/
theorem exec_shape {i : Instr} {s : State} {e : Fault} (h : exec i s = .fault e) : FaultShape s e := by
  have tail : ∀ {src : Host.Outcome Loaded Fault Refusal} {f : Loaded → FpFlags} {g : Loaded → Dword → State},
      (∀ e, src = .fault e → FaultShape s e) →
      (andThen src fun l => andThen (deliverFp s (f l)) fun mx => .next (g l mx)) = .fault e →
      FaultShape s e := by
    intro src f g hs h
    rcases andThen_eq_fault.1 h with h | ⟨l, -, h⟩
    · exact hs e h
    · rcases andThen_eq_fault.1 h with h | ⟨mx, -, h⟩
      · exact deliverFp_shape h
      · cases h
  cases i with
  | subps p reg rm => exact enter_shape (tail fun _ => legacySource_shape) h
  | vsubps128c5 p v reg rm | vsubps128c4 p v reg rm | vsubps256c5 p v reg rm | vsubps256c4 p v reg rm =>
    exact enter_shape (tail fun _ => vexSource_shape) h
  | vsubpsEvex128 p v bc reg rm | vsubpsEvex256 p v bc reg rm | vsubpsEvex512 p v bc reg rm =>
    exact enter_shape (tail fun _ => evexSource_shape) h
  | vsubpsEvex512er p v rc reg rm => exact enter_shape (fun h => by cases h) h

end Sys2Proof.Machine
end

