-- ==== Sys2Proof/Laws/Lane.lean ====
section
/-! SUPPORT. The classes of a pattern, operand preparation, and the cases of the element subtraction. -/

namespace Sys2Proof.Machine

/-- A pattern is finite when it is a zero, a denormal or a normal number. -/
theorem isFinite_iff (v : Dword) :
    isFinite v = true ↔ cls v = .zero ∨ cls v = .denormal ∨ cls v = .normal := by
  unfold isFinite cls
  split_ifs <;> simp_all

/-- A pattern is no NaN when it is finite or an infinity. -/
theorem isNan_false_iff (v : Dword) : isNan v = false ↔ isFinite v = true ∨ cls v = .inf := by
  rw [isFinite_iff]
  unfold isNan
  cases cls v <;> decide

/-- Without denormals-are-zeros an operand is used as it is. -/
@[simp] theorem dazOf_false (v : Dword) : dazOf false v = v := by simp [dazOf]

/-- Denormals-are-zeros leaves every pattern that is no denormal. -/
theorem dazOf_of_ne {daz : Bool} {v : Dword} (h : cls v ≠ .denormal) : dazOf daz v = v := by
  simp [dazOf, h]

/-- The sign of a zero is the one it was made with, and its other bits are 0. -/
theorem zeroOf_cases (s : Bool) : zeroOf s = if s then 0x80000000#32 else 0x00000000#32 := by
  cases s <;> decide

/-- Denormals-are-zeros keeps the sign. -/
@[simp] theorem signBit_dazOf (daz : Bool) (v : Dword) : signBit (dazOf daz v) = signBit v := by
  unfold dazOf
  split_ifs
  · rw [zeroOf_cases]
    cases signBit v <;> decide
  · rfl

/-- A zero is of class zero. -/
theorem cls_zeroOf (s : Bool) : cls (zeroOf s) = .zero := by cases s <;> decide

/-- The class of a prepared operand. -/
theorem cls_dazOf (daz : Bool) (v : Dword) :
    cls (dazOf daz v) = if daz = true ∧ cls v = .denormal then .zero else cls v := by
  unfold dazOf
  split_ifs
  · exact cls_zeroOf _
  · rfl

/-- A prepared operand is finite when the operand is. -/
theorem isFinite_dazOf (daz : Bool) (v : Dword) : isFinite (dazOf daz v) = isFinite v := by
  rw [Bool.eq_iff_iff, isFinite_iff, isFinite_iff, cls_dazOf]
  split_ifs with h
  · simp [h.2]
  · rfl

/-- Finite operands are subtracted as finite numbers, with DE for a denormal operand. -/
theorem laneSub_of_finite {rm : Rounding} {daz ftz um : Bool} {a b : Dword} (ha : isFinite a = true)
    (hb : isFinite b = true) :
    laneSub rm daz ftz um a b = finiteSub rm ftz um (dazOf daz a) (dazOf daz b)
      { FpFlags.none with de := cls (dazOf daz a) == .denormal || cls (dazOf daz b) == .denormal } := by
  rw [← isFinite_dazOf daz] at ha hb
  unfold laneSub laneSubPrepared isNan
  rcases (isFinite_iff _).1 ha with h | h | h <;> rcases (isFinite_iff _).1 hb with h' | h' | h' <;>
    simp [h, h'] <;> rfl

/-- The magnitude of a pattern is below that of the largest finite number. -/
theorem magOf_le_maxFinite {v : Dword} (h : isFinite v = true) : magOf v ≤ maxFinite := by
  have hf : (fracField v).toNat < 2 ^ 23 := (fracField v).isLt
  have he : (expField v).toNat < 2 ^ 8 := (expField v).isLt
  have hne : (expField v).toNat ≠ 255 := fun h' => by
    simp only [isFinite, bne_iff_ne, ne_eq] at h
    exact h (BitVec.eq_of_toNat_eq (by simpa using h'))
  unfold magOf maxFinite
  split_ifs
  · have : (1 : Nat) ≤ 2 ^ 253 := Nat.one_le_two_pow
    calc (fracField v).toNat ≤ 2 ^ 24 - 1 := by omega
      _ ≤ (2 ^ 24 - 1) * 2 ^ 253 := Nat.le_mul_of_pos_right _ (by omega)
  · exact Nat.mul_le_mul (by omega) (Nat.pow_le_pow_right (by omega) (by omega))

end Sys2Proof.Machine
end

