-- ==== Sys2Proof/Laws/PerInstr.lean ====
section
/-! SUPPORT. The family `Encoded`: what holds of the encoding of every instruction. -/

namespace Sys2Proof.Laws.Encoded

open Sys2Proof Sys2Proof.Machine

/-- The encoding has as many bytes as the instruction's length says, and at least 3 (30_encoding.md rule R80). -/
def Statement (i : Instr) : Prop := (encode i).length = instrLength i ∧ 3 ≤ instrLength i

/-- The number of bytes of a displacement. -/
theorem encodeDisp_length (d : Disp) : (encodeDisp d).length = dispLength d := by cases d <;> rfl

/-- The number of bytes of ModRM and what follows it. -/
theorem encodeRm_length (reg : BitVec 3) (rm : Rm) :
    (encodeRm reg rm).length = rmLength rm ∧ 1 ≤ rmLength rm := by
  cases rm with
  | reg n => simp [encodeRm, rmLength]
  | mem o =>
    obtain ⟨mod, rm, sib, disp⟩ := o
    cases sib <;> simp [encodeRm, rmLength, encodeDisp_length] <;> omega

theorem subps (p : List Pfx) (reg : BitVec 3) (rm : Rm) : Statement (.subps p reg rm) := by
  have h := encodeRm_length reg rm
  simp only [Statement, encode, instrLength, List.length_append, List.length_map, List.length_cons, List.length_nil]
  omega

theorem vsubps128c5 (p : List Pfx) (v : Vex2) (reg : BitVec 3) (rm : Rm) : Statement (.vsubps128c5 p v reg rm) := by
  have h := encodeRm_length reg rm
  simp only [Statement, encode, encodeVex2, instrLength, List.length_append, List.length_map, List.length_cons,
    List.length_nil]
  omega

theorem vsubps128c4 (p : List Pfx) (v : Vex3) (reg : BitVec 3) (rm : Rm) : Statement (.vsubps128c4 p v reg rm) := by
  have h := encodeRm_length reg rm
  simp only [Statement, encode, encodeVex3, instrLength, List.length_append, List.length_map, List.length_cons,
    List.length_nil]
  omega

theorem vsubps256c5 (p : List Pfx) (v : Vex2) (reg : BitVec 3) (rm : Rm) : Statement (.vsubps256c5 p v reg rm) := by
  have h := encodeRm_length reg rm
  simp only [Statement, encode, encodeVex2, instrLength, List.length_append, List.length_map, List.length_cons,
    List.length_nil]
  omega

theorem vsubps256c4 (p : List Pfx) (v : Vex3) (reg : BitVec 3) (rm : Rm) : Statement (.vsubps256c4 p v reg rm) := by
  have h := encodeRm_length reg rm
  simp only [Statement, encode, encodeVex3, instrLength, List.length_append, List.length_map, List.length_cons,
    List.length_nil]
  omega

theorem vsubpsEvex128 (p : List Pfx) (e : Evex) (bc : Bool) (reg : BitVec 3) (rm : Rm) :
    Statement (.vsubpsEvex128 p e bc reg rm) := by
  have h := encodeRm_length reg rm
  simp only [Statement, encode, encodeEvex, instrLength, List.length_append, List.length_map, List.length_cons,
    List.length_nil]
  omega

theorem vsubpsEvex256 (p : List Pfx) (e : Evex) (bc : Bool) (reg : BitVec 3) (rm : Rm) :
    Statement (.vsubpsEvex256 p e bc reg rm) := by
  have h := encodeRm_length reg rm
  simp only [Statement, encode, encodeEvex, instrLength, List.length_append, List.length_map, List.length_cons,
    List.length_nil]
  omega

theorem vsubpsEvex512 (p : List Pfx) (e : Evex) (bc : Bool) (reg : BitVec 3) (rm : Rm) :
    Statement (.vsubpsEvex512 p e bc reg rm) := by
  have h := encodeRm_length reg rm
  simp only [Statement, encode, encodeEvex, instrLength, List.length_append, List.length_map, List.length_cons,
    List.length_nil]
  omega

theorem vsubpsEvex512er (p : List Pfx) (e : Evex) (rc : BitVec 2) (reg rm : BitVec 3) :
    Statement (.vsubpsEvex512er p e rc reg rm) := by
  have h := encodeRm_length reg (.reg rm)
  simp only [Statement, encode, encodeEvex, instrLength, List.length_append, List.length_map, List.length_cons,
    List.length_nil]
  omega

end Sys2Proof.Laws.Encoded
end

