-- ==== Sys2Proof/Tests/Slice0.lean ====
section
/-! SUPPORT. Tests: ill-formed terms that the check refuses, words written out from the encodings, single steps whose
results stand in 95_test_vectors.md, and for every statement with hypotheses a state and operands that meet them. -/

namespace Sys2Proof.Tests

open Sys2Proof Sys2Proof.Machine

/- One theorem after another: evaluated all at once, their threads exceed the memory limit of the check. -/
set_option Elab.async false

/-! ## Small states -/

/-- A machine that software has booted, at pc 1000h and privilege level 3 (95_test_vectors.md, conventions). -/
def lab : State := { State.reset.booted with cpl := 3#2, pc := 0x1000#64 }

/-- The same in 32-bit mode. -/
def lab32 : State := { lab with mode := .protected32 }

/-- `s` with a vector register set. -/
def setZ (n : BitVec 5) (v : Lanes) (s : State) : State := { s with zmm := s.zmm.set n.toNat v n.isLt }

/-- `s` with an opmask register set. -/
def setK (n : BitVec 3) (v : Qword) (s : State) : State := { s with k := s.k.set n.toNat v n.isLt }

/-- `s` with a general register set. -/
def setG (n : BitVec 4) (v : Qword) (s : State) : State := { s with gpr := s.gpr.set n.toNat v n.isLt }

/-- `s` with bytes of memory set. -/
def poke (a : Nat) : List Byte → State → State
  | [], s => s
  | b :: bs, s => poke (a + 1) bs { s with mem := Memory.write s.mem a b }

/-- Elements listed from element 0 on, and `up` above them. -/
def lanes (l : List Dword) (up : Dword) : Lanes := Vector.ofFn fun j => l.getD j.val up

/-- Every element the same. -/
def all (v : Dword) : Lanes := lanes [] v

/-- A step that runs these bytes answers a next state with this property. -/
def stepsTo (bs : List Byte) (s : State) (q : State → Bool) : Bool :=
  match step (placeProgram s bs) with
  | .next t => q t
  | _ => false

/-- A step that runs these bytes ends in a fault with this property. -/
def stepsToFault (bs : List Byte) (s : State) (q : Fault → Bool) : Bool :=
  match step (placeProgram s bs) with
  | .fault e => q e
  | _ => false

/-- An outcome is a next state. -/
def isNext (o : Host.Outcome State Fault Refusal) : Bool :=
  match o with
  | .next _ => true
  | _ => false

/-- An outcome is a fault. -/
def isFault (o : Host.Outcome State Fault Refusal) : Bool :=
  match o with
  | .fault _ => true
  | _ => false

theorem exists_next {o : Host.Outcome State Fault Refusal} (h : isNext o = true) : ∃ t, o = .next t := by
  cases o with
  | next t => exact ⟨t, rfl⟩
  | fault _ => cases h
  | refused _ => cases h

theorem exists_fault {o : Host.Outcome State Fault Refusal} (h : isFault o = true) : ∃ e, o = .fault e := by
  cases o with
  | fault e => exact ⟨e, rfl⟩
  | next _ => cases h
  | refused _ => cases h

/-- The elements 1.0, 2.0, 3.0, 4.0 in memory order (95_test_vectors.md L2). -/
def oneToFour : List Byte :=
  [0x00, 0x00, 0x80, 0x3F, 0x00, 0x00, 0x00, 0x40, 0x00, 0x00, 0x40, 0x40, 0x00, 0x00, 0x80, 0x40]

/-- `[rax]`. -/
def atRax : MemOp := ⟨0b00#2, 0b000#3, none, .none⟩

/-- `[rax]` with a disp8 of 4. -/
def atRax4 : MemOp := ⟨0b01#2, 0b000#3, none, .d8 4#8⟩

/-- EVEX fields of `zmm0, zmm1, _` with a writemask, `z` chosen. -/
def evex (z : Bool) (aaa : BitVec 3) : Evex := ⟨false, false, false, false, false, z, 1#4, aaa⟩

/-- VEX fields of `xmm0, xmm1, _`, three-byte and two-byte. -/
def vex3 : Vex3 := ⟨false, false, false, false, 1#4⟩
def vex2 : Vex2 := ⟨false, 1#4⟩

/-! ## Ill-formed terms -/

theorem test_wf_refuses_rex_outside_mode64 :
    wellFormed .mode64 (.subps [.rex false false false false] 0 (.reg 1)) = true ∧
      wellFormed .protected32 (.subps [.rex false false false false] 0 (.reg 1)) = false := by decide

theorem test_wf_refuses_mandatory_prefix : wellFormed .mode64 (.subps [.opSize] 0 (.reg 1)) = false := by decide

theorem test_wf_refuses_mod11_memory :
    wellFormed .mode64 (.subps [] 0 (.mem ⟨0b11#2, 0#3, none, .none⟩)) = false := by decide

theorem test_wf_refuses_missing_sib :
    wellFormed .mode64 (.subps [] 0 (.mem ⟨0b00#2, 0b100#3, none, .none⟩)) = false ∧
      wellFormed .mode64 (.subps [] 0 (.mem ⟨0b00#2, 0b000#3, some ⟨0, 0, 0⟩, .none⟩)) = false := by decide

theorem test_wf_refuses_wrong_displacement :
    wellFormed .mode64 (.subps [] 0 (.mem ⟨0b01#2, 0b000#3, none, .d32 0⟩)) = false ∧
      wellFormed .protected32 (.subps [.addrSize] 0 (.mem ⟨0b10#2, 0b000#3, none, .d32 0⟩)) = false := by decide

theorem test_wf_refuses_vex_bits_outside_mode64 :
    wellFormed .protected32 (.vsubps128c5 [] ⟨true, 0⟩ 0 (.reg 0)) = false ∧
      wellFormed .protected32 (.vsubps256c4 [] ⟨false, false, true, true, 8#4⟩ 0 (.reg 0)) = false ∧
      wellFormed .protected32 (.vsubps256c4 [] ⟨false, false, true, true, 7#4⟩ 0 (.reg 0)) = true := by decide

theorem test_wf_refuses_evex_bits_outside_mode64 :
    wellFormed .protected32 (.vsubpsEvex512er [] ⟨false, false, false, true, false, false, 0, 0⟩ 0 0 0) = false ∧
      wellFormed .mode64 (.vsubpsEvex512er [] ⟨false, false, false, true, false, false, 0, 0⟩ 0 0 0) = true := by
  decide

theorem test_wf_refuses_broadcast_register :
    wellFormed .mode64 (.vsubpsEvex256 [] (evex false 0) true 0 (.reg 0)) = false := by decide

theorem test_wf_refuses_sixteen_bytes :
    wellFormed .mode64 (.subps (List.replicate 12 .segDs) 0 (.reg 0)) = true ∧
      wellFormed .mode64 (.subps (List.replicate 13 .segDs) 0 (.reg 0)) = false := by decide

/-! ## Words written out from the encodings

The bits as 30_encoding.md rules R84 to R103 place them; the bytes are those of 95_test_vectors.md. -/

/-- `0F 5C C1`: ModRM `11 000 001` (L1). -/
theorem test_decode_subps :
    decode .mode64 [0b00001111, 0b01011100, 0b11000001] = .instr (.subps [] 0 (.reg 1)) [] := by decide

/-- `42 0F 5C 04 A3`: REX `0100 0010`, ModRM `00 000 100`, SIB `10 100 011` (A2). -/
theorem test_decode_subps_sib :
    decode .mode64 [0b01000010, 0b00001111, 0b01011100, 0b00000100, 0b10100011] =
      .instr (.subps [.rex false false true false] 0 (.mem ⟨0, 4, some ⟨2, 4, 3⟩, .none⟩)) [] := by decide

/-- `C5 E8 5C DA`: `1 1101 0 00`, ModRM `11 011 010` (V2). -/
theorem test_decode_vsubps128c5 :
    decode .mode64 [0b11000101, 0b11101000, 0b01011100, 0b11011010] =
      .instr (.vsubps128c5 [] ⟨false, 2⟩ 3 (.reg 2)) [] := by decide

/-- `C4 C1 68 5C 08`: `1 1 0 00001`, `0 1101 0 00`, ModRM `00 001 000` (V3). -/
theorem test_decode_vsubps128c4 :
    decode .mode64 [0b11000100, 0b11000001, 0b01101000, 0b01011100, 0b00001000] =
      .instr (.vsubps128c4 [] ⟨false, false, true, false, 2⟩ 1 (.mem atRax)) [] := by decide

/-- `C5 FC 5C D1`: `1 1111 1 00`, ModRM `11 010 001` (V1). -/
theorem test_decode_vsubps256c5 :
    decode .mode64 [0b11000101, 0b11111100, 0b01011100, 0b11010001] =
      .instr (.vsubps256c5 [] ⟨false, 0⟩ 2 (.reg 1)) [] := by decide

/-- `C4 61 EC 5C DA`: `0 1 1 00001`, `1 1101 1 00`, ModRM `11 011 010` (rule R95). -/
theorem test_decode_vsubps256c4 :
    decode .mode64 [0b11000100, 0b01100001, 0b11101100, 0b01011100, 0b11011010] =
      .instr (.vsubps256c4 [] ⟨true, false, false, true, 2⟩ 3 (.reg 2)) [] := by decide

/-- `62 F1 6C 89 5C 48 04`: P2 `1 00 0 1 001`, ModRM `01 001 000`, disp8 4 (E2). -/
theorem test_decode_vsubpsEvex128 :
    decode .mode64 [0b01100010, 0b11110001, 0b01101100, 0b10001001, 0b01011100, 0b01001000, 0b00000100] =
      .instr (.vsubpsEvex128 [] ⟨false, false, false, false, false, true, 2, 1⟩ false 1 (.mem atRax4)) [] := by
  decide

/-- `62 A1 6C 20 5C CB`: P0 `1 0 1 0 0001`, P2 `0 01 0 0 000`, ModRM `11 001 011` (E6). -/
theorem test_decode_vsubpsEvex256 :
    decode .mode64 [0b01100010, 0b10100001, 0b01101100, 0b00100000, 0b01011100, 0b11001011] =
      .instr (.vsubpsEvex256 [] ⟨false, true, false, true, true, false, 2, 0⟩ false 1 (.reg 3)) [] := by decide

/-- `62 F1 6C D9 5C 08`: P2 `1 10 1 1 001`, ModRM `00 001 000` (E3). -/
theorem test_decode_vsubpsEvex512 :
    decode .mode64 [0b01100010, 0b11110001, 0b01101100, 0b11011001, 0b01011100, 0b00001000] =
      .instr (.vsubpsEvex512 [] ⟨false, false, false, false, false, true, 2, 1⟩ true 1 (.mem atRax)) [] := by
  decide

/-- `62 F1 74 38 5C C2`: P2 `0 01 1 1 000`, RC = 01 (E8). -/
theorem test_decode_vsubpsEvex512er :
    decode .mode64 [0b01100010, 0b11110001, 0b01110100, 0b00111000, 0b01011100, 0b11000010] =
      .instr (.vsubpsEvex512er [] (evex false 0) 1 0 2) [] := by decide

/-- A word of the opcode table: `C5FC5C00`, first byte most significant (30_encoding.md rule R111). -/
theorem test_table_word :
    decodeTableWord 32 0xC5FC5C00 = some (.vsubps256c5 [] ⟨false, 0⟩ 0 (.mem atRax)) := by decide

/-! ## Single steps -/

/-- L1: the differences, the upper bits kept, the pc advanced. -/
theorem test_subps_register :
    stepsTo [0x0F, 0x5C, 0xC1]
      (setZ 0 (lanes [0x3F800000, 0x40000000, 0x40400000, 0x40A00000] 7) (setZ 1 (all 0x3F800000) lab))
      (fun t => t.readZmm 0 == lanes [0x00000000, 0x3F800000, 0x40000000, 0x40800000] 7 && t.mxcsr == 0x1F80 &&
        t.pc == 0x1003) = true := by decide +kernel

/-- L6: an unmasked invalid operation ends in #XM and leaves the destination and the pc. -/
theorem test_subps_unmasked :
    stepsToFault [0x0F, 0x5C, 0xC0]
      { setZ 0 (lanes [0x3F800000, 0x7F800000, 0x7FA00000, 0] 0) lab with mxcsr := 0x1F00 }
      (fun e => e.vector == 19 && e.after.pc == 0x1000 &&
        e.after.readZmm 0 == lanes [0x3F800000, 0x7F800000, 0x7FA00000, 0] 0) = true := by decide +kernel

/-- V2: a register minus itself, rounding down, is -0, and the upper bits are zeroed. -/
theorem test_vsubps128c5 :
    stepsTo [0xC5, 0xE8, 0x5C, 0xDA]
      { setZ 2 (all 0x3F800000) (setZ 3 (all 0xFFFFFFFF) lab) with mxcsr := 0x3F80 }
      (fun t => t.readZmm 3 == lanes [0x80000000, 0x80000000, 0x80000000, 0x80000000] 0 && t.mxcsr == 0x3F80) =
      true := by decide +kernel

/-- V3: an unaligned memory operand, through r8. -/
theorem test_vsubps128c4 :
    stepsTo [0xC4, 0xC1, 0x68, 0x5C, 0x08] (poke 0x2003 oneToFour (setG 8 0x2003 (setZ 2 (all 0x40A00000) lab)))
      (fun t => t.readZmm 1 == lanes [0x40800000, 0x40400000, 0x40000000, 0x3F800000] 0 && t.pc == 0x1005) =
      true := by decide +kernel

/-- V1: eight elements, the upper bits zeroed. -/
theorem test_vsubps256c5 :
    stepsTo [0xC5, 0xFC, 0x5C, 0xD1]
      (setZ 0 (all 0x40400000) (setZ 1 (all 0x3F800000) (setZ 2 (all 0xFFFFFFFF) lab)))
      (fun t => t.readZmm 2 == lanes (List.replicate 8 0x40000000) 0 && t.pc == 0x1004) = true := by decide +kernel

/-- V11 in the three-byte spelling: one element overflows, and its flags go to the shared register. -/
theorem test_vsubps256c4 :
    stepsTo [0xC4, 0xE1, 0x74, 0x5C, 0xC2]
      (setZ 1 (lanes (List.replicate 5 0x3F800000 ++ [0x7F7FFFFF]) 0x3F800000)
        (setZ 2 (lanes (List.replicate 5 0x3F800000 ++ [0xFF7FFFFF]) 0x3F800000) lab))
      (fun t => t.readZmm 0 == lanes (List.replicate 5 0 ++ [0x7F800000]) 0 && t.mxcsr == 0x1FA8) = true := by
  decide +kernel

/-- E1: a scaled displacement, merging, and zeros above the result. -/
theorem test_vsubpsEvex128 :
    stepsTo [0x62, 0xF1, 0x6C, 0x09, 0x5C, 0x48, 0x04]
      (poke 0x4040 oneToFour (setG 0 0x4000 (setK 1 5 (setZ 2 (all 0x40800000)
        (setZ 1 (lanes [0xDDDDDDDD, 0xCCCCCCCC, 0xBBBBBBBB, 0xAAAAAAAA] 0xFFFFFFFF) lab)))))
      (fun t => t.readZmm 1 == lanes [0x40400000, 0xCCCCCCCC, 0x3F800000, 0xAAAAAAAA] 0 && t.mxcsr == 0x1F80 &&
        t.pc == 0x1007) = true := by decide +kernel

/-- E6: registers 17, 18 and 19. -/
theorem test_vsubpsEvex256 :
    stepsTo [0x62, 0xA1, 0x6C, 0x20, 0x5C, 0xCB]
      (setZ 18 (all 0x40400000) (setZ 19 (all 0x3F800000) (setZ 17 (all 0xFFFFFFFF) lab)))
      (fun t => t.readZmm 17 == lanes (List.replicate 8 0x40000000) 0) = true := by decide +kernel

/-- E3: a broadcast under zeroing. -/
theorem test_vsubpsEvex512 :
    stepsTo [0x62, 0xF1, 0x6C, 0xD9, 0x5C, 0x08]
      (poke 0x3004 [0x00, 0x00, 0x00, 0x40] (setG 0 0x3004 (setK 1 0xFF (setZ 2 (all 0x40A00000) lab))))
      (fun t => t.readZmm 1 == lanes (List.replicate 8 0x40400000) 0 && t.history.length == 1) = true := by
  decide +kernel

/-- E5: an unmasked inexact result faults. -/
theorem test_vsubpsEvex512_unmasked :
    stepsToFault [0x62, 0xF1, 0x74, 0x48, 0x5C, 0xC2]
      { setZ 1 (all 0x3F800000) (setZ 2 (all 0x33000000) lab) with mxcsr := 0x0F80 }
      (fun e => e.vector == 19 && e.after.readZmm 0 == all 0) = true := by decide +kernel

/-- E10: the embedded mode, toward zero, overrides `MXCSR.RC`, and no flag is set. -/
theorem test_vsubpsEvex512er :
    stepsTo [0x62, 0xF1, 0x74, 0x78, 0x5C, 0xC2]
      { setZ 1 (all 0x3F800000) (setZ 2 (all 0x33000000) lab) with mxcsr := 0x5F80 }
      (fun t => t.readZmm 0 == all 0x3F7FFFFF && t.mxcsr == 0x5F80) = true := by decide +kernel

/-- E7: neither does an unmasked inexact result fault there. -/
theorem test_vsubpsEvex512er_suppressed :
    stepsTo [0x62, 0xF1, 0x74, 0x18, 0x5C, 0xC2]
      { setZ 1 (all 0x3F800000) (setZ 2 (all 0x33000000) lab) with mxcsr := 0x0F80 }
      (fun t => t.readZmm 0 == all 0x3F800000 && t.mxcsr == 0x0F80) = true := by decide +kernel

/-- Every row's step after reset, in 64-bit mode, is #UD: system software has not set the control registers
(70_reset_and_hazards.md rule R240). -/
theorem test_table_word_after_reset :
    (match step (State.reset.withFetchWord 24 0x0F5C00) with
      | .fault e => e.vector == 6
      | _ => false) = true := by decide +kernel

/-! ## The hypotheses of the statements can be met

One theorem for each statement with hypotheses, clause by clause, at boundary values. -/

/-- `lab` with operands 3.0 and 1.0, no difference of which signals anything, and rax = 2000h. -/
def plain : State := poke 0x2000 oneToFour (setG 0 0x2000 (setK 1 5 (setZ 0 (all 0x40400000)
  (setZ 1 (all 0x40400000) (setZ 2 (all 0x3F800000) lab)))))

/-- `lab` with inexact differences and PM = 0, in registers and, at rax = 2000h, in memory. -/
def inexact : State := { poke 0x2000 [0x00, 0x00, 0x00, 0x33] (setG 0 0x2000 (setK 1 1 (setZ 0 (all 0x3F800000)
  (setZ 1 (all 0x3F800000) (setZ 2 (all 0x33000000) lab))))) with mxcsr := 0x0F80 }

/-- `plain` with the linear addresses from `a` on not present. -/
def holed (a : Nat) : State := { plain with regions := [⟨a, 0x1000, a, false, 0xF, false, false⟩] }

/-- `plain` in 32-bit mode with flat segments. -/
def flat32 : State :=
  let flat : Seg := ⟨0, 0xFFFFFFFF, true⟩
  { plain with mode := .protected32, segs := ⟨flat, flat, flat, flat, flat, flat⟩ }

/-- The nine instructions on registers 0, 1 and 2. -/
def regForms : List Instr :=
  [.subps [] 0 (.reg 2), .vsubps128c5 [] vex2 0 (.reg 2), .vsubps128c4 [] vex3 0 (.reg 2),
    .vsubps256c5 [] vex2 0 (.reg 2), .vsubps256c4 [] vex3 0 (.reg 2),
    .vsubpsEvex128 [] (evex false 1) false 0 (.reg 2), .vsubpsEvex256 [] (evex true 1) false 0 (.reg 2),
    .vsubpsEvex512 [] (evex false 0) false 0 (.reg 2), .vsubpsEvex512er [] (evex false 1) 3 0 2]

/-- The eight that can have a memory operand, and the broadcasts, at `[rax]`. -/
def memForms : List Instr :=
  [.subps [] 0 (.mem atRax), .vsubps128c5 [] vex2 0 (.mem atRax), .vsubps128c4 [] vex3 0 (.mem atRax),
    .vsubps256c5 [] vex2 0 (.mem atRax), .vsubps256c4 [] vex3 0 (.mem atRax),
    .vsubpsEvex128 [] (evex false 1) false 0 (.mem atRax), .vsubpsEvex256 [] (evex true 1) false 0 (.mem atRax),
    .vsubpsEvex512 [] (evex false 0) false 0 (.mem atRax), .vsubpsEvex128 [] (evex false 1) true 0 (.mem atRax),
    .vsubpsEvex256 [] (evex true 1) true 0 (.mem atRax), .vsubpsEvex512 [] (evex false 0) true 0 (.mem atRax)]

/-- How many bytes the memory operand of an instruction has, for those above. -/
def sizeOf' : Instr → Nat
  | .subps .. | .vsubps128c5 .. | .vsubps128c4 .. => 16
  | .vsubps256c5 .. | .vsubps256c4 .. => 32
  | .vsubpsEvex128 _ _ bc _ _ => if bc then 4 else 16
  | .vsubpsEvex256 _ _ bc _ _ => if bc then 4 else 32
  | .vsubpsEvex512 _ _ bc _ _ => if bc then 4 else 64
  | .vsubpsEvex512er .. => 0

theorem every_form_completes : ∀ i ∈ regForms ++ memForms, ∃ t, exec i plain = .next t := fun i h =>
  exists_next ((by decide +kernel : ∀ i ∈ regForms ++ memForms, isNext (exec i plain) = true) i h)

/-! ### Encoding, decoding and the step -/

theorem witness_DecodeEncode :
    (∀ i ∈ regForms ++ memForms, wellFormed .mode64 i = true) ∧
      wellFormed .protected32 (.subps [.addrSize] 7 (.mem ⟨2, 7, none, .d16 0xFFFF⟩)) = true ∧
      wellFormed .mode64 (.subps [.segFs, .rex true true true true] 7 (.mem ⟨0, 4, some ⟨3, 4, 5⟩, .d32 1⟩)) =
        true := by decide

theorem witness_DecodeExact :
    decode .mode64 [0x0F, 0x5C, 0xC1, 0x90] = .instr (.subps [] 0 (.reg 1)) [0x90] := by decide

theorem witness_StepRunsDecoded :
    decode (placeProgram lab [0x0F, 0x5C, 0xC1]).mode (fetch (placeProgram lab [0x0F, 0x5C, 0xC1])).1 =
        .instr (.subps [] 0 (.reg 1)) (List.replicate 12 0) ∧
      wellFormed (placeProgram lab [0x0F, 0x5C, 0xC1]).mode (.subps [] 0 (.reg 1)) = true := by decide +kernel

/-- The page after the instruction is not present. -/
theorem witness_StepRunsEncoded :
    wellFormed (placeProgram (holed 0x1003) [0x0F, 0x5C, 0xC1]).mode (.subps [] 0 (.reg 1)) = true ∧
      Holds (placeProgram (holed 0x1003) [0x0F, 0x5C, 0xC1]) (encode (.subps [] 0 (.reg 1))) := by
  unfold Holds
  decide +kernel

/-- A byte that is needed and cannot be fetched: the third is not canonical, or lies outside CS in 32-bit mode, or on a
page that is not present, or in device memory. -/
theorem witness_StepRunsEncoded_fetch :
    (∀ s ∈ [{ plain with pc := 0x00007FFFFFFFFFFE },
        { flat32 with segs := { flat32.segs with cs := ⟨0, 0x1001, true⟩ } }],
      let s := placeProgram s [0x0F, 0x5C]
      s.mode ≠ .realAddress ∧ wellShaped s.mode (.subps [] 0 (.reg 1)) = true ∧
        2 < instrLength (.subps [] 0 (.reg 1)) ∧ ¬ InSegment s .cs (fetchOffset s 2)) ∧
      (let s := placeProgram (holed 0x1002) [0x0F, 0x5C]
       InSegment s .cs (fetchOffset s 2) ∧ pageFault s .fetch (linear s .cs (fetchOffset s 2)) ≠ none) ∧
      let s := placeProgram { plain with regions := [⟨0x1002, 1, 0x1002, true, 0xF, false, true⟩] } [0x0F, 0x5C]
      InSegment s .cs (fetchOffset s 2) ∧ pageFault s .fetch (linear s .cs (fetchOffset s 2)) = none ∧
        isDevice s (linear s .cs (fetchOffset s 2)) = true := by decide +kernel

/-- In each the bytes before it stand at the program counter. -/
theorem witness_StepRunsEncoded_holds :
    ∀ s ∈ [{ plain with pc := 0x00007FFFFFFFFFFE },
        { flat32 with segs := { flat32.segs with cs := ⟨0, 0x1001, true⟩ } }, holed 0x1002,
        { plain with regions := [⟨0x1002, 1, 0x1002, true, 0xF, false, true⟩] }],
      Holds (placeProgram s [0x0F, 0x5C]) ((encode (.subps [] 0 (.reg 1))).take 2) := by
  unfold Holds
  decide +kernel

theorem witness_NeighboursRefused :
    ([.opSize, .rep] : List Pfx).all (wfPfx .mode64) = true ∧ .opSize ∈ ([.opSize, .rep] : List Pfx) ∧
      badVexPfx [.segFs] = false ∧ (0xFD#8).extractLsb' 0 2 ≠ 0#2 ∧ (0xFF#8).extractLsb' 0 2 ≠ 0#2 ∧
      (0xE1#8).extractLsb' 0 5 = 1#5 ∧ (0xE1#8).extractLsb' 6 2 = 3#2 ∧ (0xF1#8).extractLsb' 0 4 = 1#4 ∧
      (0xF1#8).extractLsb' 6 2 = 3#2 ∧ (0x75#8).getLsbD 2 = true ∧ (0x75#8).extractLsb' 0 2 ≠ 0#2 ∧
      decode lab.mode (fetch lab).1 = .rejected .notSixForms := by decide +kernel

/-- E22, E17, E19 and E18; the reserved opcode maps 0, 4 and 31; and a state whose bytes are an invalid encoding. -/
theorem witness_ReservedEncodingsInvalid :
    (0xF5#8).extractLsb' 0 2 = 1#2 ∧ (0xF5#8).extractLsb' 2 2 ≠ 0#2 ∧ (0x70#8).extractLsb' 0 2 = 0#2 ∧
      (0x70#8).getLsbD 2 = false ∧ (0xF4#8).getLsbD 7 = true ∧ (0x68#8).extractLsb' 5 2 = 3#2 ∧
      (0x68#8).getLsbD 4 = false ∧ (0x78#8).extractLsb' 5 2 = 3#2 ∧
      readModRm (addrSize .mode64 []) [0x00] = some (0, .mem atRax, []) ∧
      (∀ b ∈ [0xE0#8, 0xE4#8, 0xFF#8], b.extractLsb' 6 2 = 3#2 ∧ b.extractLsb' 0 5 ≠ 1#5 ∧
        b.extractLsb' 0 5 ≠ 2#5 ∧ b.extractLsb' 0 5 ≠ 3#5) ∧
      decode .mode64 (fetch (placeProgram lab [0x62, 0xF1, 0x74, 0x68, 0x5C, 0xC2])).1 = .invalid ∧
      mxReserved lab.mxcsr = 0#16 := by decide +kernel

/-- In 32-bit mode, with the bits of U7 stored as 1: a wrong fixed bit in P0 and in P1, `W = 1`, and `L'L = 11`. -/
theorem witness_ReservedEncodingsInvalid_mode32 :
    (∀ p0 ∈ [0xF1#8, 0xF5#8], p0.extractLsb' 6 2 = 3#2 ∧ p0.getLsbD 5 = true ∧ p0.getLsbD 4 = true ∧
        p0.extractLsb' 0 2 = 1#2) ∧
      (∀ p1 ∈ [0x74#8, 0x70#8, 0xF4#8], p1.getLsbD 6 = true ∧ p1.extractLsb' 0 2 = 0#2) ∧
      (∀ p2 ∈ [0x48#8, 0x68#8], p2.getLsbD 3 = true) ∧ (0xF5#8).extractLsb' 2 2 ≠ 0#2 ∧
      (0x70#8).getLsbD 2 = false ∧ (0xF4#8).getLsbD 7 = true ∧
      ((0x68#8).extractLsb' 5 2 = 3#2 ∧ (0x68#8).getLsbD 4 = false) ∧
      readModRm (addrSize .protected32 []) [0x00] = some (0, .mem atRax, []) := by decide

/-- Each bit of U7 in turn stored as 0, in a three-byte VEX prefix and in an EVEX prefix. -/
theorem witness_ReservedEncodingsInvalid_uncertain :
    Mode.realAddress ≠ .mode64 ∧ Mode.protected32 ≠ .mode64 ∧
      ((0xE1#8).extractLsb' 6 2 = 3#2 ∧ (0xE1#8).extractLsb' 0 5 = 1#5 ∧ (0x28#8).extractLsb' 0 2 = 0#2 ∧
        (0x28#8).getLsbD 6 = false) ∧
      (0xF1#8).extractLsb' 6 2 = 3#2 ∧ (0xF1#8).extractLsb' 0 2 = 1#2 ∧ (0x74#8).extractLsb' 0 2 = 0#2 ∧
      (0xD1#8).getLsbD 5 = false ∧ (0xE1#8).getLsbD 4 = false ∧ (0x34#8).getLsbD 6 = false ∧
      (0x40#8).getLsbD 3 = false := by decide

/-- In the state after reset, in real-address mode, such an encoding ends in #UD; in 32-bit mode it is refused. -/
theorem test_uncertain_bits :
    (∀ bs ∈ [[0xC4, 0xE1, 0x28, 0x5C, 0xC0], [0x62, 0xD1, 0x74, 0x48, 0x5C, 0xC2]],
      (match step (placeProgram State.reset bs) with
        | .fault e => e.vector == 6
        | _ => false) = true ∧
      decode .protected32 bs = .rejected .uncertain32) := by decide +kernel

/-- A19, and one byte more. -/
theorem witness_LengthLimit :
    lab.mode ≠ .realAddress ∧
      ∀ n ∈ [13, 14], wellShaped lab.mode (.subps (List.replicate n .segDs) 0 (.mem atRax)) = true ∧
        15 < instrLength (.subps (List.replicate n .segDs) 0 (.mem atRax)) ∧
        Holds (placeProgram lab ((encode (.subps (List.replicate n .segDs) 0 (.mem atRax))).take 15))
          ((encode (.subps (List.replicate n .segDs) 0 (.mem atRax))).take 15) := by
  unfold Holds
  decide +kernel

theorem witness_RegisterNumbers :
    endsInRex [] = false ∧ endsInRex [.rex true true true true, .segDs] = false := by decide

/-! ### The element operation -/

theorem witness_NanPropagation :
    isNan 0x7FA00000 = true ∧ isNan 0xFFC00001 = true ∧ isNan 0x7F800000 = false ∧ isNan 0x7F800001 = true := by
  decide

theorem witness_InfiniteOperands :
    (cls 0xFF800000 = .inf ∧ signBit 0xFF800000 = signBit 0xFF800000) ∧
      (isNan 0x7F800000 = false ∧ isNan 0xFF800000 = false ∧
        ¬ (cls 0x7F800000 = .inf ∧ cls 0xFF800000 = .inf ∧ signBit 0x7F800000 = signBit 0xFF800000)) ∧
      (isNan 0x00000001 = false ∧ cls 0x00000001 ≠ .inf) := by decide

theorem witness_ExactZero :
    (isFinite 0x80000000 = true ∧ isFinite 0x00000000 = true ∧ exactDiff false 0x80000000 0x00000000 = 0) ∧
      (isFinite 0x7F7FFFFF = true ∧ exactDiff false 0x7F7FFFFF 0x7F7FFFFF = 0) ∧
      (isFinite 0x00000003 = true ∧ exactDiff true 0x00000003 0x80000001 = 0) := by decide +kernel

/-- Differences of one unit and of the largest denormal. -/
theorem witness_TinyResults :
    (isFinite 0x00800000 = true ∧ isFinite 0x00800001 = true ∧ exactDiff false 0x00800000 0x00800001 ≠ 0 ∧
        (exactDiff false 0x00800000 0x00800001).natAbs < 2 ^ 23) ∧
      (isFinite 0x00000001 = true ∧ exactDiff false 0x00800000 0x00000001 ≠ 0 ∧
        (exactDiff false 0x00800000 0x00000001).natAbs = 2 ^ 23 - 1) := by decide +kernel

theorem witness_PrecisionIsInexactness :
    isFinite 0x3F800000 = true ∧ isFinite 0x33000000 = true ∧ isFinite 0x7F7FFFFF = true ∧
      isFinite 0x80000001 = true := by decide

/-- Half a unit above the largest finite number overflows to nearest, and less does not; away from zero the smallest
difference overflows. -/
theorem witness_OverflowExactly :
    (isFinite 0x7F7FFFFF = true ∧ isFinite 0xF3000000 = true ∧ isFinite 0xF2FFFFFF = true ∧
        isFinite 0x80000001 = true ∧ isFinite 0xFF7FFFFF = true) ∧
      (laneSub .nearest false false true 0x7F7FFFFF 0xF3000000).2.oe = true ∧
      (laneSub .nearest false false true 0x7F7FFFFF 0xF2FFFFFF).2.oe = false ∧
      (laneSub .up false false true 0x7F7FFFFF 0x80000001).2.oe = true ∧
      (laneSub .down false false true 0x7F7FFFFF 0x80000001).2.oe = false ∧
      (laneSub .truncate false false true 0x7F7FFFFF 0xFF7FFFFF).2.oe = true := by decide +kernel

/-- A tie; the other finite number as near has an odd last bit. -/
theorem witness_NearestIsNearest :
    isFinite 0x4B800001 = true ∧ isFinite 0xBF800000 = true ∧
      (laneSub (.ofBits 0b00#2) false false true 0x4B800001 0xBF800000).2.oe = false ∧
      (laneSub (.ofBits 0b00#2) false false true 0x4B800001 0xBF800000).2.ue = false ∧
      (valOf 0x4B800002 - exactDiff false 0x4B800001 0xBF800000).natAbs =
        (valOf 0x4B800001 - exactDiff false 0x4B800001 0xBF800000).natAbs ∧
      valOf 0x4B800001 ≠ valOf 0x4B800002 := by decide +kernel

/-- In each directed mode, a positive and a negative inexact difference. -/
theorem witness_DirectedIsTightest :
    isFinite 0x3F800000 = true ∧ isFinite 0x33000000 = true ∧
      ∀ rc ∈ [0b01#2, 0b10#2, 0b11#2],
        ((laneSub (.ofBits rc) false false true 0x3F800000 0x33000000).2.oe = false ∧
          (laneSub (.ofBits rc) false false true 0x3F800000 0x33000000).2.ue = false) ∧
        ((laneSub (.ofBits rc) false false true 0x33000000 0x3F800000).2.oe = false ∧
          (laneSub (.ofBits rc) false false true 0x33000000 0x3F800000).2.ue = false) := by decide +kernel

/-- A factor of 2 exactly, whatever DAZ; and, where DAZ is 0, two denormals. -/
theorem witness_NearbyIsExact :
    (isFinite 0x40000000 = true ∧ isFinite 0x3F800000 = true ∧
      ∀ daz : Bool, 0 < valOf (dazOf daz 0x40000000) ∧ 0 < valOf (dazOf daz 0x3F800000) ∧
        valOf (dazOf daz 0x40000000) = 2 * valOf (dazOf daz 0x3F800000) ∧
        valOf (dazOf daz 0x3F800000) ≤ 2 * valOf (dazOf daz 0x40000000)) ∧
      (isFinite 0x00000003 = true ∧ isFinite 0x00000002 = true ∧ 0 < valOf (dazOf false 0x00000002) ∧
        valOf (dazOf false 0x00000003) ≤ 2 * valOf (dazOf false 0x00000002) ∧
        valOf (dazOf false 0x00000002) ≤ 2 * valOf (dazOf false 0x00000003)) := by decide +kernel

theorem witness_ExchangeNegates :
    isFinite 0x3F800000 = true ∧ isFinite 0x33000000 = true ∧ exactDiff false 0x3F800000 0x33000000 ≠ 0 := by
  decide +kernel

/-! ### Results -/

theorem witness_SubpsRegister :
    Ready (udOf (.subps [] 0 (.reg 2)) plain) plain ∧
      LanesMasked plain 4 (fun _ => true)
        (fun j => (mxSub plain (plain.readZmm 0)[j] (plain.readZmm 2)[j]).2) := by decide +kernel

theorem witness_SubpsMemory :
    Ready (udOf (.subps [] 0 (.mem atRax)) plain) plain ∧ (linear plain .ds 0x2000).toNat % 16 = 0 ∧
      memAddr plain [] false false 1 3 atRax = (.ds, 0x2000) ∧
      Accessible plain .ds .a64 0x2000 (List.range 16) ∧
      LanesMasked plain 4 (fun _ => true) (fun j => (mxSub plain (plain.readZmm 0)[j]
        ((readOf plain .ds .a64 0x2000 (List.range 16) false).dword (4 * j.val))).2) := by decide +kernel

theorem witness_VexRegister :
    plain.cfg.ok ∧ Ready (udVex [] plain) plain ∧
      LanesMasked plain 8 (fun _ => true)
        (fun j => (mxSub plain (plain.readZmm 1)[j] (plain.readZmm 2)[j]).2) := by decide +kernel

theorem witness_VexMemory :
    plain.cfg.ok ∧ Ready (udVex [] plain) plain ∧ memAddr plain [] false false 1 4 atRax = (.ds, 0x2000) ∧
      Accessible plain .ds .a64 0x2000 (List.range 32) ∧ mayTrapAlign plain 0x2000 32 = false ∧
      LanesMasked plain 8 (fun _ => true) (fun j => (mxSub plain (plain.readZmm 1)[j]
        ((readOf plain .ds .a64 0x2000 (List.range 32) false).dword (4 * j.val))).2) := by decide +kernel

theorem witness_EvexRegister :
    plain.cfg.ok ∧ Ready (udEvex true [] (evex true 1) plain) plain ∧
      Ready (udEvex false [] (evex false 1) plain) plain ∧
      LanesMasked plain 16 (active plain 1)
        (fun j => (mxSub plain (plain.readZmm 1)[j] (plain.readZmm 2)[j]).2) := by decide +kernel

/-- K1 = 5: the bytes of elements 1 and 3 need not be readable, and those of element 1 are not. -/
theorem witness_EvexMemory :
    let s := { plain with regions := [⟨0x2004, 4, 0x2004, false, 0, false, false⟩] }
    s.cfg.ok ∧ Ready (udOf (.vsubpsEvex128 [] (evex false 1) false 0 (.mem atRax)) s) s ∧
      memAddr s [] false false 16 6 atRax = (.ds, 0x2000) ∧ Accessible s .ds .a64 0x2000 (fullBytes s 1 .v128) ∧
      mayTrapAlign s 0x2000 16 = false ∧
      LanesMasked s 4 (active s 1) (fun j => (mxSub s (s.readZmm 1)[j]
        ((readOf s .ds .a64 0x2000 (fullBytes s 1 .v128) false).dword (4 * j.val))).2) := by decide +kernel

theorem witness_EvexBroadcast :
    plain.cfg.ok ∧ Ready (udOf (.vsubpsEvex512 [] (evex false 1) true 0 (.mem atRax)) plain) plain ∧
      Accessible plain .ds .a64 0x2000 [0, 1, 2, 3] ∧ mayTrapAlign plain 0x2000 4 = false ∧
      ¬ (∀ j < 16, active plain 1 j = false) ∧ oneAccess plain .ds 0x2000 [0, 1, 2, 3] = true ∧
      LanesMasked plain 16 (active plain 1) (fun j => (mxSub plain (plain.readZmm 1)[j]
        ((readOf plain .ds .a64 0x2000 [0, 1, 2, 3] true).dword 0)).2) := by decide +kernel

theorem witness_EvexRounding :
    inexact.cfg.ok ∧ Ready (udEvex false [] (evex false 1) inexact) inexact := by decide +kernel

/-- K2 = 0; the operand's page is not present. -/
theorem witness_AllMaskedOff :
    (holed 0x2000).cfg.ok ∧
      Ready (udOf (.vsubpsEvex512 [] (evex false 2) false 0 (.mem atRax)) (holed 0x2000)) (holed 0x2000) ∧
      (∀ j < 16, active (holed 0x2000) 2 j = false) ∧ (holed 0x2000).cfg.faultSuppression = true ∧
      byteFault (holed 0x2000) .read .ds 0x2000 ≠ none := by decide +kernel

/-- Another byte in element 1, which K1 = 5 masks off. -/
theorem witness_MaskedBytesIrrelevant :
    plain.oracle = [] ∧
      (∀ k < 16, active plain 1 (k / 4) = true →
        Memory.read (Memory.write plain.mem 0x2004 0xFF) (bytePhys plain .ds .a64 0x2000 k) =
          Memory.read plain.mem (bytePhys plain .ds .a64 0x2000 k)) ∧
      ∃ t, exec (.vsubpsEvex128 [] (evex false 1) false 0 (.mem atRax)) plain = .next t :=
  ⟨by decide +kernel, by decide +kernel, every_form_completes _ (by decide)⟩

theorem witness_UpperBits : ∀ i ∈ regForms ++ memForms, ∃ t, exec i plain = .next t := every_form_completes

/-- With a register, with `[rax]`, which completes and, where `CR0.TS = 1`, faults, and in 32-bit mode with
the operand that 64-bit mode reads as RIP-relative. -/
theorem witness_VexSpellingsAgree :
    (∀ i ∈ regForms ++ memForms, ∃ t, exec i plain = .next t) ∧
      ¬ (atRax.mod = 0b00#2 ∧ atRax.rm = 0b101#3) ∧
      (∃ e, exec (.vsubps256c5 [] vex2 0 (.mem atRax)) { plain with cr0 := plain.cr0 ||| 8#32 } = .fault e) ∧ lab32.mode ≠ .mode64 ∧
      ∃ t, exec (.vsubps128c5 [] vex2 0 (.mem ⟨0b00#2, 0b101#3, none, .d32 0x2000⟩)) flat32 = .next t :=
  ⟨every_form_completes, by decide, exists_fault (by decide +kernel), by decide, exists_next (by decide +kernel)⟩

/-! ### What a step writes -/

theorem witness_StepFrame : ∀ i ∈ regForms ++ memForms, ∃ t, exec i plain = .next t := every_form_completes

/-- In 64-bit mode, and in 32-bit mode over the end of the address space. -/
theorem witness_PcAdvances :
    (∃ t, step (placeProgram plain [0x0F, 0x5C, 0xC1]) = .next t) ∧
      ∃ t, step (placeProgram { plain with
          mode := .protected32, pc := 0xFFFFFFFE
          segs := { plain.segs with cs := ⟨0, 0xFFFFFFFF, true⟩ } } [0x0F, 0x5C, 0xC1]) = .next t :=
  ⟨exists_next (by decide +kernel), exists_next (by decide +kernel)⟩

/-- A numeric exception, which sets flags, and a page fault of the fetch, which writes CR2. -/
theorem witness_FaultLeavesState :
    (∃ e, step (placeProgram inexact [0x0F, 0x5C, 0xC2]) = .fault e) ∧ ∃ e, step (holed 0x1000) = .fault e :=
  ⟨exists_fault (by decide +kernel), exists_fault (by decide +kernel)⟩

/-- No flag set, all six, and ZE alone; bits 31:6 as they are. -/
theorem witness_FlagsNotRead :
    (∀ i ∈ regForms ++ memForms, ∃ t, exec i plain = .next t) ∧
      (0x1F80#32).extractLsb' 6 26 = plain.mxcsr.extractLsb' 6 26 ∧
      (0x1FBF#32).extractLsb' 6 26 = plain.mxcsr.extractLsb' 6 26 ∧
      (0x1F84#32).extractLsb' 6 26 = plain.mxcsr.extractLsb' 6 26 :=
  ⟨every_form_completes, by decide, by decide, by decide⟩

/-- They complete, are refused, and fault. -/
theorem witness_PrivilegeNotRead :
    (∀ i ∈ regForms, ∃ t, exec i plain = .next t) ∧
      (∀ i ∈ regForms, (match exec i { plain with mxcsr := 0x00011F80 } with
        | .refused r => r == .mxcsrReserved
        | _ => false) = true) ∧
      ∀ i ∈ regForms, isFault (exec i { plain with cr0 := plain.cr0 ||| 8#32 }) = true :=
  ⟨fun i h => every_form_completes i (List.mem_append_left _ h), by decide +kernel, by decide +kernel⟩

/-! ### Exceptions -/

theorem witness_UnmaskedRegister :
    Ready (udLegacy [] inexact) inexact ∧ Ready (udVex [] inexact) inexact ∧
      Ready (udEvex true [] (evex false 1) inexact) inexact ∧
      Ready (udEvex false [] (evex false 1) inexact) inexact ∧
      ¬ LanesMasked inexact 4 (active inexact 1)
        (fun j => (mxSub inexact (inexact.readZmm 0)[j] (inexact.readZmm 2)[j]).2) ∧
      ¬ LanesMasked inexact 8 (fun _ => true)
        (fun j => (mxSub inexact (inexact.readZmm 1)[j] (inexact.readZmm 2)[j]).2) := by decide +kernel

theorem witness_UnmaskedMemory :
    Ready (udLegacy [] inexact) inexact ∧ (linear inexact .ds 0x2000).toNat % 16 = 0 ∧
      Ready (udVex [] inexact) inexact ∧ (∀ i ∈ memForms, udOf i inexact = false) ∧
      memAddr inexact [] false false 1 3 atRax = (.ds, 0x2000) ∧
      Accessible inexact .ds .a64 0x2000 (List.range 64) ∧ mayTrapAlign inexact 0x2000 64 = false ∧
      ¬ LanesMasked inexact 4 (fun _ => true) (fun j => (mxSub inexact (inexact.readZmm 0)[j]
        ((readOf inexact .ds .a64 0x2000 (List.range 16) false).dword (4 * j.val))).2) ∧
      ¬ LanesMasked inexact 8 (fun _ => true) (fun j => (mxSub inexact (inexact.readZmm 1)[j]
        ((readOf inexact .ds .a64 0x2000 (List.range 32) false).dword (4 * j.val))).2) := by decide +kernel

/-- K1 = 1: element 0 alone is active. A broadcast that is read at once. -/
theorem witness_UnmaskedMemory_evex :
    (let ks := accessedOf (.vsubpsEvex512 [] (evex false 1) false 0 (.mem atRax)) inexact
     ks = [0, 1, 2, 3] ∧
       ¬ LanesMasked inexact 16 (active inexact 1) (fun j => (mxSub inexact (inexact.readZmm 1)[j]
         ((readOf inexact .ds .a64 0x2000 ks false).dword (4 * j.val))).2)) ∧
      let ks := accessedOf (.vsubpsEvex128 [] (evex false 1) true 0 (.mem atRax)) inexact
      ks = [0, 1, 2, 3] ∧ oneAccess inexact .ds 0x2000 ks = true ∧ mayTrapAlign inexact 0x2000 4 = false ∧
        ¬ LanesMasked inexact 4 (active inexact 1) (fun j => (mxSub inexact (inexact.readZmm 1)[j]
          ((readOf inexact .ds .a64 0x2000 ks (oneAccess inexact .ds 0x2000 ks)).dword 0)).2) := by decide +kernel

theorem witness_DeviceNotAvailable :
    (let s := { lab with cr0 := lab.cr0 ||| 8#32 }
     mxReserved s.mxcsr = 0#16 ∧ s.mode ≠ .realAddress ∧ s.cr0.getLsbD 3 = true ∧
       ∀ i ∈ regForms ++ memForms, udOf i s = false) ∧
      (let s := { lab with cr0 := lab.cr0 ||| 12#32 }
       mxReserved s.mxcsr = 0#16 ∧ s.cr0.getLsbD 3 = true ∧ s.cr0.getLsbD 2 = true) := by decide +kernel

/-- Each feature flag in turn, the others 1. -/
theorem witness_FeatureFlags :
    (let s := { lab with cfg := { lab.cfg with sse := false } }
     mxReserved s.mxcsr = 0#16 ∧ s.cfg.sse = false) ∧
      (let s := { lab with cfg := { lab.cfg with avx := false } }
       mxReserved s.mxcsr = 0#16 ∧ s.cfg.avx = false) ∧
      (let s := { lab with cfg := { lab.cfg with avx512f := false } }
       mxReserved s.mxcsr = 0#16 ∧ s.cfg.avx512f = false) ∧
      (let s := { lab with cfg := { lab.cfg with avx512vl := false } }
       mxReserved s.mxcsr = 0#16 ∧ (s.cfg.avx512f = false ∨ s.cfg.avx512vl = false)) := by decide +kernel

theorem witness_LockInvalid :
    mxReserved lab.mxcsr = 0#16 ∧ .lock ∈ prefixesOf (.subps [.segDs, .lock] 0 (.mem atRax)) ∧
      .lock ∈ prefixesOf (.vsubpsEvex512er [.lock] (evex false 0) 0 0 0) := by decide

/-- Each control bit, prefix and field in turn, with the values after which the bit alone is wrong. -/
theorem witness_ControlBits :
    (∀ s ∈ [{ lab with cr0 := lab.cr0 ||| 4#32 }, { lab with cr4 := 0x00040400#32 }],
        mxReserved s.mxcsr = 0#16 ∧ (s.cr0.getLsbD 2 = true ∨ s.cr4.getLsbD 9 = false)) ∧
      (∀ s ∈ [{ lab with cr4 := 0x00000600#32 }, { lab with xcr0 := 0xE3#64 }, { lab with xcr0 := 0xE5#64 }],
        mxReserved s.mxcsr = 0#16 ∧ (s.cr4.getLsbD 18 = false ∨ s.xcr0.extractLsb' 1 2 ≠ 3#2)) ∧
      (∀ s ∈ [{ lab with xcr0 := 0xC7#64 }, { lab with xcr0 := 0xA7#64 }, { lab with xcr0 := 0x67#64 }],
        mxReserved s.mxcsr = 0#16 ∧ s.xcr0.extractLsb' 1 2 = 3#2 ∧ s.xcr0.extractLsb' 5 3 ≠ 7#3) ∧
      endsInRex [.segDs, .rex false false false false] = true ∧ .opSize ∈ ([.opSize] : List Pfx) ∧
      .repne ∈ ([.repne, .segDs] : List Pfx) ∧ .rep ∈ ([.segDs, .rep] : List Pfx) ∧
      ((evex true 0).z = true ∧ (evex true 0).aaa = 0#3) := by decide +kernel

/-- The lowest and the highest reserved bit of `MXCSR`; real-address mode with the legacy form's control bits right;
for every form an operand whose first accessed byte has read side effects. -/
theorem witness_OutOfScopeRefused :
    (∀ s ∈ [{ lab with mxcsr := 0x00011F80 }, { lab with mxcsr := 0x80001F80 }], mxReserved s.mxcsr ≠ 0#16) ∧
      (let s := { lab with mode := .realAddress }
       mxReserved s.mxcsr = 0#16 ∧ s.mode = .realAddress ∧ udOf (.subps [] 0 (.reg 1)) s = false) ∧
      (let s := { plain with regions := [⟨0x2000, 1, 0x2000, true, 0xF, false, true⟩] }
       ∀ i ∈ memForms, ReadsAt i s .ds 0x2000 (sizeOf' i) ∧
         (∀ k ∈ accessedOf i s, byteFault s .read .ds (offsetOf i s 0x2000 k) = none) ∧
         mayTrapAlign s (linear s .ds 0x2000) (sizeOf' i) = false ∧
         ∃ k ∈ accessedOf i s, isDevice s (linear s .ds (offsetOf i s 0x2000 k)) = true) := by decide +kernel

/-- An address 8 above a multiple of 16, as in P4, and one byte below a multiple, where the next page is not
present. -/
theorem witness_LegacyMisaligned :
    ∀ s ∈ [setG 0 0x2008 plain, setG 0 0x5FFF (holed 0x6000)],
      Ready (udLegacy [] s) s ∧
        (linear s (memAddr s [] false false 1 3 atRax).1 (memAddr s [] false false 1 3 atRax).2).toNat % 16 ≠ 0 := by
  decide +kernel

/-- For every form the first byte of the operand is not present, in 64-bit mode; in 32-bit mode only the last byte of
a VEX operand is. -/
theorem witness_PageFaultReported :
    (∀ i ∈ memForms, ReadsAt i (holed 0x2000) .ds 0x2000 (sizeOf' i) ∧
      (∀ k ∈ accessedOf i (holed 0x2000), InSegment (holed 0x2000) .ds (offsetOf i (holed 0x2000) 0x2000 k)) ∧
      ∃ k ∈ accessedOf i (holed 0x2000),
        pageFault (holed 0x2000) .read (linear (holed 0x2000) .ds (offsetOf i (holed 0x2000) 0x2000 k)) ≠ none) ∧
      (let s := { flat32 with regions := [⟨0x201F, 0x1000, 0x201F, false, 0xF, false, false⟩] }
       let i := Instr.vsubps256c4 [] vex3 0 (.mem atRax)
       ReadsAt i s .ds 0x2000 32 ∧ (∀ k ∈ accessedOf i s, InSegment s .ds (offsetOf i s 0x2000 k)) ∧
         ∃ k ∈ accessedOf i s, pageFault s .read (linear s .ds (offsetOf i s 0x2000 k)) ≠ none) := by
  decide +kernel

/-- The lowest and the highest run of addresses that are not canonical, through DS and through SS, and, for every form,
64 bytes in a row. -/
theorem witness_NonCanonical :
    (∀ i ∈ memForms, ReadsAt i (setG 0 0x0000800000000000 plain) .ds 0x0000800000000000 (sizeOf' i)) ∧
      (∀ k < 64, ¬ InSegment (setG 0 0x0000800000000000 plain) .ds
        (byteOffset (setG 0 0x0000800000000000 plain) .a64 0x0000800000000000 k)) ∧
      (let s := setG 5 0xFFFF7FFFFFFFFFF0 plain
       let i := Instr.vsubps128c4 [] vex3 0 (.mem ⟨0b01#2, 0b101#3, none, .d8 0#8⟩)
       ReadsAt i s .ss 0xFFFF7FFFFFFFFFF0 16 ∧
         ∀ k ∈ accessedOf i s, ¬ InSegment s .ss (offsetOf i s 0xFFFF7FFFFFFFFFF0 k)) := by decide +kernel

/-- `flat32` with the limit of DS and SS at 200Eh and ES unusable. -/
def limited : State :=
  { flat32 with segs := { flat32.segs with
      ds := ⟨0, 0x200E, true⟩, ss := ⟨0, 0x200E, true⟩, es := ⟨0, 0xFFFFFFFF, false⟩ } }

/-- In 32-bit mode: the last byte of the operand alone one above the limit, through DS and through SS, and an unusable
segment. -/
theorem witness_NonCanonical_segments :
    (ReadsAt (.vsubps128c4 [] vex3 0 (.mem atRax)) limited .ds 0x2000 16 ∧
      ReadsAt (.vsubps128c4 [.segSs] vex3 0 (.mem atRax)) limited .ss 0x2000 16 ∧
      ReadsAt (.subps [.segEs] 0 (.mem atRax)) limited .es 0x2000 16) ∧
      (∃ k < 16, ¬ InSegment limited .ds (byteOffset limited .a32 0x2000 k) ∧
        ¬ InSegment limited .ss (byteOffset limited .a32 0x2000 k)) ∧
      (∀ k < 15, InSegment limited .ds (byteOffset limited .a32 0x2000 k) ∧
        pageFault limited .read (linear limited .ds (byteOffset limited .a32 0x2000 k)) = none ∧
        InSegment limited .ss (byteOffset limited .a32 0x2000 k) ∧
        pageFault limited .read (linear limited .ss (byteOffset limited .a32 0x2000 k)) = none) ∧
      ∀ k < 16, ¬ InSegment limited .es (byteOffset limited .a32 0x2000 k) :=
  ⟨by decide +kernel, by decide +kernel, by decide +kernel, by decide +kernel⟩

/-- K1 = 5: element 2 is active, and only its last byte is not present; a broadcast of which only the last byte is not;
and, with K1 = 0 and no fault suppression, the same. -/
theorem witness_ActiveByteFaults :
    Ready (udOf (.vsubpsEvex128 [] (evex false 1) false 0 (.mem atRax)) (holed 0x200B)) (holed 0x200B) ∧
      memAddr (holed 0x200B) [] false false 16 6 atRax = (.ds, 0x2000) ∧
      (∃ k < 16, active (holed 0x200B) 1 (k / 4) = true ∧
        byteFault (holed 0x200B) .read .ds (byteOffset (holed 0x200B) .a64 0x2000 k) ≠ none) ∧
      (∀ s ∈ [holed 0x2003, setK 1 0 { holed 0x2003 with
          cfg := { (holed 0x2003).cfg with faultSuppression := false } }],
        Ready (udOf (.vsubpsEvex512 [] (evex false 1) true 0 (.mem atRax)) s) s ∧
          memAddr s [] false false 4 6 atRax = (.ds, 0x2000) ∧
          ((∃ j < 16, active s 1 j = true) ∨ s.cfg.faultSuppression = false) ∧
          ∃ k < 4, byteFault s .read .ds (byteOffset s .a64 0x2000 k) ≠ none) := by decide +kernel

/-- `lab` where alignment checking is in force, and rax = 200Fh. -/
def checking : State := { setG 0 0x200F plain with
  cfg := { plain.cfg with acOnVector := true }, cr0 := plain.cr0 ||| 0x00040000#32, eflags := 0x00040002#32 }

/-- Each condition in turn, the others in force. -/
theorem witness_AlignmentCheckOnlyWhen :
    { checking with cfg := plain.cfg }.cfg.acOnVector = false ∧ { checking with cr0 := plain.cr0 }.cr0.getLsbD 18 = false ∧
      { checking with eflags := 2 }.eflags.getLsbD 18 = false ∧ { checking with cpl := 0 }.cpl ≠ 3#2 ∧
      (∃ (p : List Pfx) (reg : BitVec 3) (rm : Rm), Instr.subps [] 0 (.mem atRax) = .subps p reg rm) ∧
      (operandOf (.vsubps128c4 [] vex3 0 (.mem atRax)) (setG 0 0x2010 checking) = some (.ds, 0x2010, 16) ∧
        (linear (setG 0 0x2010 checking) .ds 0x2010).toNat % 16 = 0) ∧
      operandOf (.vsubps128c4 [] vex3 0 (.reg 2)) checking = none :=
  ⟨by decide +kernel, by decide +kernel, by decide +kernel, by decide +kernel, ⟨_, _, _, rfl⟩, by decide +kernel,
    by decide +kernel⟩

/-- One byte below a multiple of the size, for every size, with all bytes readable: of each form the operand is
misaligned, and an element is active. -/
theorem witness_AlignmentCheckEitherWay :
    checking.cfg.ok ∧
      (∀ i ∈ memForms, udOf i checking = false ∧ accessedOf i checking ≠ [] ∧
        (linear checking .ds 0x200F).toNat % sizeOf' i ≠ 0) ∧
      Ready (udVex [] checking) checking ∧ memAddr checking [] false false 1 5 atRax = (.ds, 0x200F) ∧
      Accessible checking .ds .a64 0x200F (List.range 64) ∧ Misaligned checking .ds 0x200F 16 := by decide +kernel

/-- Of a VEX operand and of a broadcast there, the conditions are masked. -/
theorem witness_AlignmentCheckEitherWay_completes :
    LanesMasked checking 8 (fun _ => true) (fun j => (mxSub checking (checking.readZmm 1)[j]
        ((readOf checking .ds .a64 0x200F (List.range 32) false).dword (4 * j.val))).2) ∧
      oneAccess checking .ds 0x200F [0, 1, 2, 3] = false ∧
      LanesMasked checking 16 (active checking 1) (fun j => (mxSub checking (checking.readZmm 1)[j]
        ((readOf checking .ds .a64 0x200F [0, 1, 2, 3] false).dword 0)).2) := by decide +kernel

/-- There, with inexact differences and PM = 0, an unmasked condition. -/
theorem witness_AlignmentCheckEitherWay_faults :
    let s := { checking with mxcsr := 0x0F80, zmm := inexact.zmm }
    Ready (udVex [] s) s ∧ Misaligned s .ds 0x200F 16 ∧ Accessible s .ds .a64 0x200F (List.range 16) ∧
      ¬ LanesMasked s 4 (fun _ => true) (fun j => (mxSub s (s.readZmm 1)[j]
        ((readOf s .ds .a64 0x200F (List.range 16) false).dword (4 * j.val))).2) := by decide +kernel

/-! ### Memory and addresses -/

theorem witness_ReadAfterWrite : Memory.wf [] ∧ Memory.wf [(0, 1#8), (5, 7#8)] := by decide

/-- K1 = 5: the bytes of elements 0 and 2 alone. -/
theorem witness_LittleEndian :
    plain.oracle = [] ∧
      accessedOf (.vsubpsEvex128 [] (evex false 1) false 0 (.mem atRax)) plain = [0, 1, 2, 3, 8, 9, 10, 11] ∧
      [0, 1, 2, 3, 8, 9, 10, 11].Nodup ∧ (∀ b < 4, 4 * 2 + b ∈ [0, 1, 2, 3, 8, 9, 10, 11]) ∧
      active plain 1 2 = true ∧ active plain 0 15 = true := by decide +kernel

/-- The oracle answers read number 1, the byte 3 of these, and no other. -/
theorem witness_ReadEvents :
    [0, 3, 8].Nodup ∧ 1 < [0, 3, 8].length ∧
      { plain with oracle := [(1, [0xAA])] }.oracle.lookup ({ plain with oracle := [(1, [0xAA])] }.history.length + 0) =
        none ∧
      { plain with oracle := [(1, [0xAA])] }.oracle.lookup
        ({ plain with oracle := [(1, [0xAA])] }.history.length + 1) = some [0xAA] ∧
      { plain with oracle := [(0, [0xAA])] }.oracle.lookup { plain with oracle := [(0, [0xAA])] }.history.length =
        some [0xAA] := by decide

/-- Both modes and both address sizes, no override and the last of two that count; each clause of `rm` and SIB base; an
index that is none. -/
theorem witness_EffectiveAddress :
    plain.mode = .mode64 ∧ (flat32.mode = .protected32 ∧ .addrSize ∉ ([.segEs] : List Pfx)) ∧
      OverriddenBy .mode64 [.addrSize, .segDs] none ∧ OverriddenBy .mode64 [.segFs, .segGs, .segEs] (some .gs) ∧
      OverriddenBy .protected32 [.segFs, .segEs, .addrSize] (some .es) ∧
      ((0b000#3 : BitVec 3) ≠ 0b100#3 ∧ (0b000#3 : BitVec 3) ≠ 0b101#3 ∧ (0b101#3 : BitVec 3) ≠ 0b100#3) ∧
      ((⟨0, 0b100, 0b101⟩ : Sib).base = 0b101#3 ∧ (⟨3, 0b111, 0b100⟩ : Sib).base ≠ 0b101#3) ∧
      regNum .mode64 false (⟨0, 0b100, 0b101⟩ : Sib).index = 4#4 :=
  ⟨by decide, by decide, by unfold OverriddenBy; decide, ⟨[.segFs], [.segEs], .segGs, by decide, rfl, by decide⟩,
    ⟨[.segFs], [.addrSize], .segEs, by decide, rfl, by decide⟩, by decide, by decide, by decide⟩

theorem witness_EffectiveAddress16 :
    flat32.mode = .protected32 ∧ .addrSize ∈ ([.segCs, .addrSize] : List Pfx) ∧
      OverriddenBy .protected32 [.addrSize] none ∧ OverriddenBy .protected32 [.segCs, .addrSize] (some .cs) ∧
      (0b111#3 : BitVec 3) ≠ 0b110#3 :=
  ⟨by decide, by decide, by unfold OverriddenBy; decide, ⟨[], [.addrSize], .segCs, by decide, rfl, by decide⟩,
    by decide⟩

/-! ### Invariant -/

/-- The invariant of a state follows from finitely many tests. -/
theorem witness_StepKeepsInv :
    Inv (placeProgram plain [0x0F, 0x5C, 0xC2]) ∧ ∃ t, step (placeProgram plain [0x0F, 0x5C, 0xC2]) = .next t :=
  ⟨⟨by decide +kernel, by decide +kernel, by decide +kernel, by decide +kernel, by decide +kernel,
    by decide +kernel⟩, exists_next (by decide +kernel)⟩

/-- So it is where AVX512F is absent and `KW` is 16. -/
theorem witness_StepKeepsInv_narrow :
    Inv (placeProgram { lab32 with cfg :=
        { lab32.cfg with avx512f := false, avx512vl := false, maxVl := .v256, kw := .w16 } } [0x0F, 0x5C, 0xC2]) ∧
      ∃ t, step (placeProgram { lab32 with cfg :=
        { lab32.cfg with avx512f := false, avx512vl := false, maxVl := .v256, kw := .w16 } } [0x0F, 0x5C, 0xC2]) =
          .next t :=
  ⟨⟨by decide +kernel, by decide +kernel, by decide +kernel, by decide +kernel, by decide +kernel,
    by decide +kernel⟩, exists_next (by decide +kernel)⟩

end Sys2Proof.Tests
end

section
/-! SUPPORT. The decoder as a whole: it reads back what the encoder writes, and what it answers on some bytes it
answers on every continuation of them. -/

namespace Sys2Proof

open Sys2Proof.Machine

/-! ## Reading back an encoding -/

/-- Once ModRM and what follows stand as encoded, the decoder goes on with their fields. -/
theorem withModRm_encodeRm {a : AddrSize} {rm : Rm} (h : wfRm a rm = true) (reg : BitVec 3) (rest : List Byte)
    (mk : BitVec 3 → Rm → List Byte → Decoded) :
    withModRm a (encodeRm reg rm ++ rest) mk = mk reg rm rest := by
  simp [withModRm, readModRm_encodeRm h]

/-- A two-byte VEX encoding is read back. -/
theorem decodeVex2_encode {m : Mode} {p : List Pfx} {v : Vex2} {rm : Rm} (hp : p.all (wfPfx m) = true)
    (hv : wfVex m v.r false v.vvvv = true) (hrm : wfRm (addrSize m p) rm = true) (l : Bool) (reg : BitVec 3)
    (rest : List Byte) :
    decode m (p.map encodePfx ++ (encodeVex2 v l ++ [0x5C#8] ++ encodeRm reg rm) ++ rest) =
      .instr (if l then .vsubps256c5 p v reg rm else .vsubps128c5 p v reg rm) rest := by
  obtain ⟨b, henc, hof, hl, hpp, htop⟩ := encodeVex2_fields v l
  have hb : isVexByte m b = true := isVexByte_of htop (by simpa [wfVex] using hv)
  simp only [henc, List.append_assoc, List.cons_append, List.nil_append]
  rw [(decode_after_prefixes hp _).2.1]
  simp only [decodeVex2, hb, hpp, withModRm_encodeRm hrm, hl, hof]
  cases l <;> simp

/-- A three-byte VEX encoding is read back. -/
theorem decodeVex3_encode {m : Mode} {p : List Pfx} {v : Vex3} {rm : Rm} (hp : p.all (wfPfx m) = true)
    (hv : wfVex m v.r v.x v.vvvv = true) (hrm : wfRm (addrSize m p) rm = true) (l : Bool) (reg : BitVec 3)
    (rest : List Byte) :
    decode m (p.map encodePfx ++ (encodeVex3 v l ++ [0x5C#8] ++ encodeRm reg rm) ++ rest) =
      .instr (if l then .vsubps256c4 p v reg rm else .vsubps128c4 p v reg rm) rest := by
  obtain ⟨b, c, henc, hof, hl, hpp, hmap, htop, hv3⟩ := encodeVex3_fields v l
  have hmode : m = .mode64 ∨ (v.r = false ∧ v.x = false) ∧ v.vvvv.getLsbD 3 = false := by
    simpa [wfVex] using hv
  have hb : isVexByte m b = true := isVexByte_of htop (hmode.imp_right And.left)
  have hc : ¬ (m ≠ .mode64 ∧ c.getLsbD 6 = false) := by
    rintro ⟨hne, h6⟩
    obtain ⟨-, h⟩ := hmode.resolve_left hne
    rw [hv3, h] at h6
    exact absurd h6 (by decide)
  simp only [henc, List.append_assoc, List.cons_append, List.nil_append]
  rw [(decode_after_prefixes hp _).2.2.1]
  simp only [decodeVex3, hb, hmap, hpp, hc, withModRm_encodeRm hrm, hl, hof]
  cases l <;> simp [reservedMap]

/-- An EVEX encoding is read back up to the choice of its row. -/
theorem decodeEvex_encode {m : Mode} {p : List Pfx} {e : Evex} {rm : Rm} (hp : p.all (wfPfx m) = true)
    (he : wfEvex m e = true) (hrm : wfRm (addrSize m p) rm = true) (ll : BitVec 2) (bc : Bool) (reg : BitVec 3)
    (rest : List Byte) :
    ∃ p0 p1 p2 : Byte, evexOf p0 p1 p2 = e ∧ p2.extractLsb' 5 2 = ll ∧ p2.getLsbD 4 = bc ∧
      decode m (p.map encodePfx ++ (encodeEvex e ll bc ++ [0x5C#8] ++ encodeRm reg rm) ++ rest) =
        evexRow p p0 p1 p2 reg rm rest := by
  obtain ⟨p0, p1, p2, henc, hof, hll, hbc, hmap, hpp, hres, hw, htop, h5, h4, h6, h3⟩ := encodeEvex_fields e ll bc
  refine ⟨p0, p1, p2, hof, hll, hbc, ?_⟩
  have hmode : m = .mode64 ∨ ((((e.r = false ∧ e.x = false) ∧ e.b = false) ∧ e.rp = false) ∧ e.vp = false) ∧
      e.vvvv.getLsbD 3 = false := by
    simpa [wfEvex] using he
  have hb : isVexByte m p0 = true :=
    isVexByte_of htop (hmode.imp_right fun ⟨⟨⟨⟨hrx, _⟩, _⟩, _⟩, _⟩ => hrx)
  have hc : ¬ (m ≠ .mode64 ∧ (p0.getLsbD 5 && p0.getLsbD 4 && p1.getLsbD 6 && p2.getLsbD 3) = false) := by
    rintro ⟨hne, hbits⟩
    obtain ⟨⟨⟨⟨-, hB⟩, hrp⟩, hvp⟩, hv⟩ := hmode.resolve_left hne
    rw [h5, h4, h6, h3, hB, hrp, hvp, hv] at hbits
    exact absurd hbits (by decide)
  simp only [henc, List.append_assoc, List.cons_append, List.nil_append]
  rw [(decode_after_prefixes hp _).2.2.2]
  simp only [decodeEvex, hb, hmap, hpp, hc, withModRm_encodeRm hrm, hres, hw]
  simp

/-- An EVEX encoding of a length row, with the length in L'L and no embedded rounding, is of that row. -/
theorem evexRow_of_broadcast {p : List Pfx} {p0 p1 p2 : Byte} {reg : BitVec 3} {rm : Rm} {rest : List Byte}
    (h : wfBroadcast (p2.getLsbD 4) rm = true) :
    evexRow p p0 p1 p2 reg rm rest =
      if p2.extractLsb' 5 2 = 0b00#2 then .instr (.vsubpsEvex128 p (evexOf p0 p1 p2) (p2.getLsbD 4) reg rm) rest
      else if p2.extractLsb' 5 2 = 0b01#2 then
        .instr (.vsubpsEvex256 p (evexOf p0 p1 p2) (p2.getLsbD 4) reg rm) rest
      else if p2.extractLsb' 5 2 = 0b10#2 then
        .instr (.vsubpsEvex512 p (evexOf p0 p1 p2) (p2.getLsbD 4) reg rm) rest
      else .invalid := by
  cases rm with
  | reg n =>
    have hb : p2.getLsbD 4 = false := by simpa [wfBroadcast] using h
    simp only [evexRow, hb]
  | mem o => rfl

/-- The decoder reads back the encoding of every well-shaped instruction, of any length and whatever bytes follow
(30_encoding.md rules R84 to R103). -/
theorem decode_encode_of_wellShaped {m : Mode} {i : Instr} (h : wellShaped m i = true) (rest : List Byte) :
    decode m (encode i ++ rest) = .instr i rest := by
  cases i with
  | subps p reg rm =>
    simp only [wellShaped, Bool.and_eq_true, Bool.not_eq_true'] at h
    obtain ⟨⟨hp, hman⟩, hrm⟩ := h
    simp only [encode, List.append_assoc, List.cons_append, List.nil_append]
    rw [(decode_after_prefixes hp _).1]
    simp [decodeLegacy, hman, withModRm_encodeRm hrm]
  | vsubps128c5 p v reg rm | vsubps256c5 p v reg rm =>
    simp only [wellShaped, Bool.and_eq_true] at h
    obtain ⟨⟨hp, hv⟩, hrm⟩ := h
    exact decodeVex2_encode hp hv hrm _ reg rest
  | vsubps128c4 p v reg rm | vsubps256c4 p v reg rm =>
    simp only [wellShaped, Bool.and_eq_true] at h
    obtain ⟨⟨hp, hv⟩, hrm⟩ := h
    exact decodeVex3_encode hp hv hrm _ reg rest
  | vsubpsEvex128 p e bc reg rm | vsubpsEvex256 p e bc reg rm | vsubpsEvex512 p e bc reg rm =>
    simp only [wellShaped, Bool.and_eq_true] at h
    obtain ⟨⟨⟨hp, he⟩, hbc⟩, hrm⟩ := h
    obtain ⟨p0, p1, p2, rfl, hll, rfl, hd⟩ := decodeEvex_encode hp he hrm _ bc reg rest
    refine hd.trans ?_
    rw [evexRow_of_broadcast hbc, hll]
    rfl
  | vsubpsEvex512er p e rc reg rm =>
    simp only [wellShaped, Bool.and_eq_true] at h
    obtain ⟨hp, he⟩ := h
    obtain ⟨p0, p1, p2, rfl, rfl, hbc, hd⟩ := decodeEvex_encode (rm := .reg rm) hp he rfl rc true reg rest
    refine hd.trans ?_
    simp only [evexRow, hbc]

/-! ## More bytes change nothing -/

/-- What the decoder finds, with bytes added after those that it leaves. -/
def Decoded.append (d : Decoded) (t : List Byte) : Decoded :=
  match d with
  | .instr i rest => .instr i (rest ++ t)
  | .invalid => .invalid
  | .rejected r => .rejected r
  | .more => .more

@[simp] theorem Decoded.append_instr (i : Instr) (rest t : List Byte) :
    (Decoded.instr i rest).append t = .instr i (rest ++ t) := rfl

@[simp] theorem Decoded.append_invalid (t : List Byte) : Decoded.invalid.append t = .invalid := rfl

@[simp] theorem Decoded.append_rejected (r : Reject) (t : List Byte) :
    (Decoded.rejected r).append t = .rejected r := rfl

@[simp] theorem notOurs_append (p : List Pfx) (t : List Byte) : (notOurs p).append t = notOurs p := by
  unfold notOurs
  split_ifs <;> rfl

@[simp] theorem uncertainBits_append (m : Mode) (t : List Byte) : (uncertainBits m).append t = uncertainBits m := by
  unfold uncertainBits
  split_ifs <;> rfl

/-- The prefixes end at the first byte that is none, whatever follows it. -/
theorem takePfx_append {m : Mode} {bs : List Byte} (h : (takePfx m bs).2 ≠ []) (t : List Byte) :
    takePfx m (bs ++ t) = ((takePfx m bs).1, (takePfx m bs).2 ++ t) := by
  induction bs with
  | nil => simp [takePfx] at h
  | cons b bs ih =>
    cases hb : pfxOf m b with
    | none => simp [takePfx, hb]
    | some p =>
      simp only [takePfx, hb] at h
      simp [takePfx, hb, ih h]

/-- A displacement is read whatever follows it. -/
theorem readDisp_append {k : DispKind} {bs rest : List Byte} {d : Disp} (h : readDisp k bs = some (d, rest))
    (t : List Byte) : readDisp k (bs ++ t) = some (d, rest ++ t) := by
  obtain ⟨rfl, rfl⟩ := encodeDisp_readDisp h
  rw [List.append_assoc, readDisp_encodeDisp]

/-- ModRM and what belongs to it are read whatever follows. -/
theorem readModRm_append {a : AddrSize} {bs rest : List Byte} {reg : BitVec 3} {rm : Rm}
    (h : readModRm a bs = some (reg, rm, rest)) (t : List Byte) :
    readModRm a (bs ++ t) = some (reg, rm, rest ++ t) := by
  obtain ⟨rfl, hrm⟩ := encodeRm_readModRm h
  rw [List.append_assoc, readModRm_encodeRm hrm]

/-- What is decided once ModRM is read is decided whatever follows. -/
theorem withModRm_append {a : AddrSize} {bs t : List Byte} {mk : BitVec 3 → Rm → List Byte → Decoded}
    (hmk : ∀ reg rm rest, mk reg rm (rest ++ t) = (mk reg rm rest).append t) (h : withModRm a bs mk ≠ .more) :
    withModRm a (bs ++ t) mk = (withModRm a bs mk).append t := by
  cases hr : readModRm a bs with
  | none => simp [withModRm, hr] at h
  | some x =>
    obtain ⟨reg, rm, rest⟩ := x
    simp [withModRm, hr, readModRm_append hr, hmk]

/-- The row of an EVEX encoding does not depend on the bytes after it. -/
theorem evexRow_append (p : List Pfx) (p0 p1 p2 : Byte) (reg : BitVec 3) (rm : Rm) (rest t : List Byte) :
    evexRow p p0 p1 p2 reg rm (rest ++ t) = (evexRow p p0 p1 p2 reg rm rest).append t := by
  unfold evexRow
  split
  · rfl
  · split_ifs <;> rfl

theorem decodeLegacy_append {m : Mode} {p : List Pfx} {bs : List Byte} (h : decodeLegacy m p bs ≠ .more)
    (t : List Byte) : decodeLegacy m p (bs ++ t) = (decodeLegacy m p bs).append t := by
  match bs with
  | [] => simp [decodeLegacy] at h
  | op :: bs =>
    simp only [decodeLegacy, List.cons_append] at h ⊢
    split_ifs at h ⊢
    · rfl
    · rfl
    · exact withModRm_append (fun _ _ _ => rfl) h

theorem decodeVex2_append {m : Mode} {p : List Pfx} {bs : List Byte} (h : decodeVex2 m p bs ≠ .more)
    (t : List Byte) : decodeVex2 m p (bs ++ t) = (decodeVex2 m p bs).append t := by
  match bs with
  | [] => simp [decodeVex2] at h
  | [b] =>
    simp only [decodeVex2] at h
    split_ifs at h with hb
    · simp [decodeVex2, hb]
    · exact absurd rfl h
  | b :: op :: bs =>
    simp only [decodeVex2, List.cons_append] at h ⊢
    split_ifs at h ⊢
    · rfl
    · exact (notOurs_append p t).symm
    · exact withModRm_append (fun _ _ _ => rfl) h
    · exact withModRm_append (fun _ _ _ => rfl) h

theorem decodeVex3_append {m : Mode} {p : List Pfx} {bs : List Byte} (h : decodeVex3 m p bs ≠ .more)
    (t : List Byte) : decodeVex3 m p (bs ++ t) = (decodeVex3 m p bs).append t := by
  match bs with
  | [] => simp [decodeVex3] at h
  | [b] | [b, c] =>
    simp only [decodeVex3] at h
    split_ifs at h with hb
    · simp [decodeVex3, hb]
    · exact absurd rfl h
  | b :: c :: op :: bs =>
    simp only [decodeVex3, List.cons_append] at h ⊢
    split_ifs at h ⊢
    · rfl
    · rfl
    · exact (notOurs_append p t).symm
    · exact (uncertainBits_append m t).symm
    · exact withModRm_append (fun _ _ _ => rfl) h
    · exact withModRm_append (fun _ _ _ => rfl) h

theorem decodeEvex_append {m : Mode} {p : List Pfx} {bs : List Byte} (h : decodeEvex m p bs ≠ .more)
    (t : List Byte) : decodeEvex m p (bs ++ t) = (decodeEvex m p bs).append t := by
  match bs with
  | [] => simp [decodeEvex] at h
  | [p0] | [p0, p1] | [p0, p1, p2] =>
    simp only [decodeEvex] at h
    split_ifs at h with hb
    · simp [decodeEvex, hb]
    · exact absurd rfl h
  | p0 :: p1 :: p2 :: op :: bs =>
    simp only [decodeEvex, List.cons_append] at h ⊢
    split_ifs at h ⊢
    · rfl
    · rfl
    · exact (notOurs_append p t).symm
    · exact (uncertainBits_append m t).symm
    · exact withModRm_append (fun _ _ _ => rfl) h
    · exact withModRm_append (fun _ _ _ => evexRow_append ..) h

/-- What the decoder finds at the head of some bytes it finds whatever follows them, unless it asks for more. -/
theorem decode_append {m : Mode} {bs : List Byte} (h : decode m bs ≠ .more) (t : List Byte) :
    decode m (bs ++ t) = (decode m bs).append t := by
  unfold decode at h ⊢
  cases hb : (takePfx m bs).2 with
  | nil => simp [hb] at h
  | cons b rest =>
    rw [takePfx_append (by simp [hb])]
    simp only [hb, List.cons_append] at h ⊢
    split_ifs at h ⊢
    · exact decodeLegacy_append h t
    · exact decodeVex2_append h t
    · exact decodeVex3_append h t
    · exact decodeEvex_append h t
    · rfl

/-- Of an encoding that is cut short the decoder asks for more: any other answer would stand for the whole
encoding, which leaves no byte over. -/
theorem decode_take_encode {m : Mode} {i : Instr} {k : Nat} (h : wellShaped m i = true)
    (hk : k < (encode i).length) : decode m ((encode i).take k) = .more := by
  by_contra hne
  have hwhole : (decode m ((encode i).take k)).append ((encode i).drop k) = .instr i [] := by
    rw [← decode_append hne, List.take_append_drop]
    simpa using decode_encode_of_wellShaped h []
  cases hd : decode m ((encode i).take k) with
  | instr j rest =>
    simp only [hd, Decoded.append_instr, Decoded.instr.injEq, List.append_eq_nil_iff, List.drop_eq_nil_iff] at hwhole
    omega
  | invalid | rejected _ => simp [hd] at hwhole
  | more => exact hne hd

/-- An encoding has as many bytes as the instruction's length says. -/
theorem encode_length (i : Instr) : (encode i).length = instrLength i := by
  cases i with
  | subps p reg rm => exact (Laws.Encoded.subps p reg rm).1
  | vsubps128c5 p v reg rm => exact (Laws.Encoded.vsubps128c5 p v reg rm).1
  | vsubps128c4 p v reg rm => exact (Laws.Encoded.vsubps128c4 p v reg rm).1
  | vsubps256c5 p v reg rm => exact (Laws.Encoded.vsubps256c5 p v reg rm).1
  | vsubps256c4 p v reg rm => exact (Laws.Encoded.vsubps256c4 p v reg rm).1
  | vsubpsEvex128 p e bc reg rm => exact (Laws.Encoded.vsubpsEvex128 p e bc reg rm).1
  | vsubpsEvex256 p e bc reg rm => exact (Laws.Encoded.vsubpsEvex256 p e bc reg rm).1
  | vsubpsEvex512 p e bc reg rm => exact (Laws.Encoded.vsubpsEvex512 p e bc reg rm).1
  | vsubpsEvex512er p e rc reg rm => exact (Laws.Encoded.vsubpsEvex512er p e rc reg rm).1

end Sys2Proof
end

section
/-! SUPPORT. What stands before an operation, the checks of one byte, where the fetch of an instruction stops, and
the statements about the step and its scope (spec/00_scope.md). -/

namespace Sys2Proof.Machine

/-! ## The checks before an operation -/

/-- Every instruction makes the checks of 60_exceptions.md rule R217 with its own #UD conditions, and then goes on. -/
theorem exec_eq_enter (i : Instr) (s : State) : ∃ body, exec i s = enter (udOf i s) s body := by
  cases i <;> exact ⟨_, rfl⟩

/-- A state with a reserved bit of `MXCSR` set is refused before any other check. -/
theorem enter_of_mxReserved {ud : Bool} {s : State} (h : mxReserved s.mxcsr ≠ 0#16)
    (body : Host.Outcome State Fault Refusal) : enter ud s body = .refused .mxcsrReserved := by
  simp [enter, h]

/-- Real-address mode is refused where no #UD condition holds. -/
theorem enter_of_realAddress {s : State} (hmx : mxReserved s.mxcsr = 0#16) (hmode : s.mode = .realAddress)
    (body : Host.Outcome State Fault Refusal) : enter false s body = .refused .modeOutOfScope := by
  simp [enter, hmx, hmode]

/-! ## The checks of one byte -/

/-- Where a byte of CS is outside its segment, its exception is `#GP(0)`. -/
theorem byteFault_cs_of_not_inSegment {s : State} {acc : Access} {off : Qword} (h : ¬ InSegment s .cs off) :
    byteFault s acc .cs off = some .gp := by
  have hgp : ∀ f, segFault s .cs off = some f → f = .gp := by
    intro f
    unfold segFault
    split <;> split_ifs <;> simp [segFaultOf, eq_comm]
  obtain ⟨f, hf⟩ := Option.ne_none_iff_exists'.1 (mt segFault_eq_none.1 h)
  simp [byteFault, hf, hgp f hf]

/-- A byte in its segment has the exception of its page, if any. -/
theorem byteFault_of_inSegment {s : State} {acc : Access} {seg : SegName} {off : Qword} (h : InSegment s seg off) :
    byteFault s acc seg off = pageFault s acc (linear s seg off) := by
  simp [byteFault, segFault_eq_none.2 h]

/-- The bits of a page fault's error code. -/
theorem pageCode_bits (s : State) (acc : Access) (present reserved : Bool) :
    (pageCode s acc present reserved).getLsbD 0 = present ∧ (pageCode s acc present reserved).getLsbD 1 = false ∧
      ((pageCode s acc present reserved).getLsbD 2 = true ↔ s.cpl = 3#2) ∧
      (pageCode s acc present reserved).getLsbD 3 = reserved ∧
      (pageCode s acc present reserved).getLsbD 4 = (acc == .fetch) ∧
      (pageCode s acc present reserved).extractLsb' 5 27 = 0#27 := by
  have key : ∀ fetch level present reserved : Bool,
      let code : Dword := 0#27 ++ BitVec.ofBool fetch ++ BitVec.ofBool reserved ++ BitVec.ofBool level ++ 0#1 ++
        BitVec.ofBool present
      code.getLsbD 0 = present ∧ code.getLsbD 1 = false ∧ code.getLsbD 2 = level ∧ code.getLsbD 3 = reserved ∧
        code.getLsbD 4 = fetch ∧ code.extractLsb' 5 27 = 0#27 := by decide
  obtain ⟨h0, h1, h2, h3, h4, h5⟩ := key (acc == .fetch) (s.cpl == 3#2) present reserved
  exact ⟨h0, h1, (Bool.eq_iff_iff.1 h2).trans beq_iff_eq, h3, h4, h5⟩

/-- A byte whose page is absent, has a reserved bit set or cannot be read raises a page fault at its address, whose
code says which. -/
theorem pageFault_of_ne_none {s : State} {acc : Access} {lin : Qword} (h : pageFault s acc lin ≠ none) :
    ∃ (r : Region) (code : Dword), regionOf s lin = some r ∧
      (r.present = false ∨ r.reserved = true ∨ r.readable.getLsbD s.cpl.toNat = false) ∧
      code = pageCode s acc r.present (r.present && r.reserved) ∧ pageFault s acc lin = some (.pf lin code) := by
  unfold pageFault at h ⊢
  cases hr : regionOf s lin with
  | none => simp [hr] at h
  | some r =>
    simp only [hr] at h ⊢
    refine ⟨r, _, rfl, ?_, rfl, ?_⟩
    · split_ifs at h with hp hres hread
      · exact .inl hp
      · exact .inr (.inl hres)
      · exact .inr (.inr hread)
      · exact absurd rfl h
    · split_ifs at h ⊢ with hp hres hread
      · simp [hp]
      · simp [hp, hres]
      · simp [hp, hres]
      · exact absurd rfl h

/-! ## Where the fetch stops -/

/-- What stops the fetch at the instruction's byte `k`, if that byte cannot be fetched (20_memory.md rule R65). -/
def fetchStopAt (s : State) (k : Nat) : Option FetchStop :=
  match byteFault s .fetch .cs (fetchOffset s k) with
  | some f => some (.fault f)
  | none => if isDevice s (linear s .cs (fetchOffset s k)) then some .device else none

theorem fetchStopAt_of_byteFault {s : State} {k : Nat} {f : ByteFault}
    (h : byteFault s .fetch .cs (fetchOffset s k) = some f) : fetchStopAt s k = some (.fault f) := by
  simp [fetchStopAt, h]

theorem fetchStopAt_of_device {s : State} {k : Nat} (h : byteFault s .fetch .cs (fetchOffset s k) = none)
    (hdev : isDevice s (linear s .cs (fetchOffset s k)) = true) : fetchStopAt s k = some .device := by
  simp [fetchStopAt, h, hdev]

/-- The bytes before one that cannot be fetched are all that is fetched. -/
theorem fetch_of_stopAt {s : State} {bs : List Byte} {stop : FetchStop} (h : Holds s bs)
    (hlen : bs.length < maxLength) (hstop : fetchStopAt s bs.length = some stop) : fetch s = (bs, stop) := by
  obtain ⟨fuel, hfuel⟩ : ∃ fuel, maxLength - bs.length = fuel + 1 := ⟨maxLength - bs.length - 1, by omega⟩
  have htail : fetchFrom s (fuel + 1) bs.length = ([], stop) := by
    unfold fetchStopAt at hstop
    rw [fetchFrom]
    cases hb : byteFault s .fetch .cs (fetchOffset s bs.length) with
    | some f => simpa [hb] using hstop
    | none =>
      simp only [hb] at hstop
      split_ifs at hstop with hd
      simpa [hd] using hstop
  rw [fetch_of_holds h hlen.le, hfuel, htail, List.append_nil]

/-- A step ends with what stops the fetch of an instruction before its last byte (60_exceptions.md rule R215(1)). -/
theorem step_of_stopAt {s : State} {i : Instr} {k : Nat} {stop : FetchStop} (hi : wellShaped s.mode i = true)
    (hk : k < instrLength i) (hmax : k < maxLength) (h : Holds s ((encode i).take k))
    (hstop : fetchStopAt s k = some stop) : step s = raiseFetch stop s := by
  rw [← encode_length] at hk
  have hlen : ((encode i).take k).length = k := List.length_take_of_le hk.le
  have hf : fetch s = ((encode i).take k, stop) := fetch_of_stopAt h (by rwa [hlen]) (by rwa [hlen])
  simp [step, hf, decode_take_encode hi hk]

/-- Outside real-address mode a byte that cannot be translated ends the step in its exception. -/
theorem raiseFetch_fault {s : State} (h : s.mode ≠ .realAddress) (f : ByteFault) :
    raiseFetch (.fault f) s = raiseByte f s := by
  simp [raiseFetch, h]

/-- Outside real-address mode an instruction byte in device memory is refused. -/
theorem raiseFetch_device {s : State} (h : s.mode ≠ .realAddress) :
    raiseFetch .device s = .refused .deviceMemory := by
  simp [raiseFetch, h]

/-- Where bytes that decode to an instruction have been fetched, a step runs it. -/
theorem step_of_decode {s : State} {i : Instr} {rest : List Byte} (h : decode s.mode (fetch s).1 = .instr i rest) :
    step s = exec i s := by
  simp [step, h]

/-- Where an instruction's encoding stands at the program counter, a step runs it. -/
theorem step_of_holds {s : State} {i : Instr} (hi : wellFormed s.mode i = true) (h : Holds s (encode i)) :
    step s = exec i s := by
  simp only [wellFormed, Bool.and_eq_true, decide_eq_true_eq] at hi
  obtain ⟨hshape, hlen⟩ := hi
  rw [← encode_length] at hlen
  simp only [step, fetch_of_holds h hlen, decode_encode_of_wellShaped hshape]

/-! ## The obligations -/

/-- Settles O3. -/
theorem stepRunsDecoded : Obligations.StepRunsDecoded :=
  fun _ _ _ h _ => step_of_decode h

/-- Settles O4: the decoder reads the encoding back whatever follows it, and of a part of it asks for the byte whose
fetch is stopped. -/
theorem stepRunsEncoded : Obligations.StepRunsEncoded := by
  refine ⟨fun s i hi h => step_of_holds hi h, fun s i k hmode hi hk hmax h => ?_⟩
  have hend : ∀ stop, fetchStopAt s k = some stop → step s = raiseFetch stop s := fun stop =>
    step_of_stopAt hi hk hmax h
  refine ⟨fun hseg => ?_, fun hseg hpf => ?_, fun hseg hpf hdev => ?_⟩
  · rw [hend (.fault .gp) (fetchStopAt_of_byteFault (byteFault_cs_of_not_inSegment hseg)), raiseFetch_fault hmode]
    rfl
  · obtain ⟨r, code, hr, hwhy, rfl, hpf⟩ := pageFault_of_ne_none hpf
    obtain ⟨h0, h1, h2, h3, h4, h5⟩ := pageCode_bits s .fetch r.present (r.present && r.reserved)
    refine ⟨r, _, hr, hwhy, h0, h1, h2, h3, h4, h5, ?_⟩
    rw [hend _ (fetchStopAt_of_byteFault ((byteFault_of_inSegment hseg).trans hpf)), raiseFetch_fault hmode]
    rfl
  · rw [hend .device (fetchStopAt_of_device ((byteFault_of_inSegment hseg).trans hpf) hdev), raiseFetch_device hmode]

/-- Settles O45: the first two by the order of the checks before an operation, the third by the read of the operand. -/
theorem outOfScopeRefused : Obligations.OutOfScopeRefused := by
  refine ⟨fun i s hmx => ?_, fun i s hmx hmode hud => ?_, fun i s seg off n hat htr hal hdev => ?_⟩
  · obtain ⟨body, hbody⟩ := exec_eq_enter i s
    rw [hbody, enter_of_mxReserved hmx]
  · obtain ⟨body, hbody⟩ := exec_eq_enter i s
    rw [hbody, hud, enter_of_realAddress hmx hmode]
  · obtain ⟨bc, go, hgo⟩ := exec_of_readsAt hat
    rw [hgo, memRead_of_device htr hal hdev, andThen_refused]

end Sys2Proof.Machine
end

section
/-! SUPPORT. What the decoder takes for an instruction is that instruction's encoding. -/

namespace Sys2Proof

open Sys2Proof.Machine

/-! ## VEX and EVEX bytes are those of their fields -/

theorem encodeVex2_vex2Of {b : Byte} (hpp : b.extractLsb' 0 2 = 0b00#2) :
    encodeVex2 (vex2Of b) (b.getLsbD 2) = [0xC5#8, b] := by
  revert b
  decide

theorem encodeVex3_vex3Of {b c : Byte} (hmap : b.extractLsb' 0 5 = 0b00001#5) (hpp : c.extractLsb' 0 2 = 0b00#2) :
    encodeVex3 (vex3Of b c) (c.getLsbD 2) = [0xC4#8, b, c] := by
  have hb : ∀ b : Byte, b.extractLsb' 0 5 = 0b00001#5 →
      BitVec.ofBool (!!b.getLsbD 7) ++ BitVec.ofBool (!!b.getLsbD 6) ++ BitVec.ofBool (!!b.getLsbD 5) ++
        0b00001#5 = b := by decide
  have hc : ∀ c : Byte, c.extractLsb' 0 2 = 0b00#2 →
      BitVec.ofBool (c.getLsbD 7) ++ ~~~~~~c.extractLsb' 3 4 ++ BitVec.ofBool (c.getLsbD 2) ++ 0b00#2 = c := by
    decide
  simp only [encodeVex3, vex3Of, hb b hmap, hc c hpp]

theorem encodeEvex_evexOf {p0 p1 p2 : Byte} (hmap : p0.extractLsb' 0 2 = 0b01#2) (hpp : p1.extractLsb' 0 2 = 0b00#2)
    (hres : evexReserved p0 p1 = false) (hw : p1.getLsbD 7 = false) :
    encodeEvex (evexOf p0 p1 p2) (p2.extractLsb' 5 2) (p2.getLsbD 4) = [0x62#8, p0, p1, p2] := by
  obtain ⟨hres0, hres1⟩ : p0.extractLsb' 2 2 = 0b00#2 ∧ p1.getLsbD 2 = true := by simpa [evexReserved] using hres
  have h0 : ∀ b : Byte, b.extractLsb' 0 2 = 0b01#2 → b.extractLsb' 2 2 = 0b00#2 →
      BitVec.ofBool (!!b.getLsbD 7) ++ BitVec.ofBool (!!b.getLsbD 6) ++ BitVec.ofBool (!!b.getLsbD 5) ++
        BitVec.ofBool (!!b.getLsbD 4) ++ 0b0001#4 = b := by decide
  have h1 : ∀ b : Byte, b.extractLsb' 0 2 = 0b00#2 → b.getLsbD 2 = true → b.getLsbD 7 = false →
      0b0#1 ++ ~~~~~~b.extractLsb' 3 4 ++ 0b100#3 = b := by decide
  have h2 : ∀ b : Byte, BitVec.ofBool (b.getLsbD 7) ++ b.extractLsb' 5 2 ++ BitVec.ofBool (b.getLsbD 4) ++
      BitVec.ofBool (!!b.getLsbD 3) ++ b.extractLsb' 0 3 = b := by decide
  simp only [encodeEvex, evexOf, h0 p0 hmap hres0, h1 p1 hpp hres1 hw, h2 p2]

/-! ## The three encodings -/

/-- An instruction found once ModRM is read comes from the bytes of an operand. -/
theorem withModRm_eq_instr {a : AddrSize} {bs rest : List Byte} {mk : BitVec 3 → Rm → List Byte → Decoded}
    {i : Instr} (h : withModRm a bs mk = .instr i rest) :
    ∃ reg rm rest', encodeRm reg rm ++ rest' = bs ∧ mk reg rm rest' = .instr i rest := by
  unfold withModRm at h
  cases hr : readModRm a bs with
  | none => simp [hr] at h
  | some x =>
    obtain ⟨reg, rm, rest'⟩ := x
    exact ⟨reg, rm, rest', (encodeRm_readModRm hr).1, by simpa [hr] using h⟩

/-- What is none of the six forms is no instruction. -/
theorem notOurs_ne_instr (p : List Pfx) (i : Instr) (rest : List Byte) : notOurs p ≠ .instr i rest := by
  unfold notOurs
  split_ifs <;> simp

theorem uncertainBits_ne_instr (m : Mode) (i : Instr) (rest : List Byte) : uncertainBits m ≠ .instr i rest := by
  unfold uncertainBits
  split_ifs <;> simp

/-- Each of the four decoders takes an instruction only from the bytes of its encoding. -/
theorem decodeLegacy_eq_instr {m : Mode} {p : List Pfx} {bs rest : List Byte} {i : Instr}
    (h : decodeLegacy m p bs = .instr i rest) : encode i ++ rest = p.map encodePfx ++ 0x0F#8 :: bs := by
  match bs with
  | [] => simp [decodeLegacy] at h
  | op :: bs =>
    simp only [decodeLegacy] at h
    split_ifs at h with hop hman
    obtain ⟨reg, rm, _, rfl, hi⟩ := withModRm_eq_instr h
    cases hi
    simp [encode, not_not.1 hop]

theorem decodeVex2_eq_instr {m : Mode} {p : List Pfx} {bs rest : List Byte} {i : Instr}
    (h : decodeVex2 m p bs = .instr i rest) : encode i ++ rest = p.map encodePfx ++ 0xC5#8 :: bs := by
  match bs with
  | [] => simp [decodeVex2] at h
  | [b] =>
    simp only [decodeVex2] at h
    split_ifs at h
  | b :: op :: bs =>
    simp only [decodeVex2] at h
    split_ifs at h with hb hop hl
    · exact absurd h (notOurs_ne_instr p i rest)
    all_goals
      simp only [not_or, not_not] at hop
      obtain ⟨hpp, rfl⟩ := hop
      have henc := encodeVex2_vex2Of hpp
      obtain ⟨reg, rm, _, rfl, hi⟩ := withModRm_eq_instr h
      cases hi
      simp_all [encode]

theorem decodeVex3_eq_instr {m : Mode} {p : List Pfx} {bs rest : List Byte} {i : Instr}
    (h : decodeVex3 m p bs = .instr i rest) : encode i ++ rest = p.map encodePfx ++ 0xC4#8 :: bs := by
  match bs with
  | [] => simp [decodeVex3] at h
  | [b] | [b, c] =>
    simp only [decodeVex3] at h
    split_ifs at h
  | b :: c :: op :: bs =>
    simp only [decodeVex3] at h
    split_ifs at h with hb hres hop hunc hl
    · exact absurd h (notOurs_ne_instr p i rest)
    · exact absurd h (uncertainBits_ne_instr m i rest)
    all_goals
      simp only [not_or, not_not] at hop
      obtain ⟨hmap, hpp, rfl⟩ := hop
      have henc := encodeVex3_vex3Of hmap hpp
      obtain ⟨reg, rm, _, rfl, hi⟩ := withModRm_eq_instr h
      cases hi
      simp_all [encode]

/-- The row chosen for EVEX bytes is encoded with their fields. -/
theorem evexRow_eq_instr {p : List Pfx} {p0 p1 p2 : Byte} {reg : BitVec 3} {rm : Rm} {i : Instr}
    {bs rest : List Byte} (h : evexRow p p0 p1 p2 reg rm bs = .instr i rest) :
    encode i = p.map encodePfx ++
        (encodeEvex (evexOf p0 p1 p2) (p2.extractLsb' 5 2) (p2.getLsbD 4) ++ [0x5C#8] ++ encodeRm reg rm) ∧
      rest = bs := by
  unfold evexRow at h
  split at h
  · next hb =>
    cases h
    simp only [encode, hb, and_self]
  · split_ifs at h with hll hll hll <;> cases h <;> simp [encode, hll]

theorem decodeEvex_eq_instr {m : Mode} {p : List Pfx} {bs rest : List Byte} {i : Instr}
    (h : decodeEvex m p bs = .instr i rest) : encode i ++ rest = p.map encodePfx ++ 0x62#8 :: bs := by
  match bs with
  | [] => simp [decodeEvex] at h
  | [p0] | [p0, p1] | [p0, p1, p2] =>
    simp only [decodeEvex] at h
    split_ifs at h
  | p0 :: p1 :: p2 :: op :: bs =>
    simp only [decodeEvex] at h
    split_ifs at h with hb hop hres hunc hbits
    · exact absurd h (notOurs_ne_instr p i rest)
    · exact absurd h (uncertainBits_ne_instr m i rest)
    · obtain ⟨reg, rm, _, -, hi⟩ := withModRm_eq_instr h
      cases hi
    · simp only [not_or, not_not] at hop
      obtain ⟨hmap, hpp, rfl⟩ := hop
      simp only [Bool.or_eq_true, not_or, Bool.not_eq_true] at hbits
      obtain ⟨hres, hw⟩ := hbits
      obtain ⟨reg, rm, _, rfl, hi⟩ := withModRm_eq_instr h
      obtain ⟨henc, rfl⟩ := evexRow_eq_instr hi
      rw [henc, encodeEvex_evexOf hmap hpp hres hw]
      simp

/-- The decoder takes an instruction only from the bytes of its encoding (30_encoding.md rule R110). -/
theorem encode_of_decode {m : Mode} {bs rest : List Byte} {i : Instr} (h : decode m bs = .instr i rest) :
    encode i ++ rest = bs := by
  obtain ⟨hbs, -⟩ := takePfx_exact m bs
  unfold decode at h
  cases hb : (takePfx m bs).2 with
  | nil => simp [hb] at h
  | cons b tail =>
    rw [hb] at hbs
    simp only [hb] at h
    split_ifs at h with h0F hC5 hC4 h62
    · exact (decodeLegacy_eq_instr h).trans (h0F ▸ hbs)
    · exact (decodeVex2_eq_instr h).trans (hC5 ▸ hbs)
    · exact (decodeVex3_eq_instr h).trans (hC4 ▸ hbs)
    · exact (decodeEvex_eq_instr h).trans (h62 ▸ hbs)

end Sys2Proof
end

section
/-! SUPPORT. The state after reset and INIT, what a step writes, and the invariant (spec/10_state.md). -/

namespace Sys2Proof.Machine

/-! ## Reset and INIT -/

@[simp] theorem reset_readZmm (n : BitVec 5) : State.reset.readZmm n = Vector.replicate 16 0#32 := by
  simp [State.readZmm, State.reset]

@[simp] theorem reset_readK (n : BitVec 3) : State.reset.readK n = 0#64 := by
  simp [State.readK, State.reset]

@[simp] theorem reset_readGpr (n : BitVec 4) : State.reset.readGpr n = 0#64 := by
  simp [State.readGpr, State.reset]

/-- INIT keeps CD and NW of `CR0`. -/
theorem init_cr0_kept (s : State) : s.init.cr0.extractLsb' 29 2 = s.cr0.extractLsb' 29 2 := by
  rw [init_cr0, BitVec.extractLsb'_or, BitVec.extractLsb'_and,
    show (0x60000000#32).extractLsb' 29 2 = BitVec.allOnes 2 by decide,
    show (0x00000010#32).extractLsb' 29 2 = 0#2 by decide, BitVec.and_allOnes, BitVec.or_zero]

/-- INIT resets the other bits of `CR0`. -/
theorem init_cr0_reset (s : State) : s.init.cr0 &&& 0x9FFFFFFF#32 = State.reset.cr0 &&& 0x9FFFFFFF#32 := by
  rw [init_cr0, BitVec.and_or_distrib_right, BitVec.and_assoc,
    show 0x60000000#32 &&& 0x9FFFFFFF#32 = 0#32 by decide, BitVec.and_zero]
  decide

/-- Settles O57: all but the bits of `CR0` that INIT keeps is read off the two states. -/
theorem resetValues : Obligations.ResetValues := by
  refine ⟨reset_readZmm, reset_readK, rfl, rfl, rfl, rfl, rfl, fun n _ _ => reset_readGpr n, rfl, rfl, rfl, rfl,
    fun s => ⟨rfl, rfl, rfl, rfl, rfl, init_cr0_kept s, init_cr0_reset s, rfl, rfl, ?_, rfl, rfl, rfl, rfl⟩⟩
  exact reset_readGpr 0#4

/-- Settles O59: every register is 0 after reset, and the pc has 16 bits. -/
theorem invAtReset : Obligations.InvAtReset where
  zmmWidth n j _ := by simp
  zmmCount _ n j _ := by simp
  kWidth _ n := by simp
  mxReserved := by decide
  memory := by simp [State.reset, Memory.wf]
  pcWidth _ := by decide

/-! ## What a step writes -/

theorem raiseByte_ne_next {α : Type} (f : ByteFault) (s : State) (a : α) : raiseByte f s ≠ .next a := by
  cases f <;> simp [raiseByte, raise]

theorem raiseFetch_ne_next (stop : FetchStop) (s t : State) : raiseFetch stop s ≠ .next t := by
  unfold raiseFetch
  split_ifs
  · simp
  · cases stop with
    | fault f => exact raiseByte_ne_next f s t
    | device | tooLong => simp [raise]

/-- A step that answers a next state has run an instruction that its fetched bytes decode to. -/
theorem step_eq_next {s t : State} (h : step s = .next t) :
    ∃ i rest, decode s.mode (fetch s).1 = .instr i rest ∧ exec i s = .next t := by
  unfold step at h
  split at h
  · next i rest hd => exact ⟨i, rest, hd, h⟩
  · obtain ⟨⟨-, hud, -⟩, -⟩ := enter_eq_next.1 h
    cases hud
  · cases h
  · exact absurd h (raiseFetch_ne_next _ s t)

/-- Under embedded rounding no flag is set (42_vsubps_evex.md rule R158). -/
theorem exec_er_mxcsr {p : List Pfx} {e : Evex} {rc : BitVec 2} {reg n : BitVec 3} {s t : State}
    (h : exec (.vsubpsEvex512er p e rc reg n) s = .next t) : t.mxcsr = s.mxcsr := by
  obtain ⟨-, rfl⟩ := evexErStep_eq_next.1 h
  rfl

/-- Settles O34: flags are set by a union, which clears none. -/
theorem stepFrame : Obligations.StepFrame := by
  intro i s t h
  refine ⟨?_, ?_, ?_⟩
  · obtain ⟨-, v, f, evs, rfl⟩ := exec_eq_complete h
    exact complete_frame ..
  · obtain ⟨-, v, f, evs, rfl⟩ := exec_eq_complete h
    exact and_or_flagBits ..
  · rintro p e rc reg n rfl
    exact exec_er_mxcsr h

/-- The next pc is the sum with the length, modulo 2^64 in 64-bit mode and 2^32 elsewhere. -/
theorem nextPc_toNat (s : State) (n : Nat) :
    (nextPc s n).toNat = (s.pc.toNat + n) % (if s.mode = .mode64 then 2 ^ 64 else 2 ^ 32) := by
  cases hm : s.mode with
  | mode64 => simp [nextPc, hm]
  | protected32 | realAddress =>
    simp only [nextPc, hm, truncTo, BitVec.toNat_setWidth, BitVec.toNat_add, BitVec.toNat_ofNat, reduceCtorEq, if_false]
    omega

/-- Outside 64-bit mode the next pc has 32 bits. -/
theorem nextPc_width {s : State} (h : s.mode ≠ .mode64) (n : Nat) : (nextPc s n).extractLsb' 32 32 = 0#32 := by
  refine BitVec.eq_of_toNat_eq ?_
  have := nextPc_toNat s n
  rw [if_neg h] at this
  simp only [BitVec.extractLsb'_toNat, this, Nat.shiftRight_eq_div_pow, BitVec.toNat_ofNat]
  omega

/-- Settles O35: the decoder took the instruction from its own encoding, whose length the pc moves by. -/
theorem pcAdvances : Obligations.PcAdvances := by
  intro s t h
  obtain ⟨i, rest, hd, he⟩ := step_eq_next h
  obtain ⟨-, v, f, evs, rfl⟩ := exec_eq_complete he
  exact ⟨i, rest, hd, (encode_of_decode hd).symm, by rw [complete_pc, nextPc_toNat, encode_length]⟩

/-! ## The invariant -/

/-- The bits from `MAX_VL` on that an instruction leaves in its destination are 0 or those that were there. -/
theorem exec_dest_above {i : Instr} {s t : State} (h : exec i s = .next t) {j : Fin 16}
    (hj : vlLanes s.cfg.maxVl ≤ j.val) :
    (t.readZmm (destOf i s))[j] = 0#32 ∨ (t.readZmm (destOf i s))[j] = (s.readZmm (destOf i s))[j] := by
  have zext : ∀ d vl r mx evs n, ((complete s d (zextMaxVl s.cfg vl r) mx evs n).readZmm d)[j] = 0#32 := by
    intro d vl r mx evs n
    rw [complete_readZmm_same, zextMaxVl_getElem, if_neg (by omega)]
  cases i with
  | subps p reg rm =>
    obtain ⟨-, src, -, -, rfl⟩ := execSubps_eq_next.1 h
    have h4 : 4 ≤ vlLanes s.cfg.maxVl := by cases s.cfg.maxVl <;> decide
    rw [complete_readZmm_same, replaceLow128_getElem, if_neg (by omega)]
    exact .inr rfl
  | vsubps128c5 p v reg rm | vsubps128c4 p v reg rm | vsubps256c5 p v reg rm | vsubps256c4 p v reg rm =>
    obtain ⟨-, src, -, -, rfl⟩ := vexStep_eq_next.1 h
    exact .inl (zext ..)
  | vsubpsEvex128 p e bc reg rm | vsubpsEvex256 p e bc reg rm | vsubpsEvex512 p e bc reg rm =>
    obtain ⟨-, src, -, -, rfl⟩ := evexStep_eq_next.1 h
    exact .inl (zext ..)
  | vsubpsEvex512er p e rc reg n =>
    obtain ⟨-, rfl⟩ := evexErStep_eq_next.1 h
    exact .inl (zext ..)

/-- A 4-bit number names one of the low 16 entries. -/
theorem low16_lt (n : BitVec 4) : (low16 n).toNat < 16 := by
  simp only [low16, BitVec.toNat_setWidth]
  omega

/-- Without AVX512F every instruction that goes on to its operation has its destination in the low 16 entries: the
others are `#UD`. -/
theorem destOf_lt_of_no_avx512f {i : Instr} {s : State} (hud : udOf i s = false) (hf : s.cfg.avx512f = false) :
    (destOf i s).toNat < 16 := by
  cases i with
  | subps p reg rm | vsubps128c5 p v reg rm | vsubps128c4 p v reg rm | vsubps256c5 p v reg rm
  | vsubps256c4 p v reg rm => exact low16_lt _
  | vsubpsEvex128 p e bc reg rm | vsubpsEvex256 p e bc reg rm | vsubpsEvex512 p e bc reg rm
  | vsubpsEvex512er p e rc reg n => simp [udOf, udEvex, hf] at hud

/-- Settles O60: the destination gains no bit that does not exist, and of the rest of what the invariant speaks of a
completed step writes the pc alone. -/
theorem stepKeepsInv : Obligations.StepKeepsInv := by
  intro s t hs h
  obtain ⟨i, rest, -, h⟩ := step_eq_next h
  obtain ⟨hframe, -⟩ := stepFrame i s t h
  obtain ⟨⟨-, hud, -, -⟩, v, f, evs, ht⟩ := exec_eq_complete h
  constructor
  case zmmWidth =>
    intro n j hj
    rw [hframe.cfg] at hj
    have hold := hs.zmmWidth n j hj
    by_cases hn : n = destOf i s
    · subst hn
      exact (exec_dest_above h hj).elim id (·.trans hold)
    · rw [hframe.zmm n hn, hold]
  case zmmCount =>
    intro hf n j hn
    rw [hframe.cfg] at hf
    have hlt := destOf_lt_of_no_avx512f hud hf
    rw [hframe.zmm n (by rintro rfl; omega), hs.zmmCount hf n j hn]
  case kWidth => exact ht ▸ hs.kWidth
  case mxReserved => rw [ht, complete_mxcsr, mxReserved_or_flagBits, hs.mxReserved]
  case memory => exact ht ▸ hs.memory
  case pcWidth =>
    rw [hframe.mode, ht, complete_pc]
    exact fun hm => nextPc_width hm _

end Sys2Proof.Machine
end

section
/-! SUPPORT. What no form reads: the flags of `MXCSR`, and with register sources the privilege level and EFLAGS
(spec/10_state.md). -/

namespace Sys2Proof.Machine

/-! ## Executions that end alike -/

/-- An outcome with the state that a fault carries changed. -/
def onFault {α : Type} (g : State → State) (o : Host.Outcome α Fault Refusal) : Host.Outcome α Fault Refusal :=
  match o with
  | .next a => .next a
  | .fault e => .fault (e.onState g)
  | .refused r => .refused r

/-- A fault of a sequence is one of its first part or of its second. -/
theorem onFault_andThen {α β : Type} (g : State → State) (o : Host.Outcome α Fault Refusal)
    (k : α → Host.Outcome β Fault Refusal) :
    onFault g (andThen o k) = andThen (onFault g o) fun a => onFault g (k a) := by
  cases o <;> rfl

theorem Fault.after_onState (g : State → State) (e : Fault) : (e.onState g).after = g e.after := by
  cases e <;> rfl

/-- Two states in which the checks before an operation come out alike end alike where they stop there, and so as a
whole if their operations do. -/
theorem enter_congr {R : Host.Outcome State Fault Refusal → Host.Outcome State Fault Refusal → Prop} {s s' : State}
    {ud : Bool} {body body' : Host.Outcome State Fault Refusal} (hmx : mxReserved s'.mxcsr = mxReserved s.mxcsr)
    (hmode : s'.mode = s.mode) (hts : s'.crTs = s.crTs) (hrefused : ∀ r, R (.refused r) (.refused r))
    (hud : R (raise .ud s) (raise .ud s')) (hnm : R (raise .nm s) (raise .nm s')) (hbody : R body body') :
    R (enter ud s body) (enter ud s' body') := by
  unfold enter
  rw [hmx, hmode, hts]
  split_ifs
  · exact hrefused _
  · exact hud
  · exact hrefused _
  · exact hnm
  · exact hbody

/-- Two states that mask the same conditions end alike where numeric conditions stop them, and so as a whole if they
do where the conditions let them go on. -/
theorem deliver_congr {R : Host.Outcome State Fault Refusal → Host.Outcome State Fault Refusal → Prop} {s s' : State}
    {F : FpFlags} {k k' : Dword → Host.Outcome State Fault Refusal}
    (hu : unmasked s'.mxcsr F = unmasked s.mxcsr F) (hox : s'.osxmmexcpt = s.osxmmexcpt) (hf : s'.faults = s.faults)
    (hnext : R (k (s.mxcsr ||| flagBits F)) (k' (s'.mxcsr ||| flagBits F)))
    (hxm : ∀ G, R (raise .xm { s with mxcsr := s.mxcsr ||| flagBits G })
      (raise .xm { s' with mxcsr := s'.mxcsr ||| flagBits G }))
    (hud : ∀ G, R (raise .ud { s with mxcsr := s.mxcsr ||| flagBits G })
      (raise .ud { s' with mxcsr := s'.mxcsr ||| flagBits G })) :
    R (andThen (deliverFp s F) k) (andThen (deliverFp s' F) k') := by
  have hfree : Config.freeFlags s'.faults = Config.freeFlags s.faults := by rw [hf]
  simp only [deliverFp, hu, hox, hfree]
  split_ifs
  · exact hnext
  · exact hxm _
  · exact hud _

/-! ## The privilege level and EFLAGS -/

/-- A state at another privilege level, with another EFLAGS. -/
def State.withLevel (c : BitVec 2) (f : Dword) (s : State) : State := { s with cpl := c, eflags := f }

/-- An outcome that is another's at another privilege level, with another EFLAGS. -/
abbrev SameAtLevel (c : BitVec 2) (f : Dword) (o o' : Host.Outcome State Fault Refusal) : Prop :=
  o' = onState (State.withLevel c f) o

theorem enter_withLevel {c : BitVec 2} {f : Dword} {ud : Bool} {s : State}
    {body body' : Host.Outcome State Fault Refusal} (h : SameAtLevel c f body body') :
    SameAtLevel c f (enter ud s body) (enter ud (s.withLevel c f) body') :=
  enter_congr (R := SameAtLevel c f) rfl rfl rfl (fun _ => rfl) rfl rfl h

theorem deliver_withLevel (c : BitVec 2) (f : Dword) (s : State) (F : FpFlags) (d : BitVec 5) (v : Lanes)
    (evs : List ReadEvent) (n : Nat) :
    SameAtLevel c f (andThen (deliverFp s F) fun mx => .next (complete s d v mx evs n))
      (andThen (deliverFp (s.withLevel c f) F) fun mx => .next (complete (s.withLevel c f) d v mx evs n)) :=
  deliver_congr (R := SameAtLevel c f) rfl rfl rfl rfl (fun _ => rfl) fun _ => rfl

/-- Settles O38: a register source is had without `Translate`, and nothing else reads the level or EFLAGS. -/
theorem privilegeNotRead : Obligations.PrivilegeNotRead := by
  intro p v w e rc reg n s c f i hi
  simp only [List.mem_cons, List.not_mem_nil, or_false] at hi
  rcases hi with rfl | rfl | rfl | rfl | rfl | rfl | rfl | rfl | rfl
  case inr.inr.inr.inr.inr.inr.inr.inr => exact enter_withLevel rfl
  all_goals exact enter_withLevel (deliver_withLevel ..)

/-! ## The flags of `MXCSR` -/

/-- A state with another `MXCSR`. -/
def State.withMxcsr (mx : Dword) (s : State) : State := { s with mxcsr := mx }

/-- Two values that agree on `MXCSR[31:6]`, the control bits, agree on each bit from 6 on. -/
theorem getLsbD_of_control {mx mx' : Dword} (h : mx'.extractLsb' 6 26 = mx.extractLsb' 6 26) {i : Nat} (hi : 6 ≤ i) :
    mx'.getLsbD i = mx.getLsbD i := by
  have := congrArg (BitVec.getLsbD · (i - 6)) h
  by_cases hlt : i < 32
  · simpa [BitVec.getLsbD_extractLsb', show i - 6 < 26 by omega, show 6 + (i - 6) = i by omega] using this
  · rw [BitVec.getLsbD_of_ge _ _ (by omega), BitVec.getLsbD_of_ge _ _ (by omega)]

theorem extractLsb'_of_control {mx mx' : Dword} (h : mx'.extractLsb' 6 26 = mx.extractLsb' 6 26) {i : Nat}
    (hi : 6 ≤ i) (n : Nat) : mx'.extractLsb' i n = mx.extractLsb' i n := by
  refine BitVec.eq_of_getLsbD_eq fun j hj => ?_
  rw [BitVec.getLsbD_extractLsb', BitVec.getLsbD_extractLsb', getLsbD_of_control h (by omega)]

theorem unmasked_of_control {mx mx' : Dword} (h : mx'.extractLsb' 6 26 = mx.extractLsb' 6 26) (F : FpFlags) :
    unmasked mx' F = unmasked mx F := by
  simp (disch := decide) only [unmasked, getLsbD_of_control h]

section
variable {s : State} {mx : Dword}

theorem mxControl_withMxcsr (h : mx.extractLsb' 6 26 = s.mxcsr.extractLsb' 6 26) :
    mxControl (s.withMxcsr mx) = mxControl s := by
  simp (disch := decide) only [mxControl, State.withMxcsr, mxRc, mxDaz, mxFtz, mxUm, extractLsb'_of_control h,
    getLsbD_of_control h]

theorem erControl_withMxcsr (h : mx.extractLsb' 6 26 = s.mxcsr.extractLsb' 6 26) (rc : BitVec 2) :
    erControl (s.withMxcsr mx) rc = erControl s rc := by
  simp (disch := decide) only [erControl, State.withMxcsr, mxDaz, mxFtz, mxUm, getLsbD_of_control h]

end

/-! ### The sources do not read `MXCSR` -/

theorem raiseByte_withMxcsr {α : Type} (f : ByteFault) (s : State) (mx : Dword) :
    raiseByte (α := α) f (s.withMxcsr mx) = onFault (State.withMxcsr mx) (raiseByte f s) := by
  cases f <;> rfl

theorem translate_withMxcsr (s : State) (mx : Dword) (acc : Access) (seg : SegName) (offs : List Qword) :
    translate (s.withMxcsr mx) acc seg offs = onFault (State.withMxcsr mx) (translate s acc seg offs) := by
  have hbyte : byteFault (s.withMxcsr mx) acc seg = byteFault s acc seg := rfl
  unfold translate
  rw [hbyte]
  cases offs.filterMap (byteFault s acc seg) with
  | nil => rfl
  | cons f fs => exact raiseByte_withMxcsr ..

theorem readEvents_withMxcsr (s : State) (mx : Dword) (n : Nat) (pss : List (List Nat)) :
    readEvents (s.withMxcsr mx) n pss = readEvents s n pss := by
  induction pss generalizing n with
  | nil => rfl
  | cons ps pss ih => exact congrArg (_ :: ·) (ih (n + 1))

theorem memRead_withMxcsr (s : State) (mx : Dword) (seg : SegName) (a : AddrSize) (off : Qword) (n : Nat)
    (ks : List Nat) (bc : Bool) :
    memRead (s.withMxcsr mx) seg a off n ks bc = onFault (State.withMxcsr mx) (memRead s seg a off n ks bc) := by
  unfold memRead
  rw [onFault_andThen]
  refine congr (congrArg andThen (translate_withMxcsr ..)) (funext fun ps => ?_)
  simp only [readEvents_withMxcsr]
  rw [apply_ite (onFault _), apply_ite (onFault _)]
  rfl

theorem loadFull_withMxcsr (s : State) (mx : Dword) (p : List Pfx) (ad : SegName × Qword) (vl : VLen) :
    loadFull (s.withMxcsr mx) p ad vl = onFault (State.withMxcsr mx) (loadFull s p ad vl) := by
  unfold loadFull
  rw [onFault_andThen, ← memRead_withMxcsr]
  rfl

theorem legacySource_withMxcsr (s : State) (mx : Dword) (p : List Pfx) (rm : Rm) (ilen : Nat) :
    legacySource (s.withMxcsr mx) p rm ilen = onFault (State.withMxcsr mx) (legacySource s p rm ilen) := by
  cases rm with
  | reg n => rfl
  | mem o =>
    simp only [legacySource]
    rw [apply_ite (onFault _), ← loadFull_withMxcsr]
    rfl

theorem vexSource_withMxcsr (s : State) (mx : Dword) (p : List Pfx) (x b : Bool) (vl : VLen) (rm : Rm) (ilen : Nat) :
    vexSource (s.withMxcsr mx) p x b vl rm ilen = onFault (State.withMxcsr mx) (vexSource s p x b vl rm ilen) := by
  cases rm with
  | reg n => rfl
  | mem o => exact loadFull_withMxcsr ..

theorem evexSource_withMxcsr (s : State) (mx : Dword) (p : List Pfx) (e : Evex) (bc : Bool) (vl : VLen) (rm : Rm)
    (ilen : Nat) :
    evexSource (s.withMxcsr mx) p e bc vl rm ilen = onFault (State.withMxcsr mx) (evexSource s p e bc vl rm ilen) := by
  cases rm with
  | reg n => rfl
  | mem o =>
    simp only [evexSource]
    rw [apply_ite (onFault _), onFault_andThen, onFault_andThen, ← memRead_withMxcsr, ← memRead_withMxcsr]
    rfl

/-! ### Executions that add the same flags -/

/-- An outcome of an execution from `s`, and that of one from `s` with `mx` for its `MXCSR`: the same outcome, with the
same flags added, each to its own. -/
def AddsSameFlags (s : State) (mx : Dword) (o o' : Host.Outcome State Fault Refusal) : Prop :=
  ∃ f : FpFlags, (∀ t, endState o = some t → t.mxcsr = s.mxcsr ||| flagBits f) ∧
    o' = onState (State.withMxcsr (mx ||| flagBits f)) o

section
variable {s : State} {mx : Dword}

theorem addsSameFlags_refused (r : Refusal) : AddsSameFlags s mx (.refused r) (.refused r) :=
  ⟨FpFlags.none, by simp [endState], rfl⟩

/-- An exception with flags `G` set. -/
theorem addsSameFlags_raise {mk : State → Fault} (hafter : ∀ a, (mk a).after = a)
    (hmk : ∀ g a, (mk a).onState g = mk (g a)) (G : FpFlags) :
    AddsSameFlags s mx (raise mk (s.withMxcsr (s.mxcsr ||| flagBits G)))
      (raise mk (s.withMxcsr (mx ||| flagBits G))) := by
  refine ⟨G, fun t ht => ?_, ?_⟩
  · obtain rfl : (mk _).after = t := Option.some.inj ht
    rw [hafter]
    rfl
  · simp only [raise, onState, hmk]
    rfl

/-- A completed execution with flags `G` set. -/
theorem addsSameFlags_complete (d : BitVec 5) (v : Lanes) (G : FpFlags) (evs : List ReadEvent) (n : Nat) :
    AddsSameFlags s mx (.next (complete s d v (s.mxcsr ||| flagBits G) evs n))
      (.next (complete (s.withMxcsr mx) d v (mx ||| flagBits G) evs n)) := by
  refine ⟨G, fun t ht => ?_, rfl⟩
  obtain rfl := Option.some.inj ht
  rfl

theorem AddsSameFlags.enter {ud : Bool} {body body' : Host.Outcome State Fault Refusal}
    (h : mx.extractLsb' 6 26 = s.mxcsr.extractLsb' 6 26) (hbody : AddsSameFlags s mx body body') :
    AddsSameFlags s mx (enter ud s body) (enter ud (s.withMxcsr mx) body') :=
  enter_congr (R := AddsSameFlags s mx) (extractLsb'_of_control h (by decide) 16) rfl rfl addsSameFlags_refused
    (by simpa using! addsSameFlags_raise (mk := .ud) (fun _ => rfl) (fun _ _ => rfl) FpFlags.none)
    (by simpa using! addsSameFlags_raise (mk := .nm) (fun _ => rfl) (fun _ _ => rfl) FpFlags.none) hbody

theorem addsSameFlags_deliver (h : mx.extractLsb' 6 26 = s.mxcsr.extractLsb' 6 26) (F : FpFlags) (d : BitVec 5)
    (v : Lanes) (evs : List ReadEvent) (n : Nat) :
    AddsSameFlags s mx (andThen (deliverFp s F) fun m => .next (complete s d v m evs n))
      (andThen (deliverFp (s.withMxcsr mx) F) fun m => .next (complete (s.withMxcsr mx) d v m evs n)) :=
  deliver_congr (R := AddsSameFlags s mx) (unmasked_of_control h F) rfl rfl (addsSameFlags_complete ..)
    (addsSameFlags_raise (mk := .xm) (fun _ => rfl) fun _ _ => rfl)
    (addsSameFlags_raise (mk := .ud) (fun _ => rfl) fun _ _ => rfl)

/-- A source that does not read `MXCSR` is had alike, and what faults in its stead sets no flag. -/
theorem AddsSameFlags.andThen {α : Type} {src : State → Host.Outcome α Fault Refusal}
    (hsrc : ∀ mx, src (s.withMxcsr mx) = onFault (State.withMxcsr mx) (src s))
    {k k' : α → Host.Outcome State Fault Refusal} (hk : ∀ a, AddsSameFlags s mx (k a) (k' a)) :
    AddsSameFlags s mx (andThen (src s) k) (andThen (src (s.withMxcsr mx)) k') := by
  rw [hsrc]
  cases ho : src s with
  | next a => exact hk a
  | refused r => exact addsSameFlags_refused r
  | fault e =>
    have hfix : e = e.onState (State.withMxcsr s.mxcsr) := by
      have hself : src s = onFault (State.withMxcsr s.mxcsr) (src s) := hsrc s.mxcsr
      rw [ho] at hself
      exact Host.Outcome.fault.inj hself
    refine ⟨FpFlags.none, fun t ht => ?_, by simp [onFault, onState]⟩
    obtain rfl : e.after = t := Option.some.inj ht
    rw [hfix, Fault.after_onState, flagBits_none, BitVec.or_zero]
    rfl

theorem addsSameFlags_vexStep (h : mx.extractLsb' 6 26 = s.mxcsr.extractLsb' 6 26) (vl : VLen) (p : List Pfx)
    (r x b : Bool) (vvvv : BitVec 4) (reg : BitVec 3) (rm : Rm) (ilen : Nat) :
    AddsSameFlags s mx (vexStep vl p r x b vvvv reg rm ilen s)
      (vexStep vl p r x b vvvv reg rm ilen (s.withMxcsr mx)) := by
  simp only [vexStep, mxControl_withMxcsr h]
  exact .enter h (.andThen (src := (vexSource · p x b vl rm ilen)) (fun _ => vexSource_withMxcsr ..) fun _ =>
    addsSameFlags_deliver h ..)

theorem addsSameFlags_evexStep (h : mx.extractLsb' 6 26 = s.mxcsr.extractLsb' 6 26) (vl : VLen) (p : List Pfx)
    (e : Evex) (bc : Bool) (reg : BitVec 3) (rm : Rm) (ilen : Nat) :
    AddsSameFlags s mx (evexStep vl p e bc reg rm ilen s) (evexStep vl p e bc reg rm ilen (s.withMxcsr mx)) := by
  simp only [evexStep, mxControl_withMxcsr h]
  exact .enter h (.andThen (src := (evexSource · p e bc vl rm ilen)) (fun _ => evexSource_withMxcsr ..) fun _ =>
    addsSameFlags_deliver h ..)

/-- Of `MXCSR` every form reads control bits only. -/
theorem addsSameFlags_exec (h : mx.extractLsb' 6 26 = s.mxcsr.extractLsb' 6 26) (i : Instr) :
    AddsSameFlags s mx (exec i s) (exec i (s.withMxcsr mx)) := by
  cases i with
  | subps p reg rm =>
    simp only [exec, execSubps, mxControl_withMxcsr h]
    exact .enter h (.andThen (src := (legacySource · p rm _)) (fun _ => legacySource_withMxcsr ..) fun _ =>
      addsSameFlags_deliver h ..)
  | vsubps128c5 p v reg rm | vsubps128c4 p v reg rm | vsubps256c5 p v reg rm | vsubps256c4 p v reg rm =>
    exact addsSameFlags_vexStep h ..
  | vsubpsEvex128 p e bc reg rm | vsubpsEvex256 p e bc reg rm | vsubpsEvex512 p e bc reg rm =>
    exact addsSameFlags_evexStep h ..
  | vsubpsEvex512er p e rc reg n =>
    simp only [exec, execVsubpsEvex512er, evexErStep, erControl_withMxcsr h]
    refine .enter h ?_
    simpa using! addsSameFlags_complete _ _ FpFlags.none [] _

end

/-- Settles O37: the operand, the rounding control and the masks come from other state than the flags. -/
theorem flagsNotRead : Obligations.FlagsNotRead :=
  fun i _ _ h => addsSameFlags_exec h i

end Sys2Proof.Machine
end

section
/-! SUPPORT. Memory and the data reads (spec/20_memory.md): a read after a write, what each byte of an operand that has
been read is, and which bytes an instruction accesses. -/

namespace Sys2Proof.Machine

/-! ## Reading after a write -/

/-- A cell is left out where it would hold what an unlisted address reads as, and is read all the same. -/
theorem Memory.read_cell {m : List Host.Cell} {a : Nat} (h : Memory.read m a = Memory.unlisted) (b : Nat) (v : Byte) :
    Memory.read (if v = Memory.unlisted then m else (a, v) :: m) b = if b = a then v else Memory.read m b := by
  split_ifs with hv hb <;> simp_all [Memory.read_cons]

/-- Settles O52: by induction on the cells, along the branches of the write. -/
theorem readAfterWrite : Obligations.ReadAfterWrite := by
  intro m a b v hm
  induction m with
  | nil => exact Memory.read_cell rfl b v
  | cons c m ih =>
    obtain ⟨hsorted, hlisted⟩ := hm
    obtain ⟨habove, hsorted⟩ := List.pairwise_cons.1 hsorted
    have hrest := ih ⟨hsorted, fun d hd => hlisted d (List.mem_cons_of_mem c hd)⟩
    unfold Memory.write
    rcases lt_trichotomy a c.1 with h | h | h
    · rw [if_pos h]
      refine Memory.read_cell (Memory.read_of_lt fun d hd => ?_) b v
      rcases List.mem_cons.1 hd with rfl | hd
      · exact h
      · exact h.trans (habove d hd)
    · rw [if_neg h.not_lt, if_pos h, Memory.read_cell (Memory.read_of_lt fun d hd => h.trans_lt (habove d hd)),
        Memory.read_cons]
      split_ifs <;> simp_all
    · rw [if_neg h.not_gt, if_neg h.ne', Memory.read_cons, hrest, Memory.read_cons]
      split_ifs <;> simp_all

/-! ## The bytes of a read -/

/-- A list paired with keys that do not repeat is looked up by place. -/
theorem lookup_zip_getElem {β : Type} {ks : List Nat} {bs : List β} (hks : ks.Nodup) {i : Nat} (hi : i < ks.length)
    (hb : i < bs.length) : (ks.zip bs).lookup ks[i] = some bs[i] := by
  induction ks generalizing bs i with
  | nil => simp at hi
  | cons k ks ih =>
    obtain ⟨hk, hks⟩ := List.nodup_cons.1 hks
    cases bs with
    | nil => simp at hb
    | cons b bs =>
      cases i with
      | zero => simp
      | succ i =>
        have hi : i < ks.length := by simpa using hi
        have hne : ks[i] ≠ k := fun h => hk (h ▸ List.getElem_mem hi)
        simpa [List.lookup_cons, beq_false_of_ne hne] using ih hks hi (by simpa using hb)

/-- A byte that has been read, by its place among the bytes read. -/
theorem Bytes.at_of_mapIdx {b : Bytes} {ks : List Nat} {g : Nat → Nat → Byte} (hb : b.bytes = ks.zip (ks.mapIdx g))
    (hks : ks.Nodup) {i : Nat} (hi : i < ks.length) : b.at ks[i] = g i ks[i] := by
  simp [Bytes.at, hb, lookup_zip_getElem hks hi (bs := ks.mapIdx g) (by simpa using hi)]

/-- What byte `i` of read number `n`, at the physical address `p`, is: the oracle's answer, else what memory holds
(20_memory.md rule R57). -/
def answerByte (s : State) (n i p : Nat) : Byte := ((s.oracle.lookup n).getD []).getD i (Memory.read s.mem p)

theorem answerByte_of_none {s : State} {n : Nat} (h : s.oracle.lookup n = none) (i p : Nat) :
    answerByte s n i p = Memory.read s.mem p := by
  simp [answerByte, h]

theorem answerByte_of_some {s : State} {n : Nat} {bs : List Byte} (h : s.oracle.lookup n = some bs) (i p : Nat) :
    answerByte s n i p = bs.getD i (Memory.read s.mem p) := by
  simp [answerByte, h]

/-- A read is answered byte by byte. -/
theorem answer_map (s : State) (n : Nat) (f : Nat → Nat) (ks : List Nat) :
    answer s n (ks.map f) = ks.mapIdx fun i k => answerByte s n i (f k) := by
  unfold answer answerByte
  cases s.oracle.lookup n <;> exact List.ext_getElem (by simp) fun i _ _ => by simp

/-- Addresses read one by one are read in order, each as a read of its own. -/
theorem readEvents_singletons (s : State) (n : Nat) (f : Nat → Nat) (ks : List Nat) :
    readEvents s n (ks.map fun k => [f k]) = ks.mapIdx fun i k => ⟨[f k], [answerByte s (n + i) 0 (f k)]⟩ := by
  induction ks generalizing n with
  | nil => rfl
  | cons k ks ih =>
    have hone : answer s n [f k] = [answerByte s n 0 (f k)] := answer_map s n f [k]
    simp [readEvents, ih, hone, Nat.add_assoc, Nat.add_comm 1]

section
variable (s : State) (seg : SegName) (a : AddrSize) (off : Qword)

theorem readOf_bytes (ks : List Nat) (one : Bool) : (readOf s seg a off ks one).bytes =
    ks.zip ((readOf s seg a off ks one).events.flatMap ReadEvent.bytes) := rfl

/-- The events of an operand read byte by byte. -/
theorem readOf_events_bytewise (ks : List Nat) : (readOf s seg a off ks false).events =
    ks.mapIdx fun i k =>
      ⟨[bytePhys s seg a off k], [answerByte s (s.history.length + i) 0 (bytePhys s seg a off k)]⟩ := by
  simp only [readOf, accesses, Bool.false_eq_true, if_false, List.map_map]
  exact readEvents_singletons ..

/-- Byte `ks[i]` of an operand whose bytes `ks` have been read one by one. -/
theorem readOf_at_bytewise {ks : List Nat} (hks : ks.Nodup) {i : Nat} (hi : i < ks.length) :
    (readOf s seg a off ks false).at ks[i] = answerByte s (s.history.length + i) 0 (bytePhys s seg a off ks[i]) := by
  have hbytes : (readOf s seg a off ks false).bytes = ks.zip (ks.mapIdx fun i k =>
      answerByte s (s.history.length + i) 0 (bytePhys s seg a off k)) := by
    rw [readOf_bytes, readOf_events_bytewise]
    simp [List.mapIdx_eq_zipIdx_map, List.flatMap_map, ← List.map_eq_flatMap]
  exact Bytes.at_of_mapIdx hbytes hks hi

/-- Byte `ks[i]` of an operand whose bytes `ks` have been read at once. -/
theorem readOf_at_once {ks : List Nat} (hks : ks.Nodup) {i : Nat} (hi : i < ks.length) :
    (readOf s seg a off ks true).at ks[i] = answerByte s s.history.length i (bytePhys s seg a off ks[i]) := by
  have hbytes : (readOf s seg a off ks true).bytes = ks.zip (ks.mapIdx fun i k =>
      answerByte s s.history.length i (bytePhys s seg a off k)) := by
    simp [readOf, accesses, readEvents, answer_map]
  exact Bytes.at_of_mapIdx hbytes hks hi

end

/-- Settles O54: each byte is looked up by its place among those accessed. -/
theorem readEvents_spec : Obligations.ReadEvents := by
  intro s seg a off
  refine ⟨fun ks hks => ⟨by simp [readOf_events_bytewise], fun i hi => ⟨?_, fun h => ?_, fun vs h => ?_⟩⟩,
    rfl, fun k hk => ⟨fun h => ?_, fun vs h => ?_⟩⟩
  · simp [readOf_events_bytewise, hi]
  · rw [readOf_at_bytewise s seg a off hks hi, answerByte_of_none h]
  · rw [readOf_at_bytewise s seg a off hks hi, answerByte_of_some h]
  all_goals
    have hat := readOf_at_once s seg a off (ks := List.range 4) List.nodup_range (i := k) (by simpa using hk)
    rw [List.getElem_range] at hat
    refine hat.trans ?_
  · exact answerByte_of_none h ..
  · exact answerByte_of_some h ..

/-! ## Little-endian elements -/

/-- Where no other agent answers, a byte that has been read is the byte of memory, however it was read. -/
theorem readOf_at_of_no_oracle {s : State} (h : s.oracle = []) (seg : SegName) (a : AddrSize) (off : Qword)
    {ks : List Nat} (hks : ks.Nodup) (one : Bool) {k : Nat} (hk : k ∈ ks) :
    (readOf s seg a off ks one).at k = Memory.read s.mem (bytePhys s seg a off k) := by
  obtain ⟨i, hi, rfl⟩ := List.getElem_of_mem hk
  have hnone : ∀ n, s.oracle.lookup n = none := by simp [h]
  cases one with
  | false => rw [readOf_at_bytewise s seg a off hks hi, answerByte_of_none (hnone _)]
  | true => rw [readOf_at_once s seg a off hks hi, answerByte_of_none (hnone _)]

/-- Where no other agent answers, an element whose four bytes have been read is those bytes of memory. -/
theorem readOf_dword_of_no_oracle {s : State} (h : s.oracle = []) (seg : SegName) (a : AddrSize) (off : Qword)
    {ks : List Nat} (hks : ks.Nodup) (one : Bool) {j : Nat} (hj : ∀ b < 4, 4 * j + b ∈ ks) :
    (readOf s seg a off ks one).dword (4 * j) =
      Memory.read s.mem (bytePhys s seg a off (4 * j + 3)) ++ Memory.read s.mem (bytePhys s seg a off (4 * j + 2)) ++
        Memory.read s.mem (bytePhys s seg a off (4 * j + 1)) ++ Memory.read s.mem (bytePhys s seg a off (4 * j)) := by
  have hat : ∀ b < 4, _ := fun b hb => readOf_at_of_no_oracle h seg a off hks one (hj b hb)
  simp only [Bytes.dword]
  rw [hat 3 (by decide), hat 2 (by decide), hat 1 (by decide), show 4 * j = 4 * j + 0 from rfl, hat 0 (by decide)]

/-! ## The bytes that an EVEX form accesses -/

/-- The EVEX form of a vector length. -/
def evexInstr (vl : VLen) (p : List Pfx) (e : Evex) (bc : Bool) (reg : BitVec 3) (rm : Rm) : Instr :=
  match vl with
  | .v128 => .vsubpsEvex128 p e bc reg rm
  | .v256 => .vsubpsEvex256 p e bc reg rm
  | .v512 => .vsubpsEvex512 p e bc reg rm

/-- The bytes of its operand that an EVEX form accesses. -/
def evexBytes (s : State) (aaa : BitVec 3) (bc : Bool) (vl : VLen) : List Nat :=
  if bc then broadcastBytes s aaa vl else fullBytes s aaa vl

theorem accessedOf_evexInstr (vl : VLen) (p : List Pfx) (e : Evex) (bc : Bool) (reg : BitVec 3) (rm : Rm) (s : State) :
    accessedOf (evexInstr vl p e bc reg rm) s = evexBytes s e.aaa bc vl := by
  rw [evexBytes, broadcastBytes_eq]
  cases vl <;> rfl

theorem mem_fullBytes {s : State} {aaa : BitVec 3} {vl : VLen} {k : Nat} : k ∈ fullBytes s aaa vl ↔
    k < vlBytes vl ∧ (s.cfg.faultSuppression = true → active s aaa (k / 4) = true) := by
  cases h : s.cfg.faultSuppression <;> simp [fullBytes, h]

/-- A broadcast operand is read where an element is active, and without fault suppression in any case. -/
theorem broadcastBytes_of_needed {s : State} {aaa : BitVec 3} {vl : VLen}
    (h : (∃ j < vlLanes vl, active s aaa j = true) ∨ s.cfg.faultSuppression = false) :
    broadcastBytes s aaa vl = List.range 4 := by
  refine if_pos ?_
  simpa [or_comm] using h

theorem evexBytes_nodup (s : State) (aaa : BitVec 3) (bc : Bool) (vl : VLen) : (evexBytes s aaa bc vl).Nodup := by
  unfold evexBytes
  split_ifs
  · unfold broadcastBytes
    split_ifs
    · exact List.nodup_range
    · exact List.nodup_nil
  · exact List.nodup_range.filter _

/-- Every byte of an active element is accessed. -/
theorem mem_evexBytes_of_active {s : State} {aaa : BitVec 3} {vl : VLen} {j b : Nat} (hb : b < 4) (hj : j < vlLanes vl)
    (ha : active s aaa j = true) (bc : Bool) : (if bc then b else 4 * j + b) ∈ evexBytes s aaa bc vl := by
  cases bc with
  | true => simpa [evexBytes, broadcastBytes_of_needed (.inl ⟨j, hj, ha⟩)] using hb
  | false =>
    have hdiv : (4 * j + b) / 4 = j := by omega
    exact mem_fullBytes.2 ⟨show 4 * j + b < 4 * vlLanes vl by omega, fun _ => by simpa [hdiv] using ha⟩

/-- Settles O53: the bytes of an element are those of memory, and each form accesses those of its active elements. -/
theorem littleEndian : Obligations.LittleEndian := by
  refine ⟨fun s seg a off ks one j h hks hj => readOf_dword_of_no_oracle h seg a off hks one hj, fun i s => ?_⟩
  have hrange : ∀ n j b : Nat, b < 4 → j < n → 4 * j + b ∈ List.range (4 * n) := fun n j b hb hj =>
    List.mem_range.2 (by omega)
  have hevex : ∀ vl p e bc reg rm, (accessedOf (evexInstr vl p e bc reg rm) s).Nodup ∧ ∀ j b : Nat, b < 4 →
      j < vlLanes vl → active s e.aaa j = true →
        (if bc then b else 4 * j + b) ∈ accessedOf (evexInstr vl p e bc reg rm) s := by
    intro vl p e bc reg rm
    rw [accessedOf_evexInstr]
    exact ⟨evexBytes_nodup .., fun j b hb hj ha => mem_evexBytes_of_active hb hj ha bc⟩
  cases i with
  | subps | vsubps128c5 | vsubps128c4 => exact ⟨List.nodup_range, hrange 4⟩
  | vsubps256c5 | vsubps256c4 => exact ⟨List.nodup_range, hrange 8⟩
  | vsubpsEvex128 p e bc reg rm => exact hevex .v128 p e bc reg rm
  | vsubpsEvex256 p e bc reg rm => exact hevex .v256 p e bc reg rm
  | vsubpsEvex512 p e bc reg rm => exact hevex .v512 p e bc reg rm
  | vsubpsEvex512er => exact ⟨List.nodup_nil, fun _ _ _ => trivial⟩

end Sys2Proof.Machine
end

section
/-! SUPPORT. Executions with a memory operand that can be read: the source that they get, how they end once they have
it, and the statements about them (spec/41_vsubps_vex.md, spec/42_vsubps_evex.md). -/

namespace Sys2Proof.Machine

/-! ## When an operand is read -/

/-- `mayTrapAlign` says where `#AC(0)` may be raised. -/
theorem mayTrapAlign_iff {s : State} {seg : SegName} {off : Qword} {n : Nat} :
    mayTrapAlign s (linear s seg off) n = true ↔ Misaligned s seg off n := by
  simp [mayTrapAlign, State.alignmentChecked, State.crAm, State.flagAc, and_assoc]

/-- An operand of which the bytes `ks` are accessed does not end the step in `#AC(0)`: no byte is, or it cannot, or the
free value says no. -/
def NoTrap (s : State) (seg : SegName) (off : Qword) (n : Nat) (ks : List Nat) : Prop :=
  ks = [] ∨ mayTrapAlign s (linear s seg off) n = false ∨ Config.freeTrap (s.history.length + s.faults) = false

/-- A read answers exactly where the accessed bytes can be read and it does not trap. -/
theorem memRead_eq_next_iff {s : State} {seg : SegName} {a : AddrSize} {off : Qword} {n : Nat} {ks : List Nat}
    {bc : Bool} {b : Bytes} :
    memRead s seg a off n ks bc = .next b ↔ Accessible s seg a off ks ∧ NoTrap s seg off n ks ∧
      b = readOf s seg a off ks (bc && oneAccess s seg off ks) := by
  constructor
  · intro h
    obtain ⟨hacc, hb⟩ := memRead_eq_next h
    refine ⟨hacc, ?_, hb⟩
    by_contra htrap
    simp only [NoTrap, not_or, Bool.not_eq_false] at htrap
    obtain ⟨hks, hmis, hfree⟩ := htrap
    rw [memRead_of_trap (fun k hk => (hacc k hk).1) hks (mayTrapAlign_iff.1 hmis) hfree] at h
    cases h
  · rintro ⟨hacc, htrap, rfl⟩
    exact memRead_of_accessible hacc htrap

/-- The second source of a VEX form with a memory operand is had where the operand can be read. -/
theorem vexSource_of_accessible {s : State} {p : List Pfx} {x b : Bool} {vl : VLen} {o : MemOp} {ilen : Nat} :
    let ad := memAddr s p x b 1 ilen o
    let a := addrSize s.mode p
    let m := readOf s ad.1 a ad.2 (List.range (vlBytes vl)) false
    Accessible s ad.1 a ad.2 (List.range (vlBytes vl)) → NoTrap s ad.1 ad.2 (vlBytes vl) (List.range (vlBytes vl)) →
    vexSource s p x b vl (.mem o) ilen = .next ⟨Vector.ofFn fun j : Fin 16 => m.dword (4 * j.val), m.events⟩ := by
  intro ad a m hacc htrap
  exact andThen_eq_next.2 ⟨_, memRead_eq_next_iff.2 ⟨hacc, htrap, rfl⟩, rfl⟩

/-- The elements of an EVEX form's memory operand: its own four bytes for each, or the same four for every one. -/
def evexLanes (bc : Bool) (m : Bytes) : Loaded :=
  ⟨Vector.ofFn fun j => m.dword (if bc then 0 else 4 * j.val), m.events⟩

/-- The second source of an EVEX form with a memory operand is one read. -/
theorem evexSource_mem (s : State) (p : List Pfx) (e : Evex) (bc : Bool) (vl : VLen) (o : MemOp) (ilen : Nat) :
    let ad := memAddr s p e.x e.b (evexScale vl bc) ilen o
    evexSource s p e bc vl (.mem o) ilen =
      andThen (memRead s ad.1 (addrSize s.mode p) ad.2 (evexScale vl bc) (evexBytes s e.aaa bc vl) bc) fun m =>
        .next (evexLanes bc m) := by
  cases bc <;> rfl

/-- The second source of an EVEX form with a memory operand is had exactly where the operand can be read. -/
theorem evexSource_eq_next_iff {s : State} {p : List Pfx} {e : Evex} {bc : Bool} {vl : VLen} {o : MemOp} {ilen : Nat}
    {src : Loaded} {ks : List Nat} (hks : evexBytes s e.aaa bc vl = ks) :
    let ad := memAddr s p e.x e.b (evexScale vl bc) ilen o
    let a := addrSize s.mode p
    evexSource s p e bc vl (.mem o) ilen = .next src ↔
      Accessible s ad.1 a ad.2 ks ∧ NoTrap s ad.1 ad.2 (evexScale vl bc) ks ∧
        src = evexLanes bc (readOf s ad.1 a ad.2 ks (bc && oneAccess s ad.1 ad.2 ks)) := by
  subst hks
  rw [evexSource_mem, andThen_eq_next]
  constructor
  · rintro ⟨m, hm, h⟩
    obtain ⟨hacc, htrap, rfl⟩ := memRead_eq_next_iff.1 hm
    exact ⟨hacc, htrap, (Host.Outcome.next.inj h).symm⟩
  · rintro ⟨hacc, htrap, rfl⟩
    exact ⟨_, memRead_eq_next_iff.2 ⟨hacc, htrap, rfl⟩, rfl⟩

/-! ## Once the source is had -/

/-- An execution completes with the result it has computed where its active elements are masked, and ends in a numeric
exception where one is not. -/
theorem deliver_ends {s : State} {F : FpFlags} {kl : Nat} {act : Nat → Bool} {f : Fin 16 → FpFlags}
    (hF : SignalledBy F kl act f) {r : Lanes} {v : Fin 16 → Dword} (hv : ∀ j : Fin 16, r[j] = v j) (d : BitVec 5)
    (evs : List ReadEvent) (ilen : Nat) :
    let o := andThen (deliverFp s F) fun mx => .next (complete s d r mx evs ilen)
    (LanesMasked s kl act f → Yields o s d kl act f v evs ilen) ∧
      (¬ LanesMasked s kl act f → NumericFault o s kl act f) := by
  rw [← hF.allMasked_iff s]
  constructor
  · intro h
    refine ⟨complete s d r (s.mxcsr ||| flagBits F) evs ilen, F, ?_, hF, fun j => ?_, complete_completed ..⟩
    · rw [deliverFp_eq_next.2 ⟨h, rfl⟩, andThen_next]
    · rw [complete_readZmm_same, hv]
  · intro h
    obtain ⟨G, hGF, hGU, hG⟩ := deliverFp_of_unmasked h
    exact ⟨F, G, hF, hGF, hGU, by rw [hG, andThen_fault]; rfl⟩

theorem laneOf_mxControl (s : State) (a b : Dword) : laneOf (mxControl s) a b = mxSub s a b := rfl

/-- The conditions of an execution without embedded rounding are those of its active elements. -/
theorem elements_signalled_mxSub (s : State) (vl : VLen) (act : Nat → Bool) (masked a b : Lanes) :
    SignalledBy (elements (mxControl s) vl act masked a b).2 (vlLanes vl) act (fun j => (mxSub s a[j] b[j]).2) :=
  elements_signalled (mxControl s) vl act masked a b

/-- A VEX form that may execute has registers as wide as it. -/
theorem vlLanes_le_of_avx {s : State} {p : List Pfx} {vl : VLen} (hok : s.cfg.ok) (hr : Ready (udVex p s) s)
    (hvl : vl ≠ .v512) : vlLanes vl ≤ vlLanes s.cfg.maxVl := by
  obtain ⟨-, hud, -, -⟩ := hr
  obtain ⟨-, -, -, hmax, -⟩ := hok
  have hmax := hmax (by simp_all [udVex])
  revert hvl hmax
  cases vl <;> cases s.cfg.maxVl <;> decide

/-- An EVEX form that may execute has registers as wide as any. -/
theorem vlLanes_le_of_avx512f {s : State} {p : List Pfx} {e : Evex} {needsVl : Bool} (hok : s.cfg.ok)
    (hr : Ready (udEvex needsVl p e s) s) (vl : VLen) : vlLanes vl ≤ vlLanes s.cfg.maxVl := by
  obtain ⟨-, hud, -, -⟩ := hr
  obtain ⟨-, -, -, -, hmax⟩ := hok
  rw [hmax (by simp_all [udEvex])]
  cases vl <;> decide

/-- A VEX form that has its source subtracts, or ends in a numeric exception. -/
theorem vexStep_of_source {vl : VLen} {p : List Pfx} {r x b : Bool} {vvvv : BitVec 4} {reg : BitVec 3} {rm : Rm}
    {ilen : Nat} {s : State} {second : Lanes} {evs : List ReadEvent} (hok : s.cfg.ok) (hvl : vl ≠ .v512)
    (hr : Ready (udVex p s) s)
    (hsrc : vexSource s p x b vl rm ilen = .next ⟨second, evs⟩) :
    SubtractsOrFaults (vexStep vl p r x b vvvv reg rm ilen s) s (low16 (regNum s.mode r reg)) (vlLanes vl)
      (s.readZmm (low16 (vvvvNum s.mode vvvv))) second (fun _ => 0#32) evs ilen := by
  have hwide := vlLanes_le_of_avx hok hr hvl
  rw [vexStep, enter_of_ready hr, hsrc, andThen_next]
  refine deliver_ends (elements_signalled_mxSub ..) (fun j => ?_) ..
  rw [zextMaxVl_getElem, elements_getElem, laneOf_mxControl]
  by_cases hj : j.val < vlLanes vl
  · simp [hj, hj.trans_le hwide]
  · simp [hj]

theorem maskedOff_getElem (e : Evex) (old : Lanes) (j : Fin 16) :
    (maskedOff e old)[j] = if e.z then 0#32 else old[j] := by
  unfold maskedOff
  split_ifs <;> simp

/-- An EVEX form that has its source subtracts in its active elements, or ends in a numeric exception. -/
theorem evexStep_of_source {vl : VLen} {p : List Pfx} {e : Evex} {bc : Bool} {reg : BitVec 3} {rm : Rm}
    {ilen : Nat} {s : State} {second : Lanes} {evs : List ReadEvent} (hok : s.cfg.ok)
    (hr : Ready (udEvex (vl != .v512) p e s) s)
    (hsrc : evexSource s p e bc vl rm ilen = .next ⟨second, evs⟩) :
    MaskedSubtractsOrFaults (evexStep vl p e bc reg rm ilen s) s e (regNum5 s.mode e.rp e.r reg) (vlLanes vl)
      (s.readZmm (vvvvNum5 s.mode e.vp e.vvvv)) second evs ilen := by
  have hwide := vlLanes_le_of_avx512f hok hr vl
  rw [evexStep, enter_of_ready hr, hsrc, andThen_next]
  refine deliver_ends (elements_signalled_mxSub ..) (fun j => ?_) ..
  rw [zextMaxVl_getElem, elements_getElem, laneOf_mxControl, maskedOff_getElem]
  by_cases hj : j.val < vlLanes vl
  · simp [hj, hj.trans_le hwide]
  · simp [hj]

/-! ## The forms that read memory -/

/-- A VEX form whose memory operand of `n` bytes can be read subtracts, or ends in a numeric exception. -/
theorem exec_vex_of_accessible {i : Instr} {vl : VLen} {p : List Pfx} {r x b : Bool} {vvvv : BitVec 4} {reg : BitVec 3}
    {o : MemOp} {n : Nat} {s : State} (hok : s.cfg.ok) (hr : Ready (udVex p s) s)
    (hi : exec i s = vexStep vl p r x b vvvv reg (.mem o) (instrLength i) s) (hn : vlBytes vl = n) (hvl : vl ≠ .v512) :
    let ad := memAddr s p x b 1 (instrLength i) o
    let m := readOf s ad.1 (addrSize s.mode p) ad.2 (List.range n) false
    Accessible s ad.1 (addrSize s.mode p) ad.2 (List.range n) → NoTrap s ad.1 ad.2 n (List.range n) →
    SubtractsOrFaults (exec i s) s (low16 (regNum s.mode r reg)) (n / 4) (s.readZmm (low16 (vvvvNum s.mode vvvv)))
      (Vector.ofFn fun j : Fin 16 => m.dword (4 * j.val)) (fun _ => 0#32) m.events (instrLength i) := by
  subst hn
  intro ad m hacc htrap
  have hkl : vlBytes vl / 4 = vlLanes vl := Nat.mul_div_cancel_left _ (by decide)
  rw [hi, hkl]
  exact vexStep_of_source hok hvl hr (vexSource_of_accessible hacc htrap)

/-- The part of a form's execution that completes. -/
theorem SubtractsOrFaults.subtracts {o : Host.Outcome State Fault Refusal} {s : State} {d : BitVec 5} {kl : Nat}
    {a b : Lanes} {up : Fin 16 → Dword} {evs : List ReadEvent} {ilen : Nat}
    (h : SubtractsOrFaults o s d kl a b up evs ilen) : Subtracts o s d kl a b up evs ilen := h.1

/-- Settles O25: both spellings of both lengths are one step on an operand that can be read. -/
theorem vexMemory : Obligations.VexMemory := by
  intro wide p v w reg o s hok hr
  cases wide
  all_goals
    constructor
    all_goals exact fun hacc ht =>
      SubtractsOrFaults.subtracts (exec_vex_of_accessible hok hr rfl rfl (by decide) hacc (.inr (.inl ht)))

theorem exec_evexInstr (vl : VLen) (p : List Pfx) (e : Evex) (bc : Bool) (reg : BitVec 3) (rm : Rm) (s : State) :
    exec (evexInstr vl p e bc reg rm) s =
      evexStep vl p e bc reg rm (instrLength (evexInstr vl p e bc reg rm)) s := by
  cases vl <;> rfl

theorem udOf_evexInstr (vl : VLen) (p : List Pfx) (e : Evex) (bc : Bool) (reg : BitVec 3) (rm : Rm) (s : State) :
    udOf (evexInstr vl p e bc reg rm) s = udEvex (vl != .v512) p e s := by
  cases vl <;> rfl

/-- What stands before `Translate` for an EVEX form with a memory operand. -/
theorem readsAt_evexInstr {vl : VLen} {p : List Pfx} {e : Evex} {bc : Bool} {reg : BitVec 3} {o : MemOp} {s : State}
    (hr : Ready (udOf (evexInstr vl p e bc reg (.mem o)) s) s) :
    let ad := memAddr s p e.x e.b (evexScale vl bc) (instrLength (evexInstr vl p e bc reg (.mem o))) o
    ReadsAt (evexInstr vl p e bc reg (.mem o)) s ad.1 ad.2 (evexScale vl bc) := by
  refine ⟨hr, ?_, ?_⟩
  · cases vl <;> rfl
  · cases vl <;> exact fun h => nomatch h

/-- An EVEX form whose memory operand can be read subtracts in its active elements, or ends in a numeric exception. -/
theorem exec_evexInstr_of_accessible {vl : VLen} {p : List Pfx} {e : Evex} {bc : Bool} {reg : BitVec 3} {o : MemOp}
    {s : State} (hok : s.cfg.ok) (hr : Ready (udOf (evexInstr vl p e bc reg (.mem o)) s) s) {ks : List Nat}
    (hks : evexBytes s e.aaa bc vl = ks) :
    let i := evexInstr vl p e bc reg (.mem o)
    let ad := memAddr s p e.x e.b (evexScale vl bc) (instrLength i) o
    let a := addrSize s.mode p
    let src := evexLanes bc (readOf s ad.1 a ad.2 ks (bc && oneAccess s ad.1 ad.2 ks))
    Accessible s ad.1 a ad.2 ks → NoTrap s ad.1 ad.2 (evexScale vl bc) ks →
    MaskedSubtractsOrFaults (exec i s) s e (regNum5 s.mode e.rp e.r reg) (vlLanes vl)
      (s.readZmm (vvvvNum5 s.mode e.vp e.vvvv)) src.lanes src.events (instrLength i) := by
  intro i ad a src hacc htrap
  rw [udOf_evexInstr] at hr
  rw [exec_evexInstr]
  exact evexStep_of_source hok hr ((evexSource_eq_next_iff hks).2 ⟨hacc, htrap, rfl⟩)

/-- Settles O28: the bytes accessed are the four, or none. -/
theorem evexBroadcast : Obligations.EvexBroadcast := by
  intro vl p e reg o s hok i ad ks m hr hacc ht
  exact (exec_evexInstr_of_accessible (bc := true) hok hr (broadcastBytes_eq ..) hacc (.inr (.inl ht))).1

/-- Where an instruction may raise `#AC(0)` for a memory operand that can be read, the free value decides. -/
theorem trapsOr_of_readsAt {i : Instr} {s : State} {seg : SegName} {off : Qword} {n : Nat} {done : Prop}
    (h : ReadsAt i s seg off n)
    (hacc : Accessible s seg (addrSize s.mode (prefixesOf i)) off (accessedOf i s)) (hks : accessedOf i s ≠ [])
    (hmis : Misaligned s seg off n) (hdone : NoTrap s seg off n (accessedOf i s) → done) :
    TrapsOr (exec i s) s done := by
  unfold TrapsOr
  split_ifs with hfree
  · exact exec_of_trap h (fun k hk => (hacc k hk).1) hks hmis hfree
  · exact hdone (.inr (.inr (by simpa using hfree)))

/-- Settles O51: past the free value each form ends as an operand that can be read makes it end. -/
theorem alignmentCheckEitherWay : Obligations.AlignmentCheckEitherWay := by
  intro p v w e reg o s wide bc vl hok
  refine ⟨?_, ?_, fun hr hks hacc hmis => ?_⟩
  rotate_left 2
  · refine trapsOr_of_readsAt (readsAt_evexInstr hr) ?_ hks hmis fun htrap => ?_
    · cases vl <;> exact hacc
    · exact exec_evexInstr_of_accessible hok hr (accessedOf_evexInstr ..).symm hacc htrap
  all_goals
    cases wide
    all_goals
      intro i ad m hr hacc hmis
      refine trapsOr_of_readsAt (n := _) ⟨hr, rfl, fun h => nomatch h⟩ hacc ?_ hmis fun htrap => ?_
      · exact List.range_eq_nil.not.2 (by decide)
      · exact exec_vex_of_accessible hok hr rfl rfl (by decide) hacc htrap

/-! ## Masked-off bytes -/

/-- A state with another memory. -/
def State.withMem (m : List Host.Cell) (s : State) : State := { s with mem := m }

/-- The bytes of an active element, read from either of two memories that agree on them, are the same element. -/
theorem evexLanes_withMem {s : State} {m' : List Host.Cell} {seg : SegName} {a : AddrSize} {off : Qword}
    {aaa : BitVec 3} {vl : VLen} (horacle : s.oracle = [])
    (hmem : ∀ k < vlBytes vl, active s aaa (k / 4) = true →
      Memory.read m' (bytePhys s seg a off k) = Memory.read s.mem (bytePhys s seg a off k))
    {j : Fin 16} (hj : j.val < vlLanes vl) (ha : active s aaa j.val = true) :
    (evexLanes false (readOf (s.withMem m') seg a off (evexBytes s aaa false vl) false)).lanes[j] =
      (evexLanes false (readOf s seg a off (evexBytes s aaa false vl) false)).lanes[j] := by
  have hks : ∀ b < 4, 4 * j.val + b ∈ evexBytes s aaa false vl := fun b hb => mem_evexBytes_of_active hb hj ha false
  have hbyte : ∀ b < 4, Memory.read m' (bytePhys s seg a off (4 * j.val + b)) =
      Memory.read s.mem (bytePhys s seg a off (4 * j.val + b)) := fun b hb =>
    hmem _ (show 4 * j.val + b < 4 * vlLanes vl by omega) (by rwa [show (4 * j.val + b) / 4 = j.val by omega])
  have hat : ∀ b < 4, (readOf (s.withMem m') seg a off (evexBytes s aaa false vl) false).at (4 * j.val + b) =
      (readOf s seg a off (evexBytes s aaa false vl) false).at (4 * j.val + b) := fun b hb =>
    (readOf_at_of_no_oracle (s := s.withMem m') horacle seg a off (evexBytes_nodup ..) false (hks b hb)).trans
      ((hbyte b hb).trans (readOf_at_of_no_oracle horacle seg a off (evexBytes_nodup ..) false (hks b hb)).symm)
  have h0 := hat 0 (by decide)
  rw [Nat.add_zero] at h0
  simp [evexLanes, Bytes.dword, h0, hat]

/-- Of the second source only active elements reach the result, and of memory only the second source. -/
theorem evexStep_withMem {vl : VLen} {p : List Pfx} {e : Evex} {bc : Bool} {reg : BitVec 3} {rm : Rm} {ilen : Nat}
    {s t : State} {m' : List Host.Cell} (h : evexStep vl p e bc reg rm ilen s = .next t)
    (hsrc : ∀ src, evexSource s p e bc vl rm ilen = .next src →
      ∃ src', evexSource (s.withMem m') p e bc vl rm ilen = .next src' ∧
        ∀ j : Fin 16, j.val < vlLanes vl → active s e.aaa j.val = true → src'.lanes[j] = src.lanes[j]) :
    ∃ t', evexStep vl p e bc reg rm ilen (s.withMem m') = .next t' ∧ t'.zmm = t.zmm ∧ t'.mxcsr = t.mxcsr ∧
      t'.pc = t.pc := by
  obtain ⟨hr, src, hs, hmasked, rfl⟩ := evexStep_eq_next.1 h
  obtain ⟨src', hs', hlanes⟩ := hsrc src hs
  have hsame := elements_congr (mxControl s) vl (active s e.aaa)
    (maskedOff e (s.readZmm (regNum5 s.mode e.rp e.r reg))) (s.readZmm (vvvvNum5 s.mode e.vp e.vvvv)) src'.lanes _
    src.lanes fun j hj ha => ⟨rfl, hlanes j hj ha⟩
  rw [← hsame] at hmasked ⊢
  exact ⟨_, evexStep_eq_next.2 ⟨hr, src', hs', hmasked, rfl⟩, rfl, rfl, rfl⟩

/-- Settles O31: with the other memory the operand is read as before, and only active elements reach the result. -/
theorem maskedBytesIrrelevant : Obligations.MaskedBytesIrrelevant := by
  intro vl p e reg o s t m' i ad horacle hmem hexec
  change exec (evexInstr vl p e false reg (.mem o)) s = .next t at hexec
  change ∃ t', exec (evexInstr vl p e false reg (.mem o)) (s.withMem m') = .next t' ∧ _
  rw [exec_evexInstr] at hexec ⊢
  refine evexStep_withMem hexec fun src hsrc => ?_
  obtain ⟨hacc, htrap, rfl⟩ := (evexSource_eq_next_iff rfl).1 hsrc
  exact ⟨_, (evexSource_eq_next_iff (s := s.withMem m') rfl).2 ⟨hacc, htrap, rfl⟩, fun j hj ha =>
    evexLanes_withMem horacle hmem hj ha⟩

end Sys2Proof.Machine
end

section
/-! SUPPORT. Executions with a memory operand that cannot be read: which exception they end in, and when it can be
`#AC(0)` (spec/20_memory.md, spec/60_exceptions.md). -/

namespace Sys2Proof.Machine

/-! ## Bytes without a translation -/

/-- Settles O46: the alignment is tested before the operand is translated. -/
theorem legacyMisaligned : Obligations.LegacyMisaligned := by
  intro p reg o s hr ad hmis
  have hsrc : legacySource s p (.mem o) (instrLength (.subps p reg (.mem o))) = raise .gp s := if_pos hmis
  simp only [exec, execSubps]
  rw [enter_of_ready hr, hsrc]
  rfl

/-- Settles O47: every byte passes the segment checks, so the exception is that of a page. -/
theorem pageFaultReported : Obligations.PageFaultReported := by
  intro i s seg off n hat lin hseg hpage
  obtain ⟨k, hk, hpage⟩ := hpage
  have hbyte : ∀ k ∈ accessedOf i s, byteFault s .read seg (offsetOf i s off k) = pageFault s .read (lin k) :=
    fun k hk => byteFault_of_inSegment (hseg k hk)
  obtain ⟨k, hk, f, hf, hexec⟩ := exec_of_byteFault hat ⟨k, hk, by rwa [hbyte k hk]⟩
  rw [hbyte k hk] at hf
  obtain ⟨r, code, hr, hwhy, rfl, hpf⟩ := pageFault_of_ne_none (Option.ne_none_iff_exists'.2 ⟨f, hf⟩)
  obtain ⟨h0, h1, h2, h3, h4, h5⟩ := pageCode_bits s .read r.present (r.present && r.reserved)
  obtain rfl : f = .pf (lin k) _ := Option.some.inj (hf.symm.trans hpf)
  exact ⟨k, hk, r, _, hr, hwhy, h0, h1, h2, h3, h4, h5, hexec⟩

/-- A byte outside its segment has the exception of the segment: `#SS(0)` through a usable SS, else `#GP(0)`. -/
theorem byteFault_of_not_inSegment {s : State} {acc : Access} {seg : SegName} {off : Qword}
    (h : ¬ InSegment s seg off) : byteFault s acc seg off =
      some (if seg = .ss ∧ (s.mode = .mode64 ∨ (s.seg seg).usable = true) then .ss else .gp) := by
  have hof : segFaultOf seg = if seg = .ss then .ss else .gp := by cases seg <;> rfl
  have hseg : segFault s seg off =
      some (if seg = .ss ∧ (s.mode = .mode64 ∨ (s.seg seg).usable = true) then .ss else .gp) := by
    unfold InSegment at h
    cases hm : s.mode with
    | mode64 =>
      have hcanon : canonical (linear s seg off) = false := by simpa [hm] using h
      simp [segFault, hm, hcanon, hof]
    | protected32 | realAddress =>
      cases hu : (s.seg seg).usable with
      | false => simp [segFault, hm, hu]
      | true =>
        have hlimit : (s.seg seg).limit.setWidth 64 < off := by simpa [hm, hu] using h
        simp [segFault, hm, hu, hlimit, hof]
  simp [byteFault, hseg]

/-- Settles O48: a byte in its segment has no fault, so the exception is that of the segment. -/
theorem nonCanonical : Obligations.NonCanonical := by
  intro i s seg off n hat hout hin
  obtain ⟨k, hk, hout⟩ := hout
  obtain ⟨k, hk, f, hf, hexec⟩ := exec_of_byteFault hat ⟨k, hk, by simp [byteFault_of_not_inSegment hout]⟩
  have hout : ¬ InSegment s seg (offsetOf i s off k) := by
    intro hseg
    rw [byteFault_of_inSegment hseg, hin k hk hseg] at hf
    cases hf
  rw [byteFault_of_not_inSegment hout] at hf
  obtain rfl := Option.some.inj hf
  rw [hexec]
  split_ifs <;> rfl

/-- An EVEX form with a byte of its operand that has no translation raises the exception of such a byte. -/
theorem exec_evexInstr_of_byteFault {vl : VLen} {p : List Pfx} {e : Evex} {bc : Bool} {reg : BitVec 3} {o : MemOp}
    {s : State} (hr : Ready (udOf (evexInstr vl p e bc reg (.mem o)) s) s) :
    let i := evexInstr vl p e bc reg (.mem o)
    let ad := memAddr s p e.x e.b (evexScale vl bc) (instrLength i) o
    let err := fun k => byteFault s .read ad.1 (byteOffset s (addrSize s.mode p) ad.2 k)
    (∃ k ∈ evexBytes s e.aaa bc vl, err k ≠ none) →
      ∃ k ∈ evexBytes s e.aaa bc vl, ∃ f, err k = some f ∧ exec i s = raiseByte f s := by
  intro i ad err hfault
  have hpfx : prefixesOf (evexInstr vl p e bc reg (.mem o)) = p := by cases vl <;> rfl
  have key := exec_of_byteFault (readsAt_evexInstr hr)
  simp only [accessedOf_evexInstr, offsetOf, hpfx] at key
  exact key hfault

/-- Settles O49: the byte is among those accessed, and the exception is that of one of them. -/
theorem activeByteFaults : Obligations.ActiveByteFaults := by
  intro vl p e reg o s
  constructor
  · rintro i ad err hr ⟨k, hk, ha, herr⟩
    obtain ⟨k, hk, hf⟩ := exec_evexInstr_of_byteFault (bc := false) hr ⟨k, mem_fullBytes.2 ⟨hk, fun _ => ha⟩, herr⟩
    obtain ⟨hlt, hact⟩ := mem_fullBytes.1 hk
    exact ⟨k, hlt, hact, hf⟩
  · rintro i ad err hr hneed ⟨k, hk, herr⟩
    have hbytes : ∀ k, k ∈ evexBytes s e.aaa true vl ↔ k < 4 := fun k => by
      simp [evexBytes, broadcastBytes_of_needed hneed]
    obtain ⟨k, hk, hf⟩ := exec_evexInstr_of_byteFault (bc := true) hr ⟨k, (hbytes k).2 hk, herr⟩
    exact ⟨k, (hbytes k).1 hk, hf⟩

/-! ## When `#AC(0)` is raised -/

theorem raiseByte_ne_ac {α : Type} (f : ByteFault) (s a : State) : raiseByte (α := α) f s ≠ .fault (.ac a) := by
  cases f <;> simp [raiseByte, raise]

/-- A read ends in `#AC(0)` only where it may trap for its alignment. -/
theorem misaligned_of_memRead_eq_ac {s : State} {seg : SegName} {a : AddrSize} {off : Qword} {n : Nat}
    {ks : List Nat} {bc : Bool} {t : State} (h : memRead s seg a off n ks bc = .fault (.ac t)) :
    Misaligned s seg off n := by
  rcases andThen_eq_fault.1 h with h | ⟨ps, -, h⟩
  · unfold translate at h
    split at h
    · cases h
    · exact absurd h (raiseByte_ne_ac _ _ _)
  · split_ifs at h with htrap
    simp only [Bool.and_eq_true] at htrap
    exact mayTrapAlign_iff.1 htrap.1.2

/-- Numeric conditions do not end a step in `#AC(0)`. -/
theorem deliverFp_ne_ac (s : State) (F : FpFlags) (t : State) : deliverFp s F ≠ .fault (.ac t) := by
  intro h
  by_cases hm : AllMasked s F
  · rw [deliverFp_eq_next.2 ⟨hm, rfl⟩] at h
    cases h
  · obtain ⟨G, -, -, hG⟩ := deliverFp_of_unmasked hm
    rw [hG] at h
    split_ifs at h <;> cases h

/-- A form ends in `#AC(0)` only where the read of its second source does. -/
theorem source_eq_ac {ud : Bool} {s t : State} {src : Host.Outcome Loaded Fault Refusal} {F : Loaded → FpFlags}
    {go : Loaded → Dword → State}
    (h : enter ud s (andThen src fun l => andThen (deliverFp s (F l)) fun mx => .next (go l mx)) = .fault (.ac t)) :
    src = .fault (.ac t) := by
  rcases enter_eq_fault h with ⟨-, h⟩ | ⟨-, h⟩ | ⟨-, h⟩
  · cases h
  · cases h
  · rcases andThen_eq_fault.1 h with h | ⟨l, -, h⟩
    · exact h
    · rcases andThen_eq_fault.1 h with h | ⟨mx, -, h⟩
      · exact absurd h (deliverFp_ne_ac _ _ _)
      · cases h

/-- The load of a full-width operand ends in `#AC(0)` only where it is misaligned. -/
theorem misaligned_of_loadFull_eq_ac {s t : State} {p : List Pfx} {ad : SegName × Qword} {vl : VLen}
    (h : loadFull s p ad vl = .fault (.ac t)) : Misaligned s ad.1 ad.2 (vlBytes vl) := by
  rcases andThen_eq_fault.1 h with h | ⟨_, -, h⟩
  · exact misaligned_of_memRead_eq_ac h
  · cases h

/-- The legacy form does not end in `#AC(0)`: a misaligned operand of it is `#GP(0)`. -/
theorem legacySource_ne_ac (s t : State) (p : List Pfx) (rm : Rm) (ilen : Nat) :
    legacySource s p rm ilen ≠ .fault (.ac t) := by
  intro h
  cases rm with
  | reg n => cases h
  | mem o =>
    simp only [legacySource] at h
    split_ifs at h with hmis
    · cases h
    · obtain ⟨-, -, -, -, hmis'⟩ := misaligned_of_loadFull_eq_ac h
      exact hmis hmis'

theorem misaligned_of_vexSource_eq_ac {s t : State} {p : List Pfx} {x b : Bool} {vl : VLen} {rm : Rm} {ilen : Nat}
    (h : vexSource s p x b vl rm ilen = .fault (.ac t)) :
    ∃ o, rm = .mem o ∧ Misaligned s (memAddr s p x b 1 ilen o).1 (memAddr s p x b 1 ilen o).2 (vlBytes vl) := by
  cases rm with
  | reg n => cases h
  | mem o => exact ⟨o, rfl, misaligned_of_loadFull_eq_ac h⟩

theorem misaligned_of_evexSource_eq_ac {s t : State} {p : List Pfx} {e : Evex} {bc : Bool} {vl : VLen} {rm : Rm}
    {ilen : Nat} (h : evexSource s p e bc vl rm ilen = .fault (.ac t)) :
    ∃ o, rm = .mem o ∧ Misaligned s (memAddr s p e.x e.b (evexScale vl bc) ilen o).1
      (memAddr s p e.x e.b (evexScale vl bc) ilen o).2 (evexScale vl bc) := by
  cases rm with
  | reg n => cases h
  | mem o =>
    rw [evexSource_mem] at h
    rcases andThen_eq_fault.1 h with h | ⟨_, -, h⟩
    · exact ⟨o, rfl, misaligned_of_memRead_eq_ac h⟩
    · cases h

/-- Only a VEX or EVEX form ends in `#AC(0)`, and only for a misaligned memory operand. -/
theorem misaligned_of_exec_eq_ac {i : Instr} {s t : State} (h : exec i s = .fault (.ac t)) :
    (∀ p reg rm, i ≠ .subps p reg rm) ∧ ∃ seg off n, operandOf i s = some (seg, off, n) ∧ Misaligned s seg off n := by
  cases i with
  | subps p reg rm => exact absurd (source_eq_ac h) (legacySource_ne_ac _ _ _ _ _)
  | vsubps128c5 p v reg rm | vsubps128c4 p v reg rm | vsubps256c5 p v reg rm | vsubps256c4 p v reg rm =>
    obtain ⟨o, rfl, hmis⟩ := misaligned_of_vexSource_eq_ac (source_eq_ac h)
    exact ⟨fun _ _ _ => nofun, _, _, _, rfl, hmis⟩
  | vsubpsEvex128 p e bc reg rm | vsubpsEvex256 p e bc reg rm | vsubpsEvex512 p e bc reg rm =>
    obtain ⟨o, rfl, hmis⟩ := misaligned_of_evexSource_eq_ac (source_eq_ac h)
    exact ⟨fun _ _ _ => nofun, _, _, _, rfl, hmis⟩
  | vsubpsEvex512er p e rc reg n =>
    rcases enter_eq_fault h with ⟨-, h⟩ | ⟨-, h⟩ | ⟨-, h⟩ <;> cases h

/-- Settles O50: `#AC(0)` shows that every one of its conditions holds. -/
theorem alignmentCheckOnlyWhen : Obligations.AlignmentCheckOnlyWhen := by
  intro i s hwhen t h
  obtain ⟨hform, seg, off, n, hop, hac, ham, hflag, hcpl, hmis⟩ := misaligned_of_exec_eq_ac h
  rcases hwhen with h | h | h | h | ⟨p, reg, rm, rfl⟩ | h
  · exact Bool.false_ne_true (h.symm.trans hac)
  · exact Bool.false_ne_true (h.symm.trans ham)
  · exact Bool.false_ne_true (h.symm.trans hflag)
  · exact h hcpl
  · exact hform p reg rm rfl
  · exact hmis (h seg off n hop)

end Sys2Proof.Machine
end

section
/-! SUPPORT. The address of a memory operand: arithmetic modulo the address size, segment overrides, and effective and
linear addresses (spec/20_memory.md rules R52, R54). -/

namespace Sys2Proof.Machine

/-! ## Arithmetic modulo the address size -/

theorem truncTo_toNat (a : AddrSize) (x : Qword) : (truncTo a x).toNat = x.toNat % 2 ^ a.bits := by
  cases a <;> simp only [truncTo, AddrSize.bits, BitVec.toNat_setWidth] <;> omega

/-- Two addresses have the same low `A` bits when they are congruent modulo 2^A. -/
theorem truncTo_eq_iff {a : AddrSize} {x y : Qword} :
    truncTo a x = truncTo a y ↔ x.toNat ≡ y.toNat [MOD 2 ^ a.bits] := by
  rw [← BitVec.toNat_inj, truncTo_toNat, truncTo_toNat]
  rfl

/-- What is computed modulo 2^64 is computed modulo 2^A. -/
theorem mod64_modEq (a : AddrSize) (n : Nat) : n % 2 ^ 64 ≡ n [MOD 2 ^ a.bits] :=
  Nat.mod_mod_of_dvd n (pow_dvd_pow 2 (by cases a <;> decide))

theorem truncTo_add_congr {a : AddrSize} {x x' y y' : Qword} (hx : truncTo a x = truncTo a x')
    (hy : truncTo a y = truncTo a y') : truncTo a (x + y) = truncTo a (x' + y') := by
  rw [truncTo_eq_iff] at hx hy ⊢
  rw [BitVec.toNat_add, BitVec.toNat_add]
  exact (mod64_modEq a _).trans ((hx.add hy).trans (mod64_modEq a _).symm)

theorem truncTo_mul_congr {a : AddrSize} {x x' : Qword} (hx : truncTo a x = truncTo a x') (y : Qword) :
    truncTo a (x * y) = truncTo a (x' * y) := by
  rw [truncTo_eq_iff] at hx ⊢
  rw [BitVec.toNat_mul, BitVec.toNat_mul]
  exact (mod64_modEq a _).trans ((hx.mul_right _).trans (mod64_modEq a _).symm)

theorem truncTo_addrReg (s : State) (a : AddrSize) (n : BitVec 4) :
    truncTo a (addrReg s a n) = truncTo a (s.readGpr n) := by
  rw [addrReg, truncTo_eq_iff, truncTo_toNat]
  exact Nat.mod_modEq _ _

/-- The scaled index of a SIB byte, before it is cut to the address size (30_encoding.md rule R92). -/
def scaledIndex (s : State) (x : Bool) (sib : Sib) : Qword :=
  if regNum s.mode x sib.index = 4#4 then 0#64
  else s.readGpr (regNum s.mode x sib.index) * BitVec.ofNat 64 (2 ^ sib.scale.toNat)

theorem truncTo_indexTerm (s : State) (a : AddrSize) (x : Bool) (sib : Sib) :
    truncTo a (indexTerm s a x sib) = truncTo a (scaledIndex s x sib) := by
  have hscale : 1#64 <<< sib.scale.toNat = BitVec.ofNat 64 (2 ^ sib.scale.toNat) :=
    BitVec.eq_of_toNat_eq (by simp [Nat.shiftLeft_eq])
  unfold indexTerm scaledIndex
  rw [hscale]
  split_ifs
  · rfl
  · exact truncTo_mul_congr (truncTo_addrReg ..) _

/-! ## Segment overrides -/

/-- The segment overrides that count in a mode are those of `overridePfxs`. -/
theorem overrideOf_eq_some {m : Mode} {g : Pfx} {seg : SegName} :
    overrideOf m g = some seg ↔ (g, seg) ∈ overridePfxs m := by
  by_cases hm : m = .mode64 <;> cases g <;> simp [overrideOf, overridePfxs, hm, eq_comm]

theorem overrideOf_eq_none {m : Mode} {p : List Pfx} (h : ∀ g ∈ overridePfxs m, g.1 ∉ p) :
    ∀ g ∈ p, overrideOf m g = none := by
  intro g hg
  by_contra hne
  obtain ⟨seg, hseg⟩ := Option.ne_none_iff_exists'.1 hne
  exact h (g, seg) (overrideOf_eq_some.1 hseg) hg

/-- The override in force is that of the last one that counts. -/
theorem segOverride_of_overriddenBy {m : Mode} {p : List Pfx} {sel : Option SegName} (h : OverriddenBy m p sel) :
    segOverride m p = sel := by
  unfold segOverride
  cases sel with
  | none => rw [List.filterMap_eq_nil_iff.2 (overrideOf_eq_none h), List.getLast?_nil]
  | some seg =>
    obtain ⟨before, after, g, hg, rfl, hafter⟩ := h
    rw [List.filterMap_append, List.filterMap_cons_some (overrideOf_eq_some.2 hg),
      List.filterMap_eq_nil_iff.2 (overrideOf_eq_none hafter), List.getLast?_concat]

/-! ## Effective addresses of 32-bit and 64-bit addressing -/

/-- The address size of 64-bit mode, and of 32-bit mode without 67h, is 32 or 64. -/
abbrev Wide (s : State) (p : List Pfx) : Prop := s.mode = .mode64 ∨ (s.mode = .protected32 ∧ .addrSize ∉ p)

theorem addrSize_of_wide {s : State} {p : List Pfx} (h : Wide s p) :
    addrSize s.mode p = if s.mode = .mode64 ∧ .addrSize ∉ p then .a64 else .a32 := by
  by_cases hp : Pfx.addrSize ∈ p <;> rcases h with h | ⟨h, h'⟩ <;> simp_all [addrSize]

theorem truncTo_of_wide {s : State} {p : List Pfx} (h : Wide s p) (v : Qword) :
    truncTo (addrSize s.mode p) v = if s.mode = .mode64 ∧ .addrSize ∉ p then v else (v.setWidth 32).setWidth 64 := by
  rw [addrSize_of_wide h]
  split_ifs <;> rfl

/-- The default segment of a base register: SS for number 4 or 5, else DS (20_memory.md rule R52). -/
def baseSegment (n : BitVec 4) : SegName := if n = 4#4 ∨ n = 5#4 then .ss else .ds

theorem baseUsesSs_segment (n : BitVec 4) : (if baseUsesSs n then SegName.ss else .ds) = baseSegment n := by
  simp [baseUsesSs, baseSegment]

section
variable {s : State} {p : List Pfx} {sel : Option SegName}

/-- A memory operand of 32-bit or 64-bit addressing: its segment, and the sum cut to the address size. -/
theorem memAddr_of_wide (hw : Wide s p) (hsel : OverriddenBy s.mode p sel) (x b : Bool) (n ilen : Nat) (o : MemOp) :
    memAddr s p x b n ilen o =
      (sel.getD (if (sum3264 s (addrSize s.mode p) x b (nextPc s ilen) o).2 then .ss else .ds),
        truncTo (addrSize s.mode p)
          ((sum3264 s (addrSize s.mode p) x b (nextPc s ilen) o).1 + dispValue n o.disp)) := by
  have ha : addrSize s.mode p ≠ .a16 := by
    rw [addrSize_of_wide hw]
    split_ifs <;> decide
  simp [memAddr, ha, segOverride_of_overriddenBy hsel]

/-- A displacement alone: relative to the next instruction in 64-bit mode. -/
theorem memAddr_disp (hw : Wide s p) (hsel : OverriddenBy s.mode p sel) (x b : Bool) (n ilen : Nat) (disp : Disp) :
    memAddr s p x b n ilen ⟨0b00#2, 0b101#3, none, disp⟩ =
      (sel.getD .ds, truncTo (addrSize s.mode p)
        ((if s.mode = .mode64 then s.pc + BitVec.ofNat 64 ilen else 0#64) + dispValue n disp)) := by
  rw [memAddr_of_wide hw hsel]
  rcases hw with hm | ⟨hm, -⟩ <;> simp [sum3264, nextPc, hm]

/-- A base register and a displacement. -/
theorem memAddr_base (hw : Wide s p) (hsel : OverriddenBy s.mode p sel) (x b : Bool) (n ilen : Nat) {mod : BitVec 2}
    {rm : BitVec 3} (h : ¬ (rm = 0b101#3 ∧ mod = 0b00#2)) (disp : Disp) :
    memAddr s p x b n ilen ⟨mod, rm, none, disp⟩ =
      (sel.getD (baseSegment (regNum s.mode b rm)),
        truncTo (addrSize s.mode p) (s.readGpr (regNum s.mode b rm) + dispValue n disp)) := by
  rw [memAddr_of_wide hw hsel, sum3264]
  simp only [if_neg h, baseUsesSs_segment]
  rw [truncTo_add_congr (truncTo_addrReg ..) rfl]

/-- An index and a displacement. -/
theorem memAddr_index (hw : Wide s p) (hsel : OverriddenBy s.mode p sel) (x b : Bool) (n ilen : Nat) (rm : BitVec 3)
    {sib : Sib} (h : sib.base = 0b101#3) (disp : Disp) :
    memAddr s p x b n ilen ⟨0b00#2, rm, some sib, disp⟩ =
      (sel.getD .ds, truncTo (addrSize s.mode p) (scaledIndex s x sib + dispValue n disp)) := by
  rw [memAddr_of_wide hw hsel, sum3264]
  simp only [h, and_self, if_true, Bool.false_eq_true, if_false]
  rw [truncTo_add_congr (truncTo_indexTerm ..) rfl]

/-- A base register, an index and a displacement. -/
theorem memAddr_base_index (hw : Wide s p) (hsel : OverriddenBy s.mode p sel) (x b : Bool) (n ilen : Nat)
    {mod : BitVec 2} (rm : BitVec 3) {sib : Sib} (h : ¬ (sib.base = 0b101#3 ∧ mod = 0b00#2)) (disp : Disp) :
    memAddr s p x b n ilen ⟨mod, rm, some sib, disp⟩ =
      (sel.getD (baseSegment (regNum s.mode b sib.base)),
        truncTo (addrSize s.mode p)
          (s.readGpr (regNum s.mode b sib.base) + scaledIndex s x sib + dispValue n disp)) := by
  rw [memAddr_of_wide hw hsel, sum3264]
  simp only [if_neg h, baseUsesSs_segment]
  rw [truncTo_add_congr (truncTo_add_congr (truncTo_addrReg ..) (truncTo_indexTerm ..)) rfl]

end

/-- Settles O55: the first part by the four kinds of operand, the second by the modes. -/
theorem effectiveAddress : Obligations.EffectiveAddress := by
  refine ⟨fun s p sel x b n ilen d8 d32 rm sib hw hsel => ?_, fun s seg off => ⟨fun hm => ?_, fun hm => ?_⟩⟩
  · simp only [← truncTo_of_wide hw]
    refine ⟨memAddr_disp hw hsel .., fun _ => ⟨fun h => ?_, ?_, ?_⟩, fun h => memAddr_index hw hsel _ _ _ _ _ h _,
      fun h => ?_, ?_, ?_⟩
    · rw [memAddr_base hw hsel _ _ _ _ (by simp [h])]
      simp [dispValue, baseSegment]
    · exact memAddr_base hw hsel _ _ _ _ (by simp) _
    · exact memAddr_base hw hsel _ _ _ _ (by simp) _
    · rw [memAddr_base_index hw hsel _ _ _ _ _ (by simp [h])]
      simp [dispValue, baseSegment, scaledIndex]
    · exact memAddr_base_index hw hsel _ _ _ _ _ (by simp) _
    · exact memAddr_base_index hw hsel _ _ _ _ _ (by simp) _
  · simp only [linear, hm, true_and]
    cases seg <;> simp
  · simp only [linear, hm]

end Sys2Proof.Machine
end

section
/-! SUPPORT. What the decoder answers, an instruction or not, and the statements about encodings
(spec/30_encoding.md). -/

namespace Sys2Proof

open Sys2Proof.Machine

/-! ## What is decoded is well shaped -/

/-- The byte after C4h, C5h or 62h begins VEX or EVEX in 64-bit mode, and elsewhere where its bits 7:6 are 11
(30_encoding.md rules R98(b), R105(b)). -/
theorem isVexByte_iff {m : Mode} {b : Byte} : isVexByte m b = true ↔ m = .mode64 ∨ b.extractLsb' 6 2 = 3#2 := by
  simp [isVexByte]

/-- Bits 7:6 are 11 where both are 1. -/
theorem stored_bits_of_top {b : Byte} (h : b.extractLsb' 6 2 = 3#2) : b.getLsbD 7 = true ∧ b.getLsbD 6 = true := by
  revert b
  decide

/-- The top bit of `vvvv` is stored inverted in bit 6. -/
theorem stored_vvvv_top (b : Byte) : (~~~(b.extractLsb' 3 4)).getLsbD 3 = !b.getLsbD 6 := by
  revert b
  decide

theorem wfVex_vex2Of {m : Mode} {b : Byte} (h : isVexByte m b = true) :
    wfVex m (vex2Of b).r false (vex2Of b).vvvv = true := by
  rcases isVexByte_iff.1 h with rfl | h
  · rfl
  · obtain ⟨h7, h6⟩ := stored_bits_of_top h
    simp only [wfVex, vex2Of, stored_vvvv_top, h7, h6, Bool.not_true, Bool.not_false, Bool.and_self, Bool.or_true]

theorem wfVex_vex3Of {m : Mode} {b c : Byte} (h : isVexByte m b = true) (hc : ¬ (m ≠ .mode64 ∧ c.getLsbD 6 = false)) :
    wfVex m (vex3Of b c).r (vex3Of b c).x (vex3Of b c).vvvv = true := by
  by_cases hm : m = .mode64
  · subst hm
    rfl
  · obtain ⟨h7, h6⟩ := stored_bits_of_top ((isVexByte_iff.1 h).resolve_left hm)
    have hc : c.getLsbD 6 = true := by simpa [hm] using hc
    simp only [wfVex, vex3Of, stored_vvvv_top, h7, h6, hc, Bool.not_true, Bool.not_false, Bool.and_self, Bool.or_true]

theorem wfEvex_evexOf {m : Mode} {p0 p1 p2 : Byte} (h : isVexByte m p0 = true)
    (hc : ¬ (m ≠ .mode64 ∧ (p0.getLsbD 5 && p0.getLsbD 4 && p1.getLsbD 6 && p2.getLsbD 3) = false)) :
    wfEvex m (evexOf p0 p1 p2) = true := by
  by_cases hm : m = .mode64
  · subst hm
    rfl
  · obtain ⟨h7, h6⟩ := stored_bits_of_top ((isVexByte_iff.1 h).resolve_left hm)
    simp only [hm, ne_eq, not_false_eq_true, true_and, Bool.not_eq_false, Bool.and_eq_true] at hc
    obtain ⟨⟨⟨h5, h4⟩, hv⟩, hvp⟩ := hc
    simp only [wfEvex, evexOf, stored_vvvv_top, h7, h6, h5, h4, hv, hvp, Bool.not_true, Bool.not_false, Bool.and_self,
      Bool.or_true]

/-- An instruction found once ModRM is read has a well-formed operand. -/
theorem wfRm_of_withModRm {a : AddrSize} {bs rest : List Byte} {mk : BitVec 3 → Rm → List Byte → Decoded} {i : Instr}
    (h : withModRm a bs mk = .instr i rest) : ∃ reg rm rest', wfRm a rm = true ∧ mk reg rm rest' = .instr i rest := by
  obtain ⟨⟨reg, rm, rest'⟩, hr⟩ : ∃ x, readModRm a bs = some x := by
    by_contra hnone
    simp only [not_exists, ← Option.eq_none_iff_forall_ne_some] at hnone
    simp [withModRm, hnone] at h
  exact ⟨reg, rm, rest', (encodeRm_readModRm hr).2, by simpa [withModRm, hr] using h⟩

section
variable {m : Mode} {p : List Pfx} {bs rest : List Byte} {i : Instr}

/-- Each of the four decoders takes only well-shaped instructions. -/
theorem decodeLegacy_wellShaped (hp : p.all (wfPfx m) = true) (h : decodeLegacy m p bs = .instr i rest) :
    wellShaped m i = true := by
  match bs with
  | [] => simp [decodeLegacy] at h
  | op :: bs =>
    simp only [decodeLegacy] at h
    split_ifs at h with hop hman
    obtain ⟨reg, rm, _, hrm, hi⟩ := wfRm_of_withModRm h
    cases hi
    simp [wellShaped, hp, hman, hrm]

theorem decodeVex2_wellShaped (hp : p.all (wfPfx m) = true) (h : decodeVex2 m p bs = .instr i rest) :
    wellShaped m i = true := by
  match bs with
  | [] => simp [decodeVex2] at h
  | [b] =>
    simp only [decodeVex2] at h
    split_ifs at h
  | b :: op :: bs =>
    simp only [decodeVex2] at h
    split_ifs at h with hb hop hl
    · exact absurd h (notOurs_ne_instr p i rest)
    all_goals
      have hv := wfVex_vex2Of (by simpa using hb)
      obtain ⟨reg, rm, _, hrm, hi⟩ := wfRm_of_withModRm h
      cases hi
      simp [wellShaped, hp, hv, hrm]

theorem decodeVex3_wellShaped (hp : p.all (wfPfx m) = true) (h : decodeVex3 m p bs = .instr i rest) :
    wellShaped m i = true := by
  match bs with
  | [] => simp [decodeVex3] at h
  | [b] | [b, c] =>
    simp only [decodeVex3] at h
    split_ifs at h
  | b :: c :: op :: bs =>
    simp only [decodeVex3] at h
    split_ifs at h with hb hres hop hunc hl
    · exact absurd h (notOurs_ne_instr p i rest)
    · exact absurd h (uncertainBits_ne_instr m i rest)
    all_goals
      have hv := wfVex_vex3Of (by simpa using hb) hunc
      obtain ⟨reg, rm, _, hrm, hi⟩ := wfRm_of_withModRm h
      cases hi
      simp [wellShaped, hp, hv, hrm]

/-- Every row chosen for EVEX bytes is well shaped: a register operand with `b = 1` is the row of embedded rounding. -/
theorem evexRow_wellShaped {p0 p1 p2 : Byte} {reg : BitVec 3} {rm : Rm} (hp : p.all (wfPfx m) = true)
    (he : wfEvex m (evexOf p0 p1 p2) = true) (hrm : wfRm (addrSize m p) rm = true)
    (h : evexRow p p0 p1 p2 reg rm bs = .instr i rest) : wellShaped m i = true := by
  cases hbc : wfBroadcast (p2.getLsbD 4) rm with
  | true =>
    rw [evexRow_of_broadcast hbc] at h
    split_ifs at h <;> cases h <;> simp only [wellShaped, hp, he, hbc, hrm, Bool.and_self]
  | false =>
    cases rm with
    | reg n =>
      have hb : p2.getLsbD 4 = true := by simpa [wfBroadcast] using hbc
      simp only [evexRow, hb] at h
      cases h
      simp only [wellShaped, hp, he, Bool.and_self]
    | mem o => cases hbc

theorem decodeEvex_wellShaped (hp : p.all (wfPfx m) = true) (h : decodeEvex m p bs = .instr i rest) :
    wellShaped m i = true := by
  match bs with
  | [] => simp [decodeEvex] at h
  | [p0] | [p0, p1] | [p0, p1, p2] =>
    simp only [decodeEvex] at h
    split_ifs at h
  | p0 :: p1 :: p2 :: op :: bs =>
    simp only [decodeEvex] at h
    split_ifs at h with hb hop hres hunc hbits
    · exact absurd h (notOurs_ne_instr p i rest)
    · exact absurd h (uncertainBits_ne_instr m i rest)
    · obtain ⟨_, _, _, -, hi⟩ := wfRm_of_withModRm h
      cases hi
    · obtain ⟨reg, rm, _, hrm, hi⟩ := wfRm_of_withModRm h
      exact evexRow_wellShaped hp (wfEvex_evexOf (by simpa using hb) hunc) hrm hi

/-- The decoder takes only well-shaped instructions (30_encoding.md rule R110). -/
theorem wellShaped_of_decode (h : decode m bs = .instr i rest) : wellShaped m i = true := by
  obtain ⟨-, hp⟩ := takePfx_exact m bs
  unfold decode at h
  cases hb : (takePfx m bs).2 with
  | nil => simp [hb] at h
  | cons b tail =>
    simp only [hb] at h
    split_ifs at h
    · exact decodeLegacy_wellShaped hp h
    · exact decodeVex2_wellShaped hp h
    · exact decodeVex3_wellShaped hp h
    · exact decodeEvex_wellShaped hp h

end

/-- Settles O1: the decoder reads back any length of encoding. -/
theorem decodeEncode : Obligations.DecodeEncode := by
  intro m i rest h
  simp only [wellFormed, Bool.and_eq_true] at h
  exact decode_encode_of_wellShaped h.1 rest

/-- Settles O2: each of the four decoders keeps the bytes and checks the fields that make the shape. -/
theorem decodeExact : Obligations.DecodeExact :=
  fun _ _ _ _ h => ⟨encode_of_decode h, wellShaped_of_decode h⟩

/-- Settles O5: the decoder is run on the four words. -/
theorem sampleWordsDecode : Obligations.SampleWordsDecode := by
  unfold Obligations.SampleWordsDecode
  decide

/-! ## Encodings that are refused or invalid -/

theorem hasMandatory_iff {p : List Pfx} : hasMandatory p = true ↔ .opSize ∈ p ∨ .repne ∈ p ∨ .rep ∈ p := by
  simp [hasMandatory, or_assoc]

theorem notOurs_of_allowed {p : List Pfx} (h : badVexPfx p = false) : notOurs p = .rejected .otherInstruction := by
  simp [notOurs, h]

/-- A fixed bit of P0 or P1 is wrong (30_encoding.md rule R105(c)). -/
theorem evexReserved_iff {p0 p1 : Byte} :
    evexReserved p0 p1 = true ↔ p0.extractLsb' 2 2 ≠ 0#2 ∨ p1.getLsbD 2 = false := by
  simp [evexReserved]

/-- P0[3:0] = 0001 is opcode map 1 with the fixed bits right. -/
theorem evex_map_of_low {p0 : Byte} (h : p0.extractLsb' 0 4 = 1#4) :
    p0.extractLsb' 0 2 = 1#2 ∧ p0.extractLsb' 2 2 = 0#2 := by
  revert p0
  decide

/-- Settles O6: each decoder tests the mandatory prefixes, or `pp`, before it reads ModRM. -/
theorem neighboursRefused : Obligations.NeighboursRefused := by
  refine ⟨fun m p rest hp hman => ?_, fun m p b rest hp hbad hb hpp => ?_, fun m p b c rest hp hbad hb hmap hpp => ?_,
    fun m p p0 p1 p2 rest hp hbad hb hlow hfix hpp => ?_, fun s r h => by simp [step, h]⟩ <;>
    simp only [List.append_assoc, List.cons_append, List.nil_append]
  · rw [(decode_after_prefixes hp _).1]
    simp [decodeLegacy, hasMandatory_iff.2 hman]
  · rw [(decode_after_prefixes hp _).2.1]
    simp [decodeVex2, isVexByte_iff.2 hb, hpp, notOurs_of_allowed hbad]
  · rw [(decode_after_prefixes hp _).2.2.1]
    simp [decodeVex3, isVexByte_iff.2 hb, hmap, reservedMap, hpp, notOurs_of_allowed hbad]
  · obtain ⟨hmap, hres⟩ := evex_map_of_low hlow
    rw [(decode_after_prefixes hp _).2.2.2]
    simp [decodeEvex, isVexByte_iff.2 hb, evexReserved, hres, hfix, hpp, notOurs_of_allowed hbad]

/-- L'L = 11 is invalid where it is no rounding mode (30_encoding.md rule R108(b)). -/
theorem evexRow_of_reserved_length {p : List Pfx} {p0 p1 p2 : Byte} {reg : BitVec 3} {rm : Rm} {rest : List Byte}
    (hll : p2.extractLsb' 5 2 = 3#2) (h : p2.getLsbD 4 = false ∨ ∃ o, rm = .mem o) :
    evexRow p p0 p1 p2 reg rm rest = .invalid := by
  have hbc : wfBroadcast (p2.getLsbD 4) rm = true := by
    rcases h with h | ⟨o, rfl⟩
    · rw [h]
      cases rm <;> rfl
    · rfl
  simp [evexRow_of_broadcast hbc, hll]

/-- An EVEX encoding of the opcode with a wrong fixed bit, `W = 1`, or L'L = 11 where it is no rounding mode is invalid
once its ModRM is read. -/
theorem decodeEvex_of_wrong_field {m : Mode} {p : List Pfx} {p0 p1 p2 : Byte} {reg : BitVec 3} {rm : Rm}
    {bs rest : List Byte}
    (hmode : m = .mode64 ∨ (p0.extractLsb' 6 2 = 3#2 ∧ p0.getLsbD 5 = true ∧ p0.getLsbD 4 = true ∧
      p1.getLsbD 6 = true ∧ p2.getLsbD 3 = true))
    (hmap : p0.extractLsb' 0 2 = 1#2) (hpp : p1.extractLsb' 0 2 = 0#2)
    (hread : readModRm (addrSize m p) bs = some (reg, rm, rest))
    (hwrong : p0.extractLsb' 2 2 ≠ 0#2 ∨ p1.getLsbD 2 = false ∨ p1.getLsbD 7 = true ∨
      (p2.extractLsb' 5 2 = 3#2 ∧ (p2.getLsbD 4 = false ∨ ∃ o, rm = .mem o))) :
    decodeEvex m p (p0 :: p1 :: p2 :: 0x5C#8 :: bs) = .invalid := by
  have hb : isVexByte m p0 = true := isVexByte_iff.2 (hmode.imp_right And.left)
  have hunc : ¬ (m ≠ .mode64 ∧ (p0.getLsbD 5 && p0.getLsbD 4 && p1.getLsbD 6 && p2.getLsbD 3) = false) := by
    rintro ⟨hm, hbits⟩
    obtain ⟨-, h5, h4, h6, h3⟩ := hmode.resolve_left hm
    rw [h5, h4, h6, h3] at hbits
    cases hbits
  have hrow : ¬ (evexReserved p0 p1 || p1.getLsbD 7) = true → evexRow p p0 p1 p2 reg rm rest = .invalid := by
    intro hok
    rw [Bool.or_eq_true, evexReserved_iff] at hok
    rcases hwrong with h | h | h | ⟨hll, h⟩
    · exact absurd (.inl (.inl h)) hok
    · exact absurd (.inl (.inr h)) hok
    · exact absurd (.inr h) hok
    · exact evexRow_of_reserved_length hll h
  simp only [decodeEvex, hb, hmap, hpp, hunc, withModRm, hread]
  simpa using hrow

/-- Outside 64-bit mode an uncertain bit is refused, or in real-address mode invalid. -/
theorem uncertainBits_of_ne_mode64 {m : Mode} (hm : m ≠ .mode64) :
    uncertainBits m = if m = .protected32 then .rejected .uncertain32 else .invalid := by
  cases m with
  | realAddress | protected32 => rfl
  | mode64 => exact absurd rfl hm

/-- An invalid encoding ends the step in `#UD`. -/
theorem step_of_invalid {s : State} (h : decode s.mode (fetch s).1 = .invalid) (hmx : mxReserved s.mxcsr = 0#16) :
    step s = .fault (.ud { s with faults := s.faults + 1 }) := by
  simp [step, h, raiseInvalid, enter, hmx, raise]

/-- Settles O7: each test of the decoder in turn, and of the EVEX row once ModRM is read. -/
theorem reservedEncodingsInvalid : Obligations.ReservedEncodingsInvalid := by
  refine ⟨fun m p p0 p1 p2 reg rm bs rest hp hmode hmap hpp hread hwrong => ?_,
    fun m p b c op rest hp hb h1 h2 h3 => ?_, fun m p b c rest hm hp hb hmap hpp hunc => ?_,
    fun m p p0 p1 p2 rest hm hp hb hmap hpp hunc => ?_, fun s => step_of_invalid⟩ <;>
    simp only [List.append_assoc, List.cons_append, List.nil_append]
  · rw [(decode_after_prefixes hp _).2.2.2]
    exact decodeEvex_of_wrong_field hmode hmap hpp hread hwrong
  · rw [(decode_after_prefixes hp _).2.2.1]
    simp [decodeVex3, isVexByte_iff.2 hb, reservedMap, h1, h2, h3]
  · rw [(decode_after_prefixes hp _).2.2.1]
    simp only [decodeVex3, isVexByte_iff.2 (.inr hb), hmap, hpp, hunc, uncertainBits_of_ne_mode64 hm]
    simp [reservedMap, hm]
  · have hbits : (p0.getLsbD 5 && p0.getLsbD 4 && p1.getLsbD 6 && p2.getLsbD 3) = false := by
      simpa only [Bool.and_eq_false_iff, or_assoc] using hunc
    rw [(decode_after_prefixes hp _).2.2.2]
    simp only [decodeEvex, isVexByte_iff.2 (.inr hb), hmap, hpp, hbits, uncertainBits_of_ne_mode64 hm]
    simp [hm]

/-! ## The length limit -/

/-- After 15 bytes the fetch stops for the length (30_encoding.md rule R80). -/
theorem fetch_of_maxLength {s : State} {bs : List Byte} (h : Holds s bs) (hlen : bs.length = maxLength) :
    fetch s = (bs, .tooLong) := by
  rw [fetch_of_holds h hlen.le, hlen, Nat.sub_self]
  simp [fetchFrom]

/-- Settles O8: of the 15 bytes fetched the decoder asks for more. -/
theorem lengthLimit : Obligations.LengthLimit := by
  intro s i hmode hi hlong h
  rw [← encode_length] at hlong
  have hf : fetch s = ((encode i).take 15, .tooLong) := fetch_of_maxLength h (List.length_take_of_le hlong.le)
  simp [step, hf, decode_take_encode hi hlong, raiseFetch, hmode, raise]

/-! ## Prefixes and register numbers -/

/-- A 3-bit field extended by one bit. -/
theorem regNum_toNat (m : Mode) (x : Bool) (n : BitVec 3) :
    (regNum m x n).toNat = 8 * (m == .mode64 && x).toNat + n.toNat := by
  revert x n
  cases m <;> decide

/-- A 3-bit field extended by two bits. -/
theorem regNum5_toNat (m : Mode) (y x : Bool) (n : BitVec 3) :
    (regNum5 m y x n).toNat = 16 * (m == .mode64 && y).toNat + 8 * (m == .mode64 && x).toNat + n.toNat := by
  revert y x n
  cases m <;> decide

theorem vvvvNum_toNat (m : Mode) (v : BitVec 4) :
    (vvvvNum m v).toNat = if m = .mode64 then v.toNat else v.toNat % 8 := by
  revert v
  cases m <;> decide

theorem vvvvNum5_toNat (m : Mode) (y : Bool) (v : BitVec 4) :
    (vvvvNum5 m y v).toNat = 16 * (m == .mode64 && y).toNat + (vvvvNum m v).toNat := by
  revert y v
  cases m <;> decide

/-- Without a REX byte in last place no extension bit is in force (30_encoding.md rule R86). -/
theorem rexOf_of_not_endsInRex {m : Mode} {p : List Pfx} (h : endsInRex p = false) :
    rexOf m p = (false, false, false) := by
  unfold endsInRex at h
  unfold rexOf
  split
  · next hlast => simp [hlast] at h
  · rfl

/-- Settles O9: each number by its fields, and REX by the last of the prefixes. -/
theorem registerNumbers : Obligations.RegisterNumbers := by
  refine ⟨fun x y n => ⟨?_, ?_⟩, fun y v => ⟨BitVec.eq_of_toNat_eq ?_, ?_⟩, fun x y n => ⟨?_, ?_⟩, fun y v => ⟨?_, ?_⟩,
    fun p w r x b => ⟨?_, ?_⟩, fun p h => rexOf_of_not_endsInRex h⟩
  all_goals simp [regNum_toNat, regNum5_toNat, vvvvNum_toNat, vvvvNum5_toNat, rexOf]

end Sys2Proof
end

section
/-! SUPPORT. What the fields of an encoding make of an execution: the VEX spellings, LOCK, and 16-bit
addressing (spec/30_encoding.md rules R94, R96, R97, R106). -/

namespace Sys2Proof.Machine

/-! ## LOCK -/

/-- LOCK is among the #UD conditions of every form (30_encoding.md rule R106). -/
theorem udOf_of_lock {i : Instr} (h : .lock ∈ prefixesOf i) (s : State) : udOf i s = true := by
  have hl : ∀ p : List Pfx, .lock ∈ p → udLegacy p s = true := fun p hp => by simp [udLegacy, hp]
  have hv : ∀ p : List Pfx, .lock ∈ p → udVex p s = true := fun p hp => by simp [udVex, badVexPfx, hp]
  have he : ∀ needsVl (p : List Pfx) e, .lock ∈ p → udEvex needsVl p e s = true := fun _ p _ hp => by
    simp [udEvex, badVexPfx, hp]
  cases i with
  | subps p reg rm => exact hl p h
  | vsubps128c5 p v reg rm | vsubps128c4 p v reg rm | vsubps256c5 p v reg rm | vsubps256c4 p v reg rm => exact hv p h
  | vsubpsEvex128 p e bc reg rm | vsubpsEvex256 p e bc reg rm | vsubpsEvex512 p e bc reg rm => exact he _ p e h
  | vsubpsEvex512er p e rc reg rm => exact he _ p e h

/-- Settles O43: #UD is the first check after the reserved bits of `MXCSR`. -/
theorem lockInvalid : Obligations.LockInvalid := by
  intro i s hmx h
  obtain ⟨body, hbody⟩ := exec_eq_enter i s
  simp [hbody, udOf_of_lock h, enter, hmx, raise]

/-! ## The VEX spellings -/

/-- Settles O24: a register source is had at once. -/
theorem vexRegister : Obligations.VexRegister := by
  intro p v w reg n s hok hr
  refine ⟨?_, ?_, ?_, ?_⟩
  all_goals exact SubtractsOrFaults.subtracts (vexStep_of_source hok (by decide) hr rfl)

/-- Only the address of a RIP-relative operand depends on the length of the instruction (30_encoding.md rule R92). -/
theorem memAddr_length_irrelevant {s : State} {o : MemOp} (h : s.mode = .mode64 → ¬ (o.mod = 0b00#2 ∧ o.rm = 0b101#3))
    (p : List Pfx) (x b : Bool) (n8 ilen ilen' : Nat) : memAddr s p x b n8 ilen o = memAddr s p x b n8 ilen' o := by
  have hsum : ∀ a rip rip', sum3264 s a x b rip o = sum3264 s a x b rip' o := by
    intro a rip rip'
    unfold sum3264
    split
    · rfl
    · split_ifs with hdisp hm
      · exact absurd hdisp.symm (h hm)
      · rfl
      · rfl
  simp only [memAddr, hsum _ (nextPc s ilen) (nextPc s ilen')]

theorem vexSource_length_irrelevant {s : State} {rm : Rm}
    (h : s.mode = .mode64 → ∀ o, rm = .mem o → ¬ (o.mod = 0b00#2 ∧ o.rm = 0b101#3)) (p : List Pfx) (x b : Bool)
    (vl : VLen) (ilen ilen' : Nat) : vexSource s p x b vl rm ilen = vexSource s p x b vl rm ilen' := by
  cases rm with
  | reg n => rfl
  | mem o =>
    simp only [vexSource]
    rw [memAddr_length_irrelevant (fun hm => h hm o rfl)]

/-- A change of length passes through a sequence to its last part. -/
theorem afterLength_andThen {α : Type} (s : State) (n : Nat) (o : Host.Outcome α Fault Refusal)
    (k : α → Host.Outcome State Fault Refusal) :
    afterLength s n (andThen o k) = andThen o fun a => afterLength s n (k a) := by
  cases o <;> rfl

theorem afterLength_enter (ud : Bool) (s : State) (n : Nat) (body : Host.Outcome State Fault Refusal) :
    afterLength s n (enter ud s body) = enter ud s (afterLength s n body) := by
  unfold enter
  split_ifs <;> rfl

/-- A VEX form of another length is the same but for the pc after it, RIP-relative operands apart. -/
theorem vexStep_of_length {s : State} {rm : Rm}
    (h : s.mode = .mode64 → ∀ o, rm = .mem o → ¬ (o.mod = 0b00#2 ∧ o.rm = 0b101#3)) (vl : VLen) (p : List Pfx)
    (r x b : Bool) (vvvv : BitVec 4) (reg : BitVec 3) (ilen ilen' : Nat) :
    vexStep vl p r x b vvvv reg rm ilen' s = afterLength s ilen' (vexStep vl p r x b vvvv reg rm ilen s) := by
  simp only [vexStep, afterLength_enter, afterLength_andThen, vexSource_length_irrelevant h p x b vl ilen ilen']
  rfl

/-- Settles O33: both spellings are one step, which reads the length for the pc alone. -/
theorem vexSpellingsAgree : Obligations.VexSpellingsAgree :=
  fun _ _ _ _ _ _ _ h => ⟨vexStep_of_length h .., vexStep_of_length h ..⟩

/-! ## Effective addresses of 16-bit addressing -/

/-- The register sums of 16-bit addressing and the default segments, by ModRM.rm (30_encoding.md rule R94). -/
def sums16 (s : State) : List (BitVec 16 × SegName) :=
  let r := fun k : BitVec 4 => (s.readGpr k).setWidth 16
  [(r 3#4 + r 6#4, .ds), (r 3#4 + r 7#4, .ds), (r 5#4 + r 6#4, .ss), (r 5#4 + r 7#4, .ss), (r 6#4, .ds),
    (r 7#4, .ds), (r 5#4, .ss), (r 3#4, .ds)]

theorem addrReg16_setWidth (s : State) (n : BitVec 4) :
    (addrReg s .a16 n).setWidth 16 = (s.readGpr n).setWidth 16 := by
  simp [addrReg, truncTo]

/-- The sum that `rm` names is the table's, but for the displacement alone of `mod = 00`, `rm = 110`. -/
theorem sum16_of_sums16 {s : State} {mod : BitVec 2} {rm : BitVec 3} {sum : BitVec 16} {seg : SegName}
    (hrow : (sums16 s)[rm.toNat]? = some (sum, seg)) (h : ¬ (mod = 0b00#2 ∧ rm = 0b110#3)) :
    (sum16 s mod rm).1.setWidth 16 = sum ∧ (if (sum16 s mod rm).2 then SegName.ss else .ds) = seg := by
  have hrm : rm = 0#3 ∨ rm = 1#3 ∨ rm = 2#3 ∨ rm = 3#3 ∨ rm = 4#3 ∨ rm = 5#3 ∨ rm = 6#3 ∨ rm = 7#3 := by
    clear hrow h
    revert rm
    decide
  rcases hrm with rfl | rfl | rfl | rfl | rfl | rfl | rfl | rfl <;>
    simp_all [sums16, sum16, BitVec.setWidth_add, addrReg16_setWidth]

theorem setWidth_signExtend {w u v : Nat} (d : BitVec w) (h : v ≤ u) :
    (d.signExtend u).setWidth v = d.signExtend v := by
  ext i hi
  have hiu : i < u := hi.trans_le h
  simp only [BitVec.getElem_setWidth, BitVec.getLsbD_signExtend, BitVec.getElem_signExtend, hiu, decide_true,
    Bool.true_and]
  split_ifs <;> simp_all

/-- A displacement of 16-bit addressing, modulo 2^16. -/
theorem dispValue_setWidth16 (n : Nat) (d8 : BitVec 8) (d16 : BitVec 16) :
    (dispValue n .none).setWidth 16 = 0#16 ∧
      (dispValue n (.d8 d8)).setWidth 16 = d8.signExtend 16 * BitVec.ofNat 16 n ∧
      (dispValue n (.d16 d16)).setWidth 16 = d16 := by
  refine ⟨rfl, ?_, ?_⟩
  · rw [dispValue, BitVec.setWidth_mul _ _ (by decide), setWidth_signExtend d8 (by decide),
      BitVec.setWidth_ofNat_of_le (by decide)]
  · rw [dispValue, setWidth_signExtend d16 (by decide), BitVec.signExtend_eq]

section
variable {s : State} {p : List Pfx} {sel : Option SegName}

/-- A memory operand of 16-bit addressing: its segment, and the sum modulo 2^16. -/
theorem memAddr_of_16 (hm : s.mode = .protected32) (hp : .addrSize ∈ p) (hsel : OverriddenBy s.mode p sel) (x b : Bool)
    (n ilen : Nat) (o : MemOp) :
    memAddr s p x b n ilen o =
      (sel.getD (if (sum16 s o.mod o.rm).2 then .ss else .ds),
        (((sum16 s o.mod o.rm).1.setWidth 16 + (dispValue n o.disp).setWidth 16).setWidth 64)) := by
  have ha : addrSize s.mode p = .a16 := by simp [addrSize, hm, hp]
  simp [memAddr, ha, segOverride_of_overriddenBy hsel, truncTo, BitVec.setWidth_add]

/-- A sum of registers and a displacement. -/
theorem memAddr16_sum (hm : s.mode = .protected32) (hp : .addrSize ∈ p) (hsel : OverriddenBy s.mode p sel)
    {mod : BitVec 2} {rm : BitVec 3} {sum : BitVec 16} {seg : SegName} (hrow : (sums16 s)[rm.toNat]? = some (sum, seg))
    (h : ¬ (mod = 0b00#2 ∧ rm = 0b110#3)) (x b : Bool) (n ilen : Nat) (disp : Disp) :
    memAddr s p x b n ilen ⟨mod, rm, none, disp⟩ =
      (sel.getD seg, (sum + (dispValue n disp).setWidth 16).setWidth 64) := by
  obtain ⟨hsum, hseg⟩ := sum16_of_sums16 hrow h
  rw [memAddr_of_16 hm hp hsel, hsum, hseg]

end

/-- Settles O56: the table's rows with each displacement, and the displacement alone. -/
theorem effectiveAddress16 : Obligations.EffectiveAddress16 := by
  intro s p sel x b n ilen d8 d16 hm hp hsel r at'
  obtain ⟨hnone, hd8, hd16⟩ := dispValue_setWidth16 n d8 d16
  refine ⟨fun rm sum seg hrow => ⟨fun hrm => ?_, ?_, ?_⟩, ?_⟩
  · simpa [hnone] using memAddr16_sum hm hp hsel hrow (fun h => hrm h.2) x b n ilen .none
  · simpa [hd8] using memAddr16_sum hm hp hsel hrow (by simp) x b n ilen (.d8 d8)
  · simpa [hd16] using memAddr16_sum hm hp hsel hrow (by simp) x b n ilen (.d16 d16)
  · simpa [hd16, sum16] using memAddr_of_16 hm hp hsel x b n ilen ⟨0b00#2, 0b110#3, none, .d16 d16⟩

end Sys2Proof.Machine
end

section
/-! SUPPORT. The legacy form once it has its source, and the bits of a destination above the result
(spec/40_subps_legacy_sse.md, spec/41_vsubps_vex.md rule R142, spec/42_vsubps_evex.md rule R156). -/

namespace Sys2Proof.Machine

/-! ## Results of the legacy form -/

/-- The legacy form that has its source subtracts, or ends in a numeric exception. -/
theorem execSubps_of_source {p : List Pfx} {reg : BitVec 3} {rm : Rm} {s : State} {second : Lanes}
    {evs : List ReadEvent} (hr : Ready (udLegacy p s) s)
    (hsrc : legacySource s p rm (instrLength (.subps p reg rm)) = .next ⟨second, evs⟩) :
    let d := low16 (regNum s.mode (rexOf s.mode p).1 reg)
    SubtractsOrFaults (execSubps p reg rm s) s d 4 (s.readZmm d) second (fun j => (s.readZmm d)[j]) evs
      (instrLength (.subps p reg rm)) := by
  intro d
  rw [execSubps, enter_of_ready hr, hsrc, andThen_next]
  refine deliver_ends (elements_signalled_mxSub s .v128 ..) (fun j => ?_) ..
  rw [replaceLow128_getElem, elements_getElem, laneOf_mxControl]
  by_cases hj : j.val < 4
  · simp [hj, vlLanes, d]
  · simp [hj, d]

/-- The second source of the legacy form is had from an aligned memory operand that can be read: an aligned operand
does not trap. -/
theorem legacySource_of_accessible {s : State} {p : List Pfx} {o : MemOp} {ilen : Nat} :
    let ad := memAddr s p (rexOf s.mode p).2.1 (rexOf s.mode p).2.2 1 ilen o
    let a := addrSize s.mode p
    let m := readOf s ad.1 a ad.2 (List.range 16) false
    (linear s ad.1 ad.2).toNat % 16 = 0 → Accessible s ad.1 a ad.2 (List.range 16) →
    legacySource s p (.mem o) ilen = .next ⟨Vector.ofFn fun j : Fin 16 => m.dword (4 * j.val), m.events⟩ := by
  intro ad a m hal hacc
  have hload := loadFull_of_accessible (vl := .v128) hacc (mayTrapAlign_of_aligned hal)
  exact (if_neg (not_not.2 hal)).trans hload

/-- Settles O22: a register source is had at once. -/
theorem subpsRegister : Obligations.SubpsRegister :=
  fun _ _ _ _ hr => (execSubps_of_source hr rfl).subtracts

/-- Settles O23: the source is had from an aligned operand that can be read. -/
theorem subpsMemory : Obligations.SubpsMemory := by
  intro p reg o s hr d a n ad m hal hacc
  exact (execSubps_of_source hr (legacySource_of_accessible hal hacc)).subtracts

/-! ## The bits above the result -/

/-- The legacy form leaves the elements above its result (40_subps_legacy_sse.md rule R131). -/
theorem execSubps_above {p : List Pfx} {reg : BitVec 3} {rm : Rm} {s t : State} (h : execSubps p reg rm s = .next t)
    {j : Fin 16} (hj : 4 ≤ j.val) :
    (t.readZmm (destOf (.subps p reg rm) s))[j] = (s.readZmm (destOf (.subps p reg rm) s))[j] := by
  obtain ⟨-, src, -, -, rfl⟩ := execSubps_eq_next.1 h
  rw [complete_readZmm_same, replaceLow128_getElem, if_neg hj.not_gt]

/-- A result of `VL` bits extended to `MAX_VL` is zero from element `KL` on (00_scope.md rule R14). -/
theorem zextMaxVl_above (c : Config) {vl : VLen} (r : Lanes) {j : Fin 16} (hj : vlLanes vl ≤ j.val) :
    (zextMaxVl c vl r)[j] = 0#32 := by
  rw [zextMaxVl_getElem, if_neg fun h => hj.not_gt h.1]

/-- A VEX form zeroes the elements above its result (41_vsubps_vex.md rule R142). -/
theorem vexStep_above {vl : VLen} {p : List Pfx} {r x b : Bool} {vvvv : BitVec 4} {reg : BitVec 3} {rm : Rm}
    {ilen : Nat} {s t : State} (h : vexStep vl p r x b vvvv reg rm ilen s = .next t) {j : Fin 16}
    (hj : vlLanes vl ≤ j.val) : (t.readZmm (low16 (regNum s.mode r reg)))[j] = 0#32 := by
  obtain ⟨-, src, -, -, rfl⟩ := vexStep_eq_next.1 h
  rw [complete_readZmm_same, zextMaxVl_above _ _ hj]

/-- An EVEX form zeroes the elements above its result, whatever its writemask does below (42_vsubps_evex.md rule
R156). -/
theorem evexStep_above {vl : VLen} {p : List Pfx} {e : Evex} {bc : Bool} {reg : BitVec 3} {rm : Rm} {ilen : Nat}
    {s t : State} (h : evexStep vl p e bc reg rm ilen s = .next t) {j : Fin 16} (hj : vlLanes vl ≤ j.val) :
    (t.readZmm (regNum5 s.mode e.rp e.r reg))[j] = 0#32 := by
  obtain ⟨-, src, -, -, rfl⟩ := evexStep_eq_next.1 h
  rw [complete_readZmm_same, zextMaxVl_above _ _ hj]

/-- Settles O32: by the instruction; above 512 bits there is no element. -/
theorem upperBits : Obligations.UpperBits := by
  intro i s t h j
  cases i with
  | subps p reg rm => exact execSubps_above h
  | vsubps128c5 p v reg rm | vsubps128c4 p v reg rm | vsubps256c5 p v reg rm | vsubps256c4 p v reg rm =>
    exact vexStep_above h
  | vsubpsEvex128 p e bc reg rm | vsubpsEvex256 p e bc reg rm | vsubpsEvex512 p e bc reg rm =>
    exact evexStep_above h
  | vsubpsEvex512er p e rc reg n => exact fun hj => absurd j.isLt hj.not_gt

end Sys2Proof.Machine
end

section
/-! SUPPORT. Executions of the EVEX forms that complete: from registers or a full-width memory operand, under embedded
rounding, and with every element masked off (spec/42_vsubps_evex.md rules R150 to R164). -/

namespace Sys2Proof.Machine

/-! ## Sources that can be had -/

/-- An EVEX form that has its source subtracts in its active elements, or ends in a numeric exception. -/
theorem exec_evexInstr_of_source {vl : VLen} {p : List Pfx} {e : Evex} {bc : Bool} {reg : BitVec 3} {rm : Rm}
    {s : State} {second : Lanes} {evs : List ReadEvent} (hok : s.cfg.ok)
    (hr : Ready (udOf (evexInstr vl p e bc reg rm) s) s)
    (hsrc : evexSource s p e bc vl rm (instrLength (evexInstr vl p e bc reg rm)) = .next ⟨second, evs⟩) :
    MaskedSubtractsOrFaults (exec (evexInstr vl p e bc reg rm) s) s e (regNum5 s.mode e.rp e.r reg) (vlLanes vl)
      (s.readZmm (vvvvNum5 s.mode e.vp e.vvvv)) second evs (instrLength (evexInstr vl p e bc reg rm)) := by
  rw [udOf_evexInstr] at hr
  rw [exec_evexInstr]
  exact evexStep_of_source hok hr hsrc

/-- Settles O26: a register source is had at once. -/
theorem evexRegister : Obligations.EvexRegister := by
  intro p e reg n s hok d a b
  have key : ∀ vl : VLen, let i := evexInstr vl p e false reg (.reg n)
      Ready (udOf i s) s → MaskedSubtracts (exec i s) s e d (vlLanes vl) a b [] (instrLength i) :=
    fun vl hr => (exec_evexInstr_of_source hok hr rfl).1
  exact ⟨key .v128, key .v256, key .v512⟩

/-- Settles O27: the source is had where the bytes accessed can be read and the operand does not trap. -/
theorem evexMemory : Obligations.EvexMemory := by
  intro vl p e reg o s hok i ad ks m hr hacc ht
  exact (exec_evexInstr_of_accessible (bc := false) hok hr rfl hacc (.inr (.inl ht))).1

/-! ## Embedded rounding -/

theorem laneOf_erControl (s : State) (rc : BitVec 2) (a b : Dword) : laneOf (erControl s rc) a b = erSub s rc a b := rfl

/-- Settles O29: no condition is delivered, and every element lies below the 512 bits of the result. -/
theorem evexRounding : Obligations.EvexRounding := by
  intro p e rc reg n s hok hr d a b
  have hwide := vlLanes_le_of_avx512f hok hr .v512
  refine ⟨_, evexErStep_eq_next.2 ⟨hr, rfl⟩, rfl, fun j => ?_, ?_⟩
  · have hj : j.val < vlLanes .v512 := j.isLt
    rw [complete_readZmm_same, zextMaxVl_getElem, if_pos ⟨hj, hj.trans_le hwide⟩, elements_getElem, laneOf_erControl,
      maskedOff_getElem]
    simp [hj, a, b, d]
  · have hmx : s.mxcsr = s.mxcsr ||| flagBits FpFlags.none := by simp
    rw [hmx]
    exact complete_completed ..

/-! ## Every element masked off -/

/-- No condition is signalled where no element is active (42_vsubps_evex.md rule R159). -/
theorem SignalledBy.eq_none_of_inactive {F : FpFlags} {kl : Nat} {act : Nat → Bool} {f : Fin 16 → FpFlags}
    (h : SignalledBy F kl act f) (hoff : ∀ j < kl, act j = false) : F = FpFlags.none := by
  have hno : ∀ π : FpFlags → Bool, ¬ ∃ j : Fin 16, j.val < kl ∧ act j.val = true ∧ π (f j) = true := by
    rintro π ⟨j, hj, ha, -⟩
    simp [hoff j hj] at ha
  have hnone : SignalledBy FpFlags.none kl act f := by
    constructor
    all_goals exact iff_of_false Bool.false_ne_true (hno _)
  exact h.unique hnone

/-- With fault suppression no byte is accessed where no element is active (42_vsubps_evex.md rule R160). -/
theorem evexBytes_of_inactive {s : State} {aaa : BitVec 3} {vl : VLen} (hfs : s.cfg.faultSuppression = true)
    (hoff : ∀ j < vlLanes vl, active s aaa j = false) (bc : Bool) : evexBytes s aaa bc vl = [] := by
  cases bc with
  | true => exact (broadcastBytes_eq ..).trans (if_pos ⟨hfs, hoff⟩)
  | false =>
    refine List.eq_nil_iff_forall_not_mem.2 fun k hk => ?_
    obtain ⟨hlt, hact⟩ := mem_fullBytes.1 hk
    have hj : k / 4 < vlLanes vl := Nat.div_lt_of_lt_mul hlt
    exact Bool.false_ne_true ((hoff _ hj).symm.trans (hact hfs))

/-- With no element active an EVEX form has its source without a read: a register, or an operand of which no byte is
accessed, wherever it lies. -/
theorem evexSource_of_inactive {s : State} {e : Evex} {vl : VLen} {rm : Rm}
    (hoff : ∀ j < vlLanes vl, active s e.aaa j = false)
    (hrm : (∃ n, rm = .reg n) ∨ s.cfg.faultSuppression = true) (p : List Pfx) (bc : Bool) (ilen : Nat) :
    ∃ second, evexSource s p e bc vl rm ilen = .next ⟨second, []⟩ := by
  cases rm with
  | reg n => exact ⟨_, rfl⟩
  | mem o =>
    have hfs : s.cfg.faultSuppression = true := hrm.resolve_left fun ⟨_, h⟩ => nomatch h
    have hks := evexBytes_of_inactive hfs hoff bc
    refine ⟨(evexLanes bc ⟨[], []⟩).lanes, (evexSource_eq_next_iff hks).2 ⟨List.forall_mem_nil _, .inl rfl, ?_⟩⟩
    cases bc <;> rfl

/-- Settles O30: the source is had, and no element is there to read it or to signal a condition. -/
theorem allMaskedOff : Obligations.AllMaskedOff := by
  intro vl p e bc reg rm s hok i d hr hoff hrm
  obtain ⟨second, hsrc⟩ := evexSource_of_inactive hoff hrm p bc (instrLength i)
  obtain ⟨t, F, ht, hF, hv, hc⟩ := (exec_evexInstr_of_source hok hr hsrc).1 fun j hj ha =>
    absurd ((hoff j hj).symm.trans ha) Bool.false_ne_true
  obtain rfl := hF.eq_none_of_inactive hoff
  refine ⟨t, ht, by simpa using hc.mxcsr, fun j => ?_, hc⟩
  rw [hv]
  by_cases hj : j.val < vlLanes vl
  · simp [hj, hoff j hj, d]
  · simp [hj]

end Sys2Proof.Machine
end

section
/-! SUPPORT. Magnitudes that the format holds with unbounded exponent, and what each rounding mode gives
(spec/43_lane_arithmetic.md rules R172, R180). -/

namespace Sys2Proof.Machine

/-! ## The unit in the last place -/

/-- The unit `u` in the last place of a magnitude, in units of 2^-149: that of its significand of 24 bits, and 1 below
2^23 (rules R171, R180). -/
def ulp (n : Nat) : Nat := 2 ^ (n.log2 - 23)

/-- The format, with unbounded exponent, holds a magnitude: its significand has at most 24 bits (rule R180). -/
def Representable (n : Nat) : Prop := ulp n ∣ n

theorem ulp_pos (n : Nat) : 0 < ulp n := Nat.two_pow_pos _

theorem ulp_dvd_ulp {m n : Nat} (h : m ≤ n) : ulp m ∣ ulp n := by
  have hlog : m.log2 ≤ n.log2 := by
    rw [Nat.log2_eq_log_two, Nat.log2_eq_log_two]
    exact Nat.log_mono_right h
  exact Nat.pow_dvd_pow 2 (by omega)

theorem lt_ulp_mul (n : Nat) : n < 2 ^ 24 * ulp n := by
  rw [ulp, ← Nat.pow_add]
  exact Nat.lt_log2_self.trans_le (Nat.pow_le_pow_right (by omega) (by omega))

theorem ulp_of_lt {n : Nat} (h : n < 2 ^ 24) : ulp n = 1 := by
  rcases Nat.eq_zero_or_pos n with rfl | hn
  · decide
  · have : n.log2 < 24 := (Nat.log2_lt hn.ne').2 h
    rw [ulp, Nat.sub_eq_zero_of_le (by omega), Nat.pow_zero]

theorem ulp_mul_le {n : Nat} (h : 2 ^ 23 ≤ n) : 2 ^ 23 * ulp n ≤ n := by
  have hn : n ≠ 0 := by omega
  have hlog : 23 ≤ n.log2 := (Nat.le_log2 hn).2 h
  rw [ulp, ← Nat.pow_add, Nat.add_sub_cancel' hlog]
  exact Nat.log2_self_le hn

/-- The significand of a magnitude of at least 2^23 has 24 bits. -/
theorem div_ulp_bounds {n : Nat} (h : 2 ^ 23 ≤ n) : 2 ^ 23 ≤ n / ulp n ∧ n / ulp n < 2 ^ 24 :=
  ⟨(Nat.le_div_iff_mul_le (ulp_pos n)).2 (ulp_mul_le h), (Nat.div_lt_iff_lt_mul (ulp_pos n)).2 (lt_ulp_mul n)⟩

/-- Reading `log2` as a bound; 0 is below every power of two but the first. -/
theorem le_log2_iff {n k : Nat} (hk : k ≠ 0) : k ≤ n.log2 ↔ 2 ^ k ≤ n := by
  rcases Nat.eq_zero_or_pos n with rfl | hn
  · simp [Nat.log2_zero, hk]
  · exact Nat.le_log2 hn.ne'

/-- The unit is known from a power of two between whose multiples the magnitude lies. -/
theorem ulp_eq {n k : Nat} (hlo : 2 ^ 23 * 2 ^ k ≤ n) (hhi : n < 2 ^ 24 * 2 ^ k) : ulp n = 2 ^ k := by
  rw [← Nat.pow_add] at hlo hhi
  have hn : n ≠ 0 := (Nat.two_pow_pos _).trans_le hlo |>.ne'
  have hlog : n.log2 = 23 + k :=
    (Nat.log2_eq_iff hn).2 ⟨hlo, by rwa [show 23 + k + 1 = 24 + k by omega]⟩
  rw [ulp, hlog, Nat.add_sub_cancel_left]

/-! ## Magnitudes that the format holds -/

/-- A multiple of a power of two that is at most 2^24 times it has a significand of at most 24 bits. -/
theorem representable_of_dvd {n k : Nat} (h : 2 ^ k ∣ n) (hn : n ≤ 2 ^ 24 * 2 ^ k) : Representable n := by
  rcases hn.lt_or_eq with hlt | rfl
  · rcases Nat.eq_zero_or_pos n with rfl | hpos
    · exact Nat.dvd_zero _
    · have hlog : n.log2 < 24 + k := (Nat.log2_lt hpos.ne').2 (by rwa [Nat.pow_add])
      exact (Nat.pow_dvd_pow 2 (by omega)).trans h
  · rw [Representable, ulp, ← Nat.pow_add, Nat.log2_two_pow]
    exact Nat.pow_dvd_pow 2 (by omega)

theorem representable_of_lt {n : Nat} (h : n < 2 ^ 24) : Representable n :=
  representable_of_dvd (k := 0) (Nat.one_dvd _) (by omega)

theorem representable_maxFinite : Representable maxFinite :=
  representable_of_dvd (k := 253) ⟨2 ^ 24 - 1, rfl⟩ (by decide)

theorem representable_two_pow (k : Nat) : Representable (2 ^ k) := by
  rw [Representable, ulp, Nat.log2_two_pow]
  exact Nat.pow_dvd_pow 2 (by omega)

/-- Above the largest finite number the format, with unbounded exponent, next holds 2^128 (rule R182). -/
theorem Representable.two_pow_le {n : Nat} (h : Representable n) (hn : maxFinite < n) : 2 ^ 277 ≤ n := by
  have hdvd : 2 ^ 253 ∣ n := by
    have hmax : ulp maxFinite = 2 ^ 253 := ulp_eq (by decide) (by decide)
    exact hmax ▸ (ulp_dvd_ulp hn.le).trans h
  obtain ⟨q, rfl⟩ := hdvd
  unfold maxFinite at hn
  omega

/-- The difference of two magnitudes within a factor of 2 of each other is held (rule R188(c)). -/
theorem Representable.sub {m n : Nat} (hm : Representable m) (hn : Representable n) (hle : n ≤ m) (h : m ≤ 2 * n) :
    Representable (m - n) := by
  have hdvd : ulp n ∣ m - n := Nat.dvd_sub ((ulp_dvd_ulp hle).trans hm) hn
  have hlt : n < 2 ^ 24 * ulp n := lt_ulp_mul n
  exact representable_of_dvd hdvd (by unfold ulp at hlt; omega)

/-- The last digit of a significand of 24 bits, or of the next power of two. -/
theorem significand_mod_two {q k : Nat} (hlo : 2 ^ 23 ≤ q) (hhi : q ≤ 2 ^ 24) :
    q * 2 ^ k / ulp (q * 2 ^ k) % 2 = q % 2 := by
  rcases hhi.lt_or_eq with hlt | rfl
  · rw [ulp_eq (Nat.mul_le_mul_right _ hlo) (Nat.mul_lt_mul_of_pos_right hlt (Nat.two_pow_pos k)),
      Nat.mul_div_cancel _ (Nat.two_pow_pos k)]
  · have hnext : 2 ^ 24 * 2 ^ k = 2 ^ 23 * 2 ^ (k + 1) := by rw [Nat.pow_succ]; omega
    rw [hnext, ulp_eq le_rfl (Nat.mul_lt_mul_of_pos_right (by decide) (Nat.two_pow_pos _)),
      Nat.mul_div_cancel _ (Nat.two_pow_pos _)]
    decide

/-! ## The neighbours of a magnitude -/

/-- The greatest magnitude held that is not above `n` (`lo` of rule R180). -/
def floorMag (n : Nat) : Nat := n / ulp n * ulp n

/-- The least magnitude held that is not below `n`: `n` where it is held, else `hi` of rule R180. -/
def ceilMag (n : Nat) : Nat := if n = floorMag n then n else floorMag n + ulp n

theorem floorMag_le (n : Nat) : floorMag n ≤ n := Nat.div_mul_le_self _ _

theorem lt_floorMag_add (n : Nat) : n < floorMag n + ulp n := Nat.lt_div_mul_add (ulp_pos n)

theorem le_ceilMag (n : Nat) : n ≤ ceilMag n := by
  unfold ceilMag
  split_ifs
  · exact le_rfl
  · exact (lt_floorMag_add n).le

theorem dvd_floorMag (n : Nat) : ulp n ∣ floorMag n := Nat.dvd_mul_left _ _

theorem Representable.floorMag_eq {n : Nat} (h : Representable n) : floorMag n = n := Nat.div_mul_cancel h

theorem representable_floorMag (n : Nat) : Representable (floorMag n) :=
  representable_of_dvd (dvd_floorMag n) ((floorMag_le n).trans (lt_ulp_mul n).le)

theorem representable_ceilMag (n : Nat) : Representable (ceilMag n) := by
  unfold ceilMag
  split_ifs with h
  · exact h ▸ representable_floorMag n
  · have hdvd : ulp n ∣ floorMag n + ulp n := Nat.dvd_add (dvd_floorMag n) (Nat.dvd_refl _)
    have hlt : floorMag n + ulp n < 2 ^ 24 * ulp n + ulp n :=
      Nat.add_lt_add_right ((floorMag_le n).trans_lt (lt_ulp_mul n)) _
    exact representable_of_dvd hdvd (Nat.le_of_lt_add_of_dvd hlt hdvd (Nat.dvd_mul_left _ _))

/-- Nothing held lies between `floorMag n` and `n`. -/
theorem Representable.le_floorMag {m n : Nat} (hm : Representable m) (h : m ≤ n) : m ≤ floorMag n := by
  have hmul : ∀ {d : Nat}, ulp n ∣ d → d ≤ n → d ≤ floorMag n := fun {d} hd hdn =>
    calc d = d / ulp n * ulp n := (Nat.div_mul_cancel hd).symm
      _ ≤ floorMag n := Nat.mul_le_mul_right _ (Nat.div_le_div_right hdn)
  rcases Nat.eq_zero_or_pos n with rfl | hn
  · omega
  rcases lt_or_ge m (2 ^ n.log2) with hlt | hge
  · exact hlt.le.trans (hmul (Nat.pow_dvd_pow 2 (by omega)) (Nat.log2_self_le hn.ne'))
  · have hm0 : m ≠ 0 := ((Nat.two_pow_pos _).trans_le hge).ne'
    have hlog : m.log2 = n.log2 := (Nat.log2_eq_iff hm0).2 ⟨hge, h.trans_lt Nat.lt_log2_self⟩
    exact hmul (by rw [ulp, ← hlog]; exact hm) h

/-- Nothing held lies between `n` and `ceilMag n`. -/
theorem Representable.ceilMag_le {m n : Nat} (hm : Representable m) (h : n ≤ m) : ceilMag n ≤ m := by
  have hdvd : ulp n ∣ m := (ulp_dvd_ulp h).trans hm
  unfold ceilMag
  split_ifs with hn
  · exact h
  · have hlt : floorMag n < m := by have := floorMag_le n; omega
    exact Nat.le_of_lt_add_of_dvd (Nat.add_lt_add_right hlt _) (Nat.dvd_add (dvd_floorMag n) (Nat.dvd_refl _)) hdvd

/-! ## Rounding -/

/-- Each mode gives one of the neighbours: truncating the lower, and in the directed modes the one on their side of
the signed value (rules R172, R180). -/
theorem roundMag_directed (s : Bool) (n : Nat) :
    roundMag .truncate s n = floorMag n ∧
      roundMag .down s n = (if s then ceilMag n else floorMag n) ∧
      roundMag .up s n = (if s then floorMag n else ceilMag n) := by
  unfold roundMag ceilMag floorMag ulp
  by_cases h : n = n / 2 ^ (n.log2 - 23) * 2 ^ (n.log2 - 23)
  · simp [← h]
  · simp [h]

/-- To nearest, the nearer neighbour; on a tie the one with an even significand (rule R180). -/
theorem roundMag_nearest {s : Bool} {n : Nat} (hn : n ≠ floorMag n) :
    roundMag .nearest s n =
      if n - floorMag n < floorMag n + ulp n - n then floorMag n
      else if floorMag n + ulp n - n < n - floorMag n then floorMag n + ulp n
      else if n / ulp n % 2 = 0 then floorMag n else floorMag n + ulp n := if_neg hn

theorem roundMag_of_floorMag {rm : Rounding} {s : Bool} {n : Nat} (hn : n = floorMag n) : roundMag rm s n = n :=
  if_pos hn

theorem Representable.roundMag_eq {n : Nat} (h : Representable n) (rm : Rounding) (s : Bool) : roundMag rm s n = n :=
  roundMag_of_floorMag h.floorMag_eq.symm

theorem roundMag_eq_floorMag_or_ceilMag (rm : Rounding) (s : Bool) (n : Nat) :
    roundMag rm s n = floorMag n ∨ roundMag rm s n = ceilMag n := by
  obtain ⟨htrunc, hdown, hup⟩ := roundMag_directed s n
  cases rm with
  | truncate => exact .inl htrunc
  | down => rw [hdown]; cases s <;> simp
  | up => rw [hup]; cases s <;> simp
  | nearest =>
    by_cases hn : n = floorMag n
    · exact .inl ((roundMag_of_floorMag hn).trans hn)
    · rw [roundMag_nearest hn, ceilMag, if_neg hn]
      split_ifs <;> simp

theorem representable_roundMag (rm : Rounding) (s : Bool) (n : Nat) : Representable (roundMag rm s n) := by
  rcases roundMag_eq_floorMag_or_ceilMag rm s n with h | h
  · exact h ▸ representable_floorMag n
  · exact h ▸ representable_ceilMag n

theorem roundMag_le_ceilMag (rm : Rounding) (s : Bool) (n : Nat) : roundMag rm s n ≤ ceilMag n := by
  rcases roundMag_eq_floorMag_or_ceilMag rm s n with h | h
  · exact h ▸ (floorMag_le n).trans (le_ceilMag n)
  · exact h.le

/-- Rounding does not go beyond a bound that is held. -/
theorem Representable.roundMag_le {m n : Nat} (hm : Representable m) (h : n ≤ m) (rm : Rounding) (s : Bool) :
    roundMag rm s n ≤ m :=
  (roundMag_le_ceilMag rm s n).trans (hm.ceilMag_le h)

/-- On a tie to nearest the result's significand is even. -/
theorem roundMag_nearest_even {s : Bool} {n : Nat} (hn : n ≠ floorMag n)
    (htie : n - floorMag n = floorMag n + ulp n - n) :
    roundMag .nearest s n / ulp (roundMag .nearest s n) % 2 = 0 := by
  have hbig : 2 ^ 24 ≤ n := by
    by_contra hlt
    exact hn (representable_of_lt (by omega)).floorMag_eq.symm
  obtain ⟨hlo, hhi⟩ := div_ulp_bounds (n := n) (by omega)
  rw [roundMag_nearest hn, if_neg (by omega), if_neg (by omega)]
  split_ifs with heven
  · exact (significand_mod_two hlo hhi.le).trans heven
  · rw [show floorMag n + ulp n = (n / ulp n + 1) * ulp n from (Nat.succ_mul _ _).symm]
    exact (significand_mod_two (by omega) hhi).trans (by omega)

/-- To nearest, nothing held is nearer than the result, and something else as near only where the result's significand
is even (rules R180, R188(d)). -/
theorem roundMag_nearest_dist (s : Bool) (n : Nat) {m : Nat} (hm : Representable m) :
    ((roundMag .nearest s n : Int) - n).natAbs ≤ ((m : Int) - n).natAbs ∧
      (((roundMag .nearest s n : Int) - n).natAbs = ((m : Int) - n).natAbs → m ≠ roundMag .nearest s n →
        roundMag .nearest s n / ulp (roundMag .nearest s n) % 2 = 0) := by
  by_cases hn : n = floorMag n
  · rw [roundMag_of_floorMag hn]
    omega
  have hle : floorMag n ≤ n := floorMag_le n
  have hlt : n < floorMag n + ulp n := lt_floorMag_add n
  have hgap : m ≤ floorMag n ∨ floorMag n + ulp n ≤ m := by
    rcases Nat.le_total m n with h | h
    · exact .inl (hm.le_floorMag h)
    · exact .inr (by simpa [ceilMag, hn] using hm.ceilMag_le h)
  have hy : (roundMag .nearest s n = floorMag n ∧ n - floorMag n ≤ floorMag n + ulp n - n) ∨
      (roundMag .nearest s n = floorMag n + ulp n ∧ floorMag n + ulp n - n ≤ n - floorMag n) := by
    rw [roundMag_nearest hn]
    split_ifs <;> omega
  exact ⟨by omega, fun heq hne => roundMag_nearest_even hn (by omega)⟩

/-! ## Rounding a signed value -/

/-- The magnitude `|y|` to which a value rounds (rule R180). -/
def roundedMag (rm : Rounding) (x : Int) : Nat := roundMag rm (decide (x < 0)) x.natAbs

/-- The value `y` to which a value rounds, which has its sign (rule R180). -/
def roundedVal (rm : Rounding) (x : Int) : Int := if x < 0 then -(roundedMag rm x : Int) else roundedMag rm x

theorem representable_roundedMag (rm : Rounding) (x : Int) : Representable (roundedMag rm x) :=
  representable_roundMag ..

theorem Representable.roundedMag_eq {x : Int} (h : Representable x.natAbs) (rm : Rounding) :
    roundedMag rm x = x.natAbs := h.roundMag_eq rm _

theorem roundedVal_eq_iff (rm : Rounding) (x : Int) : roundedVal rm x = x ↔ roundedMag rm x = x.natAbs := by
  unfold roundedVal
  split_ifs <;> omega

/-- In the directed modes a value rounds to the neighbour on the mode's side, truncating to the one of less magnitude
(rules R172, R180). -/
theorem roundedVal_directed (x : Int) :
    roundedVal .down x = (if x < 0 then -(ceilMag x.natAbs : Int) else floorMag x.natAbs) ∧
      roundedVal .up x = (if x < 0 then -(floorMag x.natAbs : Int) else ceilMag x.natAbs) ∧
      roundedVal .truncate x = if x < 0 then -(floorMag x.natAbs : Int) else floorMag x.natAbs := by
  obtain ⟨htrunc, hdown, hup⟩ := roundMag_directed (decide (x < 0)) x.natAbs
  simp only [roundedVal, roundedMag, htrunc, hdown, hup]
  by_cases hx : x < 0
  · simp only [hx, decide_true, if_true, and_self]
  · simp only [hx, decide_false, if_false, Bool.false_eq_true, and_self]

/-- Rounding down gives the greatest value held that is not above `x`. -/
theorem roundedVal_down (x : Int) : roundedVal .down x ≤ x ∧
    ∀ v : Int, Representable v.natAbs → v ≤ x → v ≤ roundedVal .down x := by
  have hfloor := floorMag_le x.natAbs
  have hceil := le_ceilMag x.natAbs
  rw [(roundedVal_directed x).1]
  refine ⟨by split_ifs <;> omega, fun v hv hle => ?_⟩
  have hbelow := hv.le_floorMag (n := x.natAbs)
  have habove := hv.ceilMag_le (n := x.natAbs)
  split_ifs <;> omega

/-- The rounding mode that answers once the sign is changed: up and down are exchanged (rules R172, R188(a)). -/
def Rounding.opposite : Rounding → Rounding
  | .nearest => .nearest
  | .down => .up
  | .up => .down
  | .truncate => .truncate

theorem roundMag_opposite (rm : Rounding) (s : Bool) (n : Nat) : roundMag rm.opposite (!s) n = roundMag rm s n := by
  cases rm <;> cases s <;> rfl

theorem decide_neg_lt_zero {x : Int} (hx : x ≠ 0) : decide (-x < 0) = !decide (x < 0) := by
  rw [← decide_not, decide_eq_decide]
  omega

theorem roundedMag_zero (rm : Rounding) : roundedMag rm 0 = 0 :=
  Representable.roundedMag_eq (representable_of_lt (by decide)) rm

theorem roundedMag_neg (rm : Rounding) (x : Int) : roundedMag rm.opposite (-x) = roundedMag rm x := by
  by_cases hx : x = 0
  · rw [hx, neg_zero, roundedMag_zero, roundedMag_zero]
  · rw [roundedMag, Int.natAbs_neg, decide_neg_lt_zero hx, roundMag_opposite, roundedMag]

theorem roundedVal_neg (rm : Rounding) (x : Int) : roundedVal rm.opposite (-x) = -roundedVal rm x := by
  have hzero : x = 0 → roundedMag rm x = 0 := fun hx => hx ▸ roundedMag_zero rm
  rw [roundedVal, roundedMag_neg, roundedVal]
  split_ifs <;> omega

/-- Rounding up gives the least value held that is not below `x`. -/
theorem roundedVal_up (x : Int) : x ≤ roundedVal .up x ∧
    ∀ v : Int, Representable v.natAbs → x ≤ v → roundedVal .up x ≤ v := by
  obtain ⟨hle, htight⟩ := roundedVal_down (-x)
  rw [show roundedVal .down (-x) = -roundedVal .up x from roundedVal_neg .up x] at hle htight
  exact ⟨Int.neg_le_neg_iff.1 hle, fun v hv hge =>
    Int.neg_le_neg_iff.1 (htight (-v) (by rwa [Int.natAbs_neg]) (Int.neg_le_neg hge))⟩

/-- Truncation gives the value held between 0 and `x` that is nearest to `x`. -/
theorem roundedVal_truncate (x : Int) :
    (0 ≤ x → 0 ≤ roundedVal .truncate x ∧ roundedVal .truncate x ≤ x) ∧
      (x ≤ 0 → x ≤ roundedVal .truncate x ∧ roundedVal .truncate x ≤ 0) ∧
      ∀ v : Int, Representable v.natAbs → (0 ≤ x → v ≤ x → v ≤ roundedVal .truncate x) ∧
        (x ≤ 0 → x ≤ v → roundedVal .truncate x ≤ v) := by
  have hfloor := floorMag_le x.natAbs
  rw [(roundedVal_directed x).2.2]
  refine ⟨by split_ifs <;> omega, by split_ifs <;> omega, fun v hv => ?_⟩
  have hbelow := hv.le_floorMag (n := x.natAbs)
  split_ifs <;> omega

/-- To nearest, no value held is nearer to `x` than the result, and a different value as near only where the result's
significand is even (rules R180, R188(d)). -/
theorem roundedVal_nearest (x v : Int) (hv : Representable v.natAbs) :
    (roundedVal .nearest x - x).natAbs ≤ (v - x).natAbs ∧
      ((roundedVal .nearest x - x).natAbs = (v - x).natAbs → v ≠ roundedVal .nearest x →
        roundedMag .nearest x / ulp (roundedMag .nearest x) % 2 = 0) := by
  have hzero : x = 0 → roundedMag .nearest x = 0 := fun hx =>
    hx ▸ roundedMag_zero _
  obtain ⟨hnear, heven⟩ := roundMag_nearest_dist (decide (x < 0)) x.natAbs hv
  rw [← roundedMag] at hnear heven
  have hdist : (roundedVal .nearest x - x).natAbs = ((roundedMag .nearest x : Int) - x.natAbs).natAbs := by
    unfold roundedVal
    split_ifs <;> omega
  rw [hdist]
  refine ⟨by omega, fun heq hne => heven (by omega) fun hmag => hne ?_⟩
  unfold roundedVal at *
  split_ifs at * <;> omega

/-! ## Overflow -/

theorem two_pow_le_floorMag (n : Nat) : 2 ^ 277 ≤ floorMag n ↔ 2 ^ 277 ≤ n :=
  ⟨fun h => h.trans (floorMag_le n), (representable_two_pow 277).le_floorMag⟩

/-- The largest finite number lies one unit below 2^128 (rule R171). -/
theorem maxFinite_add : maxFinite + 2 ^ 253 = 2 ^ 277 := by
  rw [show 277 = 24 + 253 from rfl, pow_add, maxFinite]
  omega

theorem maxFinite_lt : maxFinite < 2 ^ 277 := maxFinite_add ▸ Nat.lt_add_of_pos_right (Nat.two_pow_pos 253)

theorem tiny_lt {n : Nat} (h : n < 2 ^ 23) : n < 2 ^ 277 :=
  h.trans ((show 2 ^ 23 < maxFinite by decide).trans maxFinite_lt)

/-- An overflow lies above the largest finite number in every mode. -/
theorem maxFinite_lt_of_overflow {rm : Rounding} {x : Int} (h : 2 ^ 277 ≤ roundedMag rm x) :
    maxFinite < x.natAbs := by
  by_contra hle
  have hy : roundedMag rm x ≤ maxFinite := representable_maxFinite.roundMag_le (not_lt.1 hle) rm _
  exact (h.trans hy).not_gt maxFinite_lt

/-- A tiny value is held (rule R183). -/
theorem roundedMag_of_tiny (rm : Rounding) {x : Int} (h : x.natAbs < 2 ^ 23) : roundedMag rm x = x.natAbs :=
  Representable.roundedMag_eq (representable_of_lt (h.trans (by decide))) rm

theorem two_pow_le_ceilMag (n : Nat) : 2 ^ 277 ≤ ceilMag n ↔ maxFinite < n := by
  refine ⟨fun h => ?_, fun h => (representable_ceilMag n).two_pow_le (h.trans_le (le_ceilMag n))⟩
  by_contra hle
  have hceil : ceilMag n ≤ maxFinite := representable_maxFinite.ceilMag_le (not_lt.1 hle)
  exact (h.trans hceil).not_gt maxFinite_lt

/-- The largest finite number is odd, so the tie above it rounds to 2^128. -/
theorem two_pow_le_roundMag_nearest (s : Bool) (n : Nat) :
    2 ^ 277 ≤ roundMag .nearest s n ↔ maxFinite + 2 ^ 252 ≤ n := by
  have hodd : maxFinite / ulp maxFinite % 2 ≠ 0 := by decide
  have hy : roundMag .nearest s n ≤ maxFinite ∨ 2 ^ 277 ≤ roundMag .nearest s n :=
    (le_or_gt _ _).imp_right (representable_roundMag .nearest s n).two_pow_le
  obtain ⟨hnear, -⟩ := roundMag_nearest_dist s n representable_maxFinite
  obtain ⟨hnear', heven⟩ := roundMag_nearest_dist s n (representable_two_pow 277)
  have htie : roundMag .nearest s n = maxFinite →
      ((maxFinite : Int) - n).natAbs ≠ (((2 ^ 277 : Nat) : Int) - n).natAbs := fun h heq => by
    rw [h] at heven
    exact hodd (heven heq maxFinite_lt.ne')
  rw [← maxFinite_add] at hnear' hy htie ⊢
  omega

end Sys2Proof.Machine
end

section
/-! SUPPORT. The fields of a pattern, and the pattern of a magnitude (spec/43_lane_arithmetic.md rules R171, R189). -/

namespace Sys2Proof.Machine

/-! ## Fields -/

@[simp] theorem signBit_append (s : Bool) (m : BitVec 31) : signBit (BitVec.ofBool s ++ m) = s := by
  rw [signBit, BitVec.getLsbD_append]
  cases s <;> rfl

@[simp] theorem expField_append (s : Bool) (m : BitVec 31) :
    expField (BitVec.ofBool s ++ m) = m.extractLsb' 23 8 :=
  BitVec.extractLsb'_append_eq_of_add_le (by decide)

@[simp] theorem fracField_append (s : Bool) (m : BitVec 31) :
    fracField (BitVec.ofBool s ++ m) = m.extractLsb' 0 23 :=
  BitVec.extractLsb'_append_eq_of_add_le (by decide)

theorem append_xor_sign (s : Bool) (m : BitVec 31) :
    (BitVec.ofBool s ++ m) ^^^ 0x80000000#32 = BitVec.ofBool (!s) ++ m := by
  have hsign : 0x80000000#32 = BitVec.ofBool true ++ 0#31 := by decide
  rw [hsign, BitVec.xor_append, BitVec.xor_zero]
  cases s <;> rfl

/-! ## Magnitudes and values -/

theorem representable_magOf (v : Dword) : Representable (magOf v) := by
  have hf : (fracField v).toNat < 2 ^ 23 := (fracField v).isLt
  unfold magOf
  split_ifs
  · exact representable_of_lt (by omega)
  · exact representable_of_dvd (Nat.dvd_mul_left _ _) (Nat.mul_le_mul_right _ (by omega))

@[simp] theorem natAbs_valOf (v : Dword) : (valOf v).natAbs = magOf v := by
  unfold valOf
  split_ifs <;> simp

theorem representable_natAbs_valOf (v : Dword) : Representable (valOf v).natAbs :=
  natAbs_valOf v ▸ representable_magOf v

/-! ## The pattern of a magnitude -/

/-- A magnitude of at least 2^23 that is held is that of a normal number, but for the range of its exponent. -/
theorem Representable.exists_normal {n : Nat} (h : Representable n) (hn : 2 ^ 23 ≤ n) :
    ∃ k f, f < 2 ^ 23 ∧ n = (2 ^ 23 + f) * 2 ^ k := by
  have hq : n / ulp n * ulp n = n := Nat.div_mul_cancel h
  obtain ⟨hlo, hhi⟩ := div_ulp_bounds hn
  refine ⟨n.log2 - 23, n / ulp n - 2 ^ 23, by omega, ?_⟩
  rw [Nat.add_sub_cancel' hlo]
  exact hq.symm

theorem ulp_normal {k f : Nat} (hf : f < 2 ^ 23) : ulp ((2 ^ 23 + f) * 2 ^ k) = 2 ^ k :=
  ulp_eq (Nat.mul_le_mul_right _ (by omega)) (Nat.mul_lt_mul_of_pos_right (by omega) (Nat.two_pow_pos k))

theorem encMag_of_lt {n : Nat} (h : n < 2 ^ 23) : encMag n = BitVec.ofNat 31 n := if_pos h

/-- The fields of a normal number: its biased exponent and its fraction (rule R171). -/
theorem encMag_normal {k f : Nat} (hf : f < 2 ^ 23) :
    encMag ((2 ^ 23 + f) * 2 ^ k) = BitVec.ofNat 31 ((k + 1) * 2 ^ 23 + f) := by
  have hk : 1 ≤ 2 ^ k := Nat.one_le_two_pow
  have hbig : 2 ^ 23 ≤ (2 ^ 23 + f) * 2 ^ k := by
    calc 2 ^ 23 ≤ (2 ^ 23 + f) * 1 := by omega
      _ ≤ _ := Nat.mul_le_mul_left _ hk
  have hlog : ((2 ^ 23 + f) * 2 ^ k).log2 = 23 + k := by
    have hne : (2 ^ 23 + f) * 2 ^ k ≠ 0 := by omega
    rw [Nat.log2_eq_iff hne, show 23 + k + 1 = 24 + k by omega, Nat.pow_add, Nat.pow_add]
    exact ⟨Nat.mul_le_mul_right _ (by omega), Nat.mul_lt_mul_of_pos_right (by omega) hk⟩
  rw [encMag, if_neg (by omega), hlog, Nat.add_sub_cancel_left, Nat.mul_div_cancel _ hk, Nat.add_sub_cancel_left,
    show 23 + k - 22 = k + 1 by omega]

theorem fields_encVal (s : Bool) {n e f : Nat} (h : encMag n = BitVec.ofNat 31 (e * 2 ^ 23 + f)) (hf : f < 2 ^ 23)
    (he : e < 256) : (expField (encVal s n)).toNat = e ∧ (fracField (encVal s n)).toNat = f := by
  have hlt : e * 2 ^ 23 + f < 2 ^ 31 := by omega
  rw [encVal, expField_append, fracField_append, h, BitVec.extractLsb'_toNat, BitVec.extractLsb'_toNat,
    BitVec.toNat_ofNat, Nat.mod_eq_of_lt hlt, Nat.shiftRight_eq_div_pow, Nat.shiftRight_zero]
  omega

theorem fields_encVal_of_lt (s : Bool) {n : Nat} (h : n < 2 ^ 23) :
    (expField (encVal s n)).toNat = 0 ∧ (fracField (encVal s n)).toNat = n :=
  fields_encVal s (by rw [encMag_of_lt h, Nat.zero_mul, Nat.zero_add]) h (by decide)

theorem fields_encVal_normal (s : Bool) {k f : Nat} (hf : f < 2 ^ 23) (hk : k < 255) :
    (expField (encVal s ((2 ^ 23 + f) * 2 ^ k))).toNat = k + 1 ∧
      (fracField (encVal s ((2 ^ 23 + f) * 2 ^ k))).toNat = f :=
  fields_encVal s (encMag_normal hf) hf (by omega)

theorem isFinite_iff_toNat (v : Dword) : isFinite v = true ↔ (expField v).toNat ≠ 255 := by
  rw [isFinite, bne_iff_ne, ne_eq, BitVec.toNat_eq]
  rfl

theorem magOf_eq (v : Dword) :
    magOf v = if (expField v).toNat = 0 then (fracField v).toNat
      else (2 ^ 23 + (fracField v).toNat) * 2 ^ ((expField v).toNat - 1) := by
  have hzero : expField v = 0#8 ↔ (expField v).toNat = 0 := BitVec.toNat_eq
  simp only [magOf, hzero]

/-- Below 2^128 the exponent field of a normal number is at most 254. -/
theorem exponent_lt {k f : Nat} (h : (2 ^ 23 + f) * 2 ^ k < 2 ^ 277) : k < 254 := by
  by_contra hk
  have hpow : 2 ^ 254 ≤ 2 ^ k := Nat.pow_le_pow_right (by omega) (by omega)
  have hmul : 2 ^ 23 * 2 ^ 254 ≤ (2 ^ 23 + f) * 2 ^ k := Nat.mul_le_mul (by omega) hpow
  omega

/-- `enc` gives a finite pattern of the sign and the magnitude (rules R171, R189). -/
theorem encVal_spec (s : Bool) {n : Nat} (h : Representable n) (hn : n < 2 ^ 277) :
    isFinite (encVal s n) = true ∧ magOf (encVal s n) = n := by
  rcases lt_or_ge n (2 ^ 23) with hlt | hge
  · obtain ⟨he, hf⟩ := fields_encVal_of_lt s hlt
    rw [isFinite_iff_toNat, magOf_eq, he, hf]
    exact ⟨by decide, rfl⟩
  · obtain ⟨k, f, hf, rfl⟩ := h.exists_normal hge
    have hk : k < 254 := exponent_lt hn
    obtain ⟨hexp, hfrac⟩ := fields_encVal_normal s hf (hk.trans (by decide))
    rw [isFinite_iff_toNat, magOf_eq, hexp, hfrac, if_neg k.succ_ne_zero, Nat.add_sub_cancel]
    exact ⟨by omega, rfl⟩

theorem valOf_encVal (s : Bool) {n : Nat} (h : Representable n) (hn : n < 2 ^ 277) :
    valOf (encVal s n) = if s then -(n : Int) else n := by
  rw [valOf, (encVal_spec s h hn).2, encVal, signBit_append]

/-- The pattern of a rounded magnitude with the sign of what was rounded has the rounded value. -/
theorem valOf_encVal_roundedMag {rm : Rounding} {x : Int} (h : roundedMag rm x < 2 ^ 277) :
    valOf (encVal (decide (x < 0)) (roundedMag rm x)) = roundedVal rm x := by
  rw [valOf_encVal _ (representable_roundedMag rm x) h, roundedVal]
  simp only [decide_eq_true_eq]

theorem valOf_zeroOf (s : Bool) : isFinite (zeroOf s) = true ∧ valOf (zeroOf s) = 0 := by cases s <;> decide

/-- A magnitude below 2^23 that is not 0 is that of a denormal (rule R171). -/
theorem cls_encVal_of_lt (s : Bool) {n : Nat} (h0 : n ≠ 0) (h : n < 2 ^ 23) : cls (encVal s n) = .denormal := by
  obtain ⟨he, hf⟩ := fields_encVal_of_lt s h
  have he0 : expField (encVal s n) = 0#8 := BitVec.eq_of_toNat_eq he
  have hf0 : fracField (encVal s n) ≠ 0#23 := fun hz => h0 (hf.symm.trans (congrArg BitVec.toNat hz))
  rw [cls, if_pos he0, if_neg hf0]

/-- The last bit of the pattern is the last digit of the significand. -/
theorem encVal_getLsbD_zero (s : Bool) {n : Nat} (h : Representable n) (heven : n / ulp n % 2 = 0) :
    (encVal s n).getLsbD 0 = false := by
  rw [encVal, BitVec.getLsbD_append, if_pos (by decide)]
  rcases lt_or_ge n (2 ^ 23) with hlt | hge
  · rw [ulp_of_lt (by omega), Nat.div_one] at heven
    rw [encMag_of_lt hlt, BitVec.getLsbD_ofNat, Nat.testBit_zero, heven]
    rfl
  · obtain ⟨k, f, hf, rfl⟩ := h.exists_normal hge
    rw [ulp_normal hf, Nat.mul_div_cancel _ (Nat.two_pow_pos k)] at heven
    have hdigit : ((k + 1) * 2 ^ 23 + f) % 2 = 0 := by omega
    rw [encMag_normal hf, BitVec.getLsbD_ofNat, Nat.testBit_zero, hdigit]
    rfl

end Sys2Proof.Machine
end

section
/-! SUPPORT. The element subtraction by the classes of its operands, and the statements about NaNs, infinities and the
conditions signalled (spec/43_lane_arithmetic.md rules R173 to R178, R185, R186). -/

namespace Sys2Proof.Machine

/-! ## Prepared operands -/

theorem beq_denormal_dazOf (daz : Bool) (v : Dword) :
    (cls (dazOf daz v) == .denormal) = (!daz && cls v == .denormal) := by
  rw [cls_dazOf]
  cases daz <;> cases cls v <;> rfl

theorem beq_snan_dazOf (daz : Bool) (v : Dword) : (cls (dazOf daz v) == .snan) = (cls v == .snan) := by
  rw [cls_dazOf]
  cases daz <;> cases cls v <;> rfl

theorem isNan_dazOf (daz : Bool) (v : Dword) : isNan (dazOf daz v) = isNan v := by
  unfold isNan
  rw [cls_dazOf]
  cases daz <;> cases cls v <;> rfl

theorem cls_dazOf_inf (daz : Bool) (v : Dword) : cls (dazOf daz v) = .inf ↔ cls v = .inf := by
  rw [cls_dazOf]
  cases daz <;> cases cls v <;> decide

theorem cls_ne_inf_of_isFinite {v : Dword} (h : isFinite v = true) : cls v ≠ .inf := fun hinf => by
  simpa [hinf] using (isFinite_iff v).1 h

theorem dazOf_of_isNan {daz : Bool} {v : Dword} (h : isNan v = true) : dazOf daz v = v :=
  dazOf_of_ne fun hd => by simp [isNan, hd] at h

theorem dazOf_of_inf {daz : Bool} {v : Dword} (h : cls v = .inf) : dazOf daz v = v :=
  dazOf_of_ne fun hd => by simp [hd] at h

/-! ## The cases of the operands, in the order of rule R174 -/

section
variable (rm : Rounding) (daz ftz um : Bool) {a b : Dword}

theorem laneSub_of_isNan_left (ha : isNan a = true) : laneSub rm daz ftz um a b =
    (a ||| 0x00400000#32, { FpFlags.none with ie := cls a == .snan || cls b == .snan }) := by
  simp [laneSub, laneSubPrepared, ha, beq_snan_dazOf, dazOf_of_isNan ha]

theorem laneSub_of_isNan_right (ha : isNan a = false) (hb : isNan b = true) : laneSub rm daz ftz um a b =
    (b ||| 0x00400000#32, { FpFlags.none with ie := cls b == .snan }) := by
  have hsnan : (cls a == .snan) = false := (Bool.or_eq_false_iff.1 ha).2
  simp [laneSub, laneSubPrepared, isNan_dazOf, ha, hb, hsnan, beq_snan_dazOf, dazOf_of_isNan hb]

theorem laneSub_of_inf_sub_inf (ha : cls a = .inf) (hb : cls b = .inf) (hs : signBit a = signBit b) :
    laneSub rm daz ftz um a b = (0xFFC00000#32, { FpFlags.none with ie := true }) := by
  simp [laneSub, laneSubPrepared, isNan, dazOf_of_inf ha, dazOf_of_inf hb, ha, hb, hs]

theorem laneSub_of_inf_left (ha : cls a = .inf) (hb : isNan b = false)
    (hne : ¬ (cls a = .inf ∧ cls b = .inf ∧ signBit a = signBit b)) :
    laneSub rm daz ftz um a b = (a, { FpFlags.none with de := !daz && cls b == .denormal }) := by
  have hna : isNan a = false := (isNan_false_iff a).2 (.inr ha)
  have hsnan : (cls b == .snan) = false := (Bool.or_eq_false_iff.1 hb).2
  have hne' : ¬ (cls b = .inf ∧ signBit a = signBit b) := fun h => hne ⟨ha, h⟩
  simp only [laneSub, laneSubPrepared, isNan_dazOf, signBit_dazOf, cls_dazOf_inf, beq_denormal_dazOf, beq_snan_dazOf,
    hna, hb, hsnan]
  simp [dazOf_of_inf ha, ha, hne', FpFlags.none]

theorem laneSub_of_inf_right (ha : isFinite a = true) (hb : cls b = .inf) :
    laneSub rm daz ftz um a b = (b ^^^ 0x80000000#32, { FpFlags.none with de := !daz && cls a == .denormal }) := by
  have hna : isNan a = false := (isNan_false_iff a).2 (.inl ha)
  have hnb : isNan b = false := (isNan_false_iff b).2 (.inr hb)
  have hsnan : (cls a == .snan) = false := (Bool.or_eq_false_iff.1 hna).2
  have hinf : cls a ≠ .inf := cls_ne_inf_of_isFinite ha
  simp only [laneSub, laneSubPrepared, isNan_dazOf, signBit_dazOf, cls_dazOf_inf, beq_denormal_dazOf, beq_snan_dazOf,
    hna, hnb, hsnan]
  simp [dazOf_of_inf hb, hb, hinf, FpFlags.none]

/-- Whether finite operands signal DE by their classes (rule R185). -/
def operandDe (daz : Bool) (a b : Dword) : Bool := !daz && (cls a == .denormal || cls b == .denormal)

theorem laneSub_eq_finiteSub (ha : isFinite a = true) (hb : isFinite b = true) :
    laneSub rm daz ftz um a b =
      finiteSub rm ftz um (dazOf daz a) (dazOf daz b) { FpFlags.none with de := operandDe daz a b } := by
  rw [laneSub_of_finite ha hb, beq_denormal_dazOf, beq_denormal_dazOf, ← Bool.and_or_distrib_left]
  rfl

end

/-- One of the cases applies. -/
theorem operand_cases (a b : Dword) :
    isNan a = true ∨ (isNan a = false ∧ isNan b = true) ∨
      (cls a = .inf ∧ cls b = .inf ∧ signBit a = signBit b) ∨
      (cls a = .inf ∧ isNan b = false ∧ ¬ (cls a = .inf ∧ cls b = .inf ∧ signBit a = signBit b)) ∨
      (isFinite a = true ∧ cls b = .inf) ∨ (isFinite a = true ∧ isFinite b = true) := by
  have ha := isNan_false_iff a
  have hb := isNan_false_iff b
  cases hna : isNan a <;> cases hnb : isNan b <;> tauto

/-! ## The cases of finite operands -/

section
variable {rm : Rounding} {daz ftz um : Bool} {a b : Dword} {x : Int} (ha : isFinite a = true) (hb : isFinite b = true)
  (hx : exactDiff daz a b = x)

include ha hb hx

/-- Finite operands of the same value (rule R179). -/
theorem laneSub_of_zero (h0 : x = 0) : laneSub rm daz ftz um a b =
    (zeroOf (if cls (dazOf daz a) = .zero ∧ cls (dazOf daz b) = .zero ∧ signBit a ≠ signBit b then signBit a
      else rm == .down), { FpFlags.none with de := operandDe daz a b }) := by
  rw [laneSub_eq_finiteSub rm daz ftz um ha hb]
  refine (if_pos (hx.trans h0)).trans ?_
  rw [signBit_dazOf, signBit_dazOf]
  split_ifs <;> rfl

/-- A tiny difference that is not flushed (rules R183, R184). -/
theorem laneSub_of_tiny (h0 : x ≠ 0) (ht : x.natAbs < 2 ^ 23) (hkept : ¬ (um = true ∧ ftz = true)) :
    laneSub rm daz ftz um a b =
      (encVal (decide (x < 0)) x.natAbs, { FpFlags.none with de := operandDe daz a b, ue := !um }) := by
  subst hx
  rw [laneSub_eq_finiteSub rm daz ftz um ha hb]
  refine (if_neg h0).trans ((if_pos ht).trans ?_)
  cases um with
  | false => rfl
  | true =>
    obtain rfl : ftz = false := by simpa using hkept
    rfl

/-- A tiny difference that is flushed (rule R183). -/
theorem laneSub_of_flushed (h0 : x ≠ 0) (ht : x.natAbs < 2 ^ 23) : laneSub rm daz true true a b =
    (zeroOf (decide (x < 0)), { FpFlags.none with de := operandDe daz a b, ue := true, pe := true }) := by
  subst hx
  rw [laneSub_eq_finiteSub rm daz true true ha hb]
  exact (if_neg h0).trans (if_pos ht)

/-- A difference that overflows (rule R182). -/
theorem laneSub_of_overflow (hbig : 2 ^ 23 ≤ x.natAbs) (ho : 2 ^ 277 ≤ roundedMag rm x) :
    laneSub rm daz ftz um a b = (overflowResult rm (decide (x < 0)),
      { FpFlags.none with de := operandDe daz a b, oe := true, pe := true }) := by
  subst hx
  have hlog : 277 ≤ (roundedMag rm (exactDiff daz a b)).log2 := (le_log2_iff (by decide)).2 ho
  have h0 : exactDiff daz a b ≠ 0 := Int.natAbs_ne_zero.1 ((Nat.two_pow_pos 23).trans_le hbig).ne'
  rw [laneSub_eq_finiteSub rm daz ftz um ha hb]
  exact (if_neg h0).trans ((if_neg hbig.not_gt).trans (if_pos hlog))

/-- A difference that the format holds once rounded (rules R180, R181). -/
theorem laneSub_of_rounded (hbig : 2 ^ 23 ≤ x.natAbs) (hfit : roundedMag rm x < 2 ^ 277) :
    laneSub rm daz ftz um a b = (encVal (decide (x < 0)) (roundedMag rm x),
      { FpFlags.none with de := operandDe daz a b, pe := decide (roundedMag rm x ≠ x.natAbs) }) := by
  subst hx
  have hlog : ¬ 277 ≤ (roundedMag rm (exactDiff daz a b)).log2 := fun h =>
    hfit.not_ge ((le_log2_iff (by decide)).1 h)
  have h0 : exactDiff daz a b ≠ 0 := Int.natAbs_ne_zero.1 ((Nat.two_pow_pos 23).trans_le hbig).ne'
  rw [laneSub_eq_finiteSub rm daz ftz um ha hb]
  refine (if_neg h0).trans ((if_neg hbig.not_gt).trans ((if_neg hlog).trans (Prod.ext rfl ?_)))
  by_cases hy : roundedMag rm (exactDiff daz a b) = (exactDiff daz a b).natAbs
  · exact (if_pos hy).trans (by rw [decide_eq_false (not_not_intro hy)]; rfl)
  · exact (if_neg hy).trans (by rw [decide_eq_true hy])

end

/-- What finite operands can give whose exact difference is `x`, DE being `de` (rules R179 to R184). -/
inductive FiniteOutcome (rm : Rounding) (ftz um : Bool) (x : Int) (de : Bool) : Dword × FpFlags → Prop
  | zero (h0 : x = 0) (s : Bool) : FiniteOutcome rm ftz um x de (zeroOf s, { FpFlags.none with de })
  | tiny (h0 : x ≠ 0) (ht : x.natAbs < 2 ^ 23) (hkept : ¬ (um = true ∧ ftz = true)) :
    FiniteOutcome rm ftz um x de (encVal (decide (x < 0)) x.natAbs, { FpFlags.none with de, ue := !um })
  | flushed (h0 : x ≠ 0) (ht : x.natAbs < 2 ^ 23) (hum : um = true) (hftz : ftz = true) :
    FiniteOutcome rm ftz um x de (zeroOf (decide (x < 0)), { FpFlags.none with de, ue := true, pe := true })
  | overflow (hbig : 2 ^ 23 ≤ x.natAbs) (ho : 2 ^ 277 ≤ roundedMag rm x) :
    FiniteOutcome rm ftz um x de
      (overflowResult rm (decide (x < 0)), { FpFlags.none with de, oe := true, pe := true })
  | rounded (hbig : 2 ^ 23 ≤ x.natAbs) (hfit : roundedMag rm x < 2 ^ 277) :
    FiniteOutcome rm ftz um x de
      (encVal (decide (x < 0)) (roundedMag rm x), { FpFlags.none with de, pe := decide (roundedMag rm x ≠ x.natAbs) })

theorem laneSub_finiteOutcome (rm : Rounding) (daz ftz um : Bool) {a b : Dword} (ha : isFinite a = true)
    (hb : isFinite b = true) :
    FiniteOutcome rm ftz um (exactDiff daz a b) (operandDe daz a b) (laneSub rm daz ftz um a b) := by
  by_cases h0 : exactDiff daz a b = 0
  · exact laneSub_of_zero ha hb rfl h0 ▸ .zero h0 _
  rcases lt_or_ge (exactDiff daz a b).natAbs (2 ^ 23) with ht | hbig
  · by_cases hflush : um = true ∧ ftz = true
    · obtain ⟨rfl, rfl⟩ := hflush
      exact laneSub_of_flushed ha hb rfl h0 ht ▸ .flushed h0 ht rfl rfl
    · exact laneSub_of_tiny ha hb rfl h0 ht hflush ▸ .tiny h0 ht hflush
  · rcases le_or_gt (2 ^ 277) (roundedMag rm (exactDiff daz a b)) with ho | hfit
    · exact laneSub_of_overflow ha hb rfl hbig ho ▸ .overflow hbig ho
    · exact laneSub_of_rounded ha hb rfl hbig hfit ▸ .rounded hbig hfit

section
variable {rm : Rounding} {ftz um de : Bool} {x : Int} {r : Dword × FpFlags} (h : FiniteOutcome rm ftz um x de r)

include h

/-- DE of finite operands is that of their classes. -/
theorem FiniteOutcome.de_eq : r.2.de = de := by cases h <;> rfl

/-- Finite operands do not signal IE; OE comes with PE and without UE, and UE in one of two ways (rule R186). -/
theorem FiniteOutcome.flags : r.2.ie = false ∧ (r.2.oe = true → r.2.ue = false ∧ r.2.pe = true) ∧
    (r.2.ue = true → (r.2.pe = true ∧ ftz = true ∧ um = true) ∨ (r.2.pe = false ∧ um = false)) := by
  cases h with
  | zero => exact ⟨rfl, nofun, nofun⟩
  | tiny => exact ⟨rfl, nofun, fun hue => .inr ⟨rfl, by simpa using hue⟩⟩
  | flushed h0 ht hum hftz => exact ⟨rfl, nofun, fun _ => .inl ⟨rfl, hftz, hum⟩⟩
  | overflow => exact ⟨rfl, fun _ => ⟨rfl, rfl⟩, nofun⟩
  | rounded => exact ⟨rfl, nofun, nofun⟩

end

/-! ## The obligations -/

/-- Settles O10: a NaN is no denormal, so it is propagated as it is. -/
theorem nanPropagation : Obligations.NanPropagation := fun rm daz ftz um _ _ =>
  ⟨laneSub_of_isNan_left rm daz ftz um, laneSub_of_isNan_right rm daz ftz um⟩

/-- Settles O11: an operand that is neither a NaN nor an infinity is finite. -/
theorem infiniteOperands : Obligations.InfiniteOperands := by
  intro rm daz ftz um a b
  refine ⟨laneSub_of_inf_sub_inf rm daz ftz um, fun hna hnb hne => ⟨fun ha => ?_, fun ha hb => ?_⟩⟩
  · exact laneSub_of_inf_left rm daz ftz um ha hnb hne
  · exact laneSub_of_inf_right rm daz ftz um (((isNan_false_iff a).1 hna).resolve_right ha) hb

/-- Settles O13, by the cases of the operands. -/
theorem denormalOperand : Obligations.DenormalOperand := by
  intro rm daz ftz um a b
  rcases operand_cases a b with ha | ⟨ha, hb⟩ | ⟨ha, hb, hs⟩ | ⟨ha, hb, hne⟩ | ⟨ha, hb⟩ | ⟨ha, hb⟩
  · simp [laneSub_of_isNan_left, ha, FpFlags.none]
  · simp [laneSub_of_isNan_right, ha, hb, FpFlags.none]
  · simp [laneSub_of_inf_sub_inf, ha, hb, hs, FpFlags.none]
  · have hna : isNan a = false := (isNan_false_iff a).2 (.inr ha)
    rw [laneSub_of_inf_left rm daz ftz um ha hb hne]
    simp_all
  · have hna : isNan a = false := (isNan_false_iff a).2 (.inl ha)
    have hnb : isNan b = false := (isNan_false_iff b).2 (.inr hb)
    have hinf : cls a ≠ .inf := cls_ne_inf_of_isFinite ha
    simp [laneSub_of_inf_right, ha, hb, hna, hnb, hinf]
  · have hna : isNan a = false := (isNan_false_iff a).2 (.inl ha)
    have hnb : isNan b = false := (isNan_false_iff b).2 (.inl hb)
    have hinf : cls a ≠ .inf := cls_ne_inf_of_isFinite ha
    simp [(laneSub_finiteOutcome rm daz ftz um ha hb).de_eq, operandDe, hna, hnb, hinf]

/-- Settles O14: IE is signalled only for operands that are not all finite, the rest only for finite ones. -/
theorem flagSets : Obligations.FlagSets := by
  intro rm daz ftz um a b
  rcases operand_cases a b with ha | ⟨ha, hb⟩ | ⟨ha, hb, hs⟩ | ⟨ha, hb, hne⟩ | ⟨ha, hb⟩ | ⟨ha, hb⟩
  · rw [laneSub_of_isNan_left rm daz ftz um ha]
    simp +contextual [FpFlags.none]
  · rw [laneSub_of_isNan_right rm daz ftz um ha hb]
    simp +contextual [FpFlags.none]
  · rw [laneSub_of_inf_sub_inf rm daz ftz um ha hb hs]
    simp [FpFlags.none]
  · rw [laneSub_of_inf_left rm daz ftz um ha hb hne]
    simp [FpFlags.none]
  · rw [laneSub_of_inf_right rm daz ftz um ha hb]
    simp [FpFlags.none]
  · obtain ⟨hie, hoe, hue⟩ := (laneSub_finiteOutcome rm daz ftz um ha hb).flags
    exact ⟨fun h => absurd (hie.symm.trans h) Bool.false_ne_true, hoe, hue⟩

end Sys2Proof.Machine
end

section
/-! SUPPORT. Differences of finite operands: exact zeros, tiny results, overflow, rounded results, and exchanged
operands (spec/43_lane_arithmetic.md rules R179 to R184, R188). -/

namespace Sys2Proof.Machine

/-! ## What the outcomes have in common -/

section
variable {rm : Rounding} {ftz um de : Bool} {x : Int} {r : Dword × FpFlags} (h : FiniteOutcome rm ftz um x de r)

include h

/-- OE is signalled exactly when the rounded magnitude is at least 2^128. -/
theorem FiniteOutcome.oe_iff : r.2.oe = true ↔ 2 ^ 277 ≤ roundedMag rm x := by
  have hsmall : x.natAbs < 2 ^ 23 → ¬ 2 ^ 277 ≤ roundedMag rm x := fun ht =>
    not_le.2 (roundedMag_of_tiny rm ht ▸ tiny_lt ht)
  cases h with
  | zero h0 s => exact iff_of_false Bool.false_ne_true (hsmall (h0 ▸ by decide))
  | tiny h0 ht hkept => exact iff_of_false Bool.false_ne_true (hsmall ht)
  | flushed h0 ht hum hftz => exact iff_of_false Bool.false_ne_true (hsmall ht)
  | overflow hbig ho => exact iff_of_true rfl ho
  | rounded hbig hfit => exact iff_of_false Bool.false_ne_true hfit.not_ge

/-- With OE comes PE, and the result of rule R182. -/
theorem FiniteOutcome.of_oe (hoe : r.2.oe = true) : r.2.pe = true ∧ r.1 = overflowResult rm (decide (x < 0)) := by
  have ho := h.oe_iff.1 hoe
  cases h with
  | overflow => exact ⟨rfl, rfl⟩
  | rounded hbig hfit => exact absurd ho hfit.not_ge
  | _ => exact absurd hoe Bool.false_ne_true

/-- A difference that neither overflows nor is flushed is delivered as the pattern of the rounded magnitude, with its
sign where it is not 0, and with PE where that is not its own magnitude (rules R179 to R181, R183, R184). -/
theorem FiniteOutcome.delivered (hoe : r.2.oe = false) (hkept : ¬ (r.2.ue = true ∧ r.2.pe = true)) :
    roundedMag rm x < 2 ^ 277 ∧ (r.2.pe = true ↔ roundedMag rm x ≠ x.natAbs) ∧
      ∃ s, (x ≠ 0 → s = decide (x < 0)) ∧ r.1 = encVal s (roundedMag rm x) := by
  have hfit : roundedMag rm x < 2 ^ 277 :=
    not_le.1 fun ho => Bool.false_ne_true (hoe.symm.trans (h.oe_iff.2 ho))
  refine ⟨hfit, ?_⟩
  cases h with
  | zero h0 s =>
    subst h0
    rw [roundedMag_zero]
    exact ⟨iff_of_false Bool.false_ne_true (not_not_intro rfl), s, fun hne => absurd rfl hne, rfl⟩
  | tiny h0 ht =>
    rw [roundedMag_of_tiny rm ht]
    exact ⟨iff_of_false Bool.false_ne_true (not_not_intro rfl), _, fun _ => rfl, rfl⟩
  | flushed => exact absurd ⟨rfl, rfl⟩ hkept
  | overflow => exact absurd hoe (Bool.false_ne_true ∘ Eq.symm)
  | rounded => exact ⟨decide_eq_true_iff, _, fun _ => rfl, rfl⟩

/-- The value delivered is the rounded one. -/
theorem FiniteOutcome.delivered_val (hoe : r.2.oe = false) (hkept : ¬ (r.2.ue = true ∧ r.2.pe = true)) :
    isFinite r.1 = true ∧ valOf r.1 = roundedVal rm x := by
  obtain ⟨hfit, -, s, hs, hr⟩ := h.delivered hoe hkept
  have hheld := representable_roundedMag rm x
  rw [hr]
  refine ⟨(encVal_spec s hheld hfit).1, ?_⟩
  by_cases h0 : x = 0
  · rw [valOf_encVal s hheld hfit, h0, roundedVal, roundedMag_zero]
    simp
  · rw [hs h0, valOf_encVal_roundedMag hfit]

/-- A flushed result is a zero, which the difference is not (rule R183). -/
theorem FiniteOutcome.flushed_val (hue : r.2.ue = true) (hpe : r.2.pe = true) : valOf r.1 = 0 ∧ x ≠ 0 := by
  cases h with
  | flushed h0 => exact ⟨(valOf_zeroOf _).2, h0⟩
  | tiny => exact absurd hpe Bool.false_ne_true
  | _ => exact absurd hue Bool.false_ne_true

/-- PE is signalled exactly when the result has not the value of the difference: no finite pattern has the value of one
that overflows, and 0 is not that of one flushed. -/
theorem FiniteOutcome.pe_iff : r.2.pe = true ↔ isFinite r.1 = false ∨ valOf r.1 ≠ x := by
  by_cases hoe : r.2.oe = true
  · have hbig : maxFinite < x.natAbs := maxFinite_lt_of_overflow (h.oe_iff.1 hoe)
    refine iff_of_true (h.of_oe hoe).1 (or_iff_not_imp_left.2 fun hfin heq => ?_)
    have hle : magOf r.1 ≤ maxFinite := magOf_le_maxFinite (by simpa using hfin)
    rw [← natAbs_valOf, heq] at hle
    exact hle.not_gt hbig
  rw [Bool.not_eq_true] at hoe
  by_cases hflush : r.2.ue = true ∧ r.2.pe = true
  · obtain ⟨hval, h0⟩ := h.flushed_val hflush.1 hflush.2
    exact iff_of_true hflush.2 (.inr (hval ▸ h0.symm))
  · obtain ⟨-, hpe, -⟩ := h.delivered hoe hflush
    obtain ⟨hfin, hval⟩ := h.delivered_val hoe hflush
    rw [hpe, hfin, hval, ne_eq, ne_eq, roundedVal_eq_iff]
    simp

end

/-- Settles O16, by the outcomes of finite operands. -/
theorem precisionIsInexactness : Obligations.PrecisionIsInexactness := fun rm daz ftz um _ _ ha hb =>
  (laneSub_finiteOutcome rm daz ftz um ha hb).pe_iff

/-! ## Zeros and tiny results -/

/-- Settles O12, by the case of an exact zero; the signs are compared as bits. -/
theorem exactZero : Obligations.ExactZero := by
  intro rm daz ftz um a b ha hb hx
  rw [laneSub_of_zero ha hb hx rfl]
  refine ⟨?_, rfl, rfl, rfl⟩
  split_ifs <;> simp_all [zeroOf_cases]

/-- Settles O15: a magnitude below 2^23 units is held. -/
theorem tinyResults : Obligations.TinyResults := by
  intro rm daz ftz um a b ha hb hx ht
  refine ⟨?_, fun hum hftz => ?_, fun hkept => ?_⟩
  · rw [← Bool.not_eq_true, (laneSub_finiteOutcome rm daz ftz um ha hb).oe_iff, roundedMag_of_tiny rm ht, not_le]
    exact tiny_lt ht
  · subst hum hftz
    rw [laneSub_of_flushed ha hb rfl hx ht]
    exact ⟨by simp [zeroOf_cases], rfl, rfl⟩
  · rw [laneSub_of_tiny ha hb rfl hx ht hkept]
    refine ⟨cls_encVal_of_lt _ (Int.natAbs_ne_zero.2 hx) ht, ?_, rfl, rfl⟩
    have hmag := roundedMag_of_tiny rm ht
    rw [← hmag, valOf_encVal_roundedMag (hmag ▸ tiny_lt ht), (roundedVal_eq_iff rm _).2 hmag]

/-! ## Overflow -/

/-- Settles O17: the least rounded magnitude of an overflow, by the mode. -/
theorem overflowExactly : Obligations.OverflowExactly := by
  intro rm daz ftz um a b ha hb x r
  have h : FiniteOutcome rm ftz um x _ r := laneSub_finiteOutcome rm daz ftz um ha hb
  obtain ⟨htrunc, hdown, hup⟩ := roundMag_directed (decide (x < 0)) x.natAbs
  refine ⟨h.oe_iff.trans ?_, fun ho => ⟨(h.of_oe ho).1, (h.of_oe ho).2.trans ?_⟩⟩
  · cases rm with
    | nearest => exact two_pow_le_roundMag_nearest _ _
    | truncate =>
      rw [roundedMag, htrunc]
      exact two_pow_le_floorMag _
    | down =>
      rw [roundedMag, hdown]
      by_cases hs : x < 0
      · simpa only [hs, decide_true, if_true] using two_pow_le_ceilMag _
      · simpa only [hs, decide_false, if_false, Bool.false_eq_true] using two_pow_le_floorMag _
    | up =>
      rw [roundedMag, hup]
      by_cases hs : x < 0
      · simpa only [hs, decide_true, if_true] using two_pow_le_floorMag _
      · simpa only [hs, decide_false, if_false, Bool.false_eq_true] using two_pow_le_ceilMag _
  · by_cases hs : x < 0
    · rw [decide_eq_true hs]
      cases rm <;> simp only [hs, if_true] <;> decide
    · rw [decide_eq_false hs]
      cases rm <;> simp only [hs, if_false] <;> decide

/-! ## Rounded results -/

/-- Settles O18: every finite pattern's magnitude is held. -/
theorem nearestIsNearest : Obligations.NearestIsNearest := by
  intro daz ftz um a b ha hb x r hoe hkept
  have h : FiniteOutcome .nearest ftz um x _ r := laneSub_finiteOutcome .nearest daz ftz um ha hb
  obtain ⟨-, -, s, -, hr⟩ := h.delivered hoe hkept
  obtain ⟨hfin, hval⟩ := h.delivered_val hoe hkept
  refine ⟨hfin, fun v _ => ?_⟩
  obtain ⟨hnear, heven⟩ := roundedVal_nearest x (valOf v) (representable_natAbs_valOf v)
  rw [hval]
  refine ⟨hnear, fun heq hne => ?_⟩
  rw [hr]
  exact encVal_getLsbD_zero s (representable_roundedMag _ _) (heven heq hne)

/-- Settles O19: every finite pattern's magnitude is held. -/
theorem directedIsTightest : Obligations.DirectedIsTightest := by
  intro rc daz ftz um a b ha hb x r hoe hkept
  have h : FiniteOutcome (.ofBits rc) ftz um x _ r := laneSub_finiteOutcome _ daz ftz um ha hb
  obtain ⟨hfin, hval⟩ := h.delivered_val hoe hkept
  rw [hval]
  refine ⟨hfin, ?_, ?_, ?_⟩
  · rintro rfl
    obtain ⟨hle, htight⟩ := roundedVal_down x
    exact ⟨hle, fun v _ => htight _ (representable_natAbs_valOf v)⟩
  · rintro rfl
    obtain ⟨hle, htight⟩ := roundedVal_up x
    exact ⟨hle, fun v _ => htight _ (representable_natAbs_valOf v)⟩
  · rintro rfl
    obtain ⟨hpos, hneg, htight⟩ := roundedVal_truncate x
    exact ⟨hpos, hneg, fun v _ => htight _ (representable_natAbs_valOf v)⟩

/-! ## Exact differences -/

/-- The operands' magnitudes are held, so a difference of positive operands within a factor of 2 is (rule R188(c)). -/
theorem representable_sub_valOf {a b : Dword} (ha : 0 < valOf a) (hb : 0 < valOf b) (hab : valOf a ≤ 2 * valOf b)
    (hba : valOf b ≤ 2 * valOf a) : Representable (valOf a - valOf b).natAbs := by
  have hra := representable_natAbs_valOf a
  have hrb := representable_natAbs_valOf b
  rcases le_total (valOf a) (valOf b) with h | h
  · have heq : (valOf a - valOf b).natAbs = (valOf b).natAbs - (valOf a).natAbs := by omega
    exact heq ▸ hrb.sub hra (by omega) (by omega)
  · have heq : (valOf a - valOf b).natAbs = (valOf a).natAbs - (valOf b).natAbs := by omega
    exact heq ▸ hra.sub hrb (by omega) (by omega)

/-- A difference that is held and not flushed is delivered exactly (rule R188(c)). -/
theorem FiniteOutcome.exact {rm : Rounding} {um de : Bool} {x : Int} {r : Dword × FpFlags}
    (h : FiniteOutcome rm false um x de r) (hheld : Representable x.natAbs) (hmax : x.natAbs ≤ maxFinite) :
    r.2.pe = false ∧ valOf r.1 = x := by
  have hmag : roundedMag rm x = x.natAbs := hheld.roundedMag_eq rm
  have hoe : r.2.oe = false := by
    rw [← Bool.not_eq_true, h.oe_iff, hmag, not_le]
    exact hmax.trans_lt maxFinite_lt
  have hkept : ¬ (r.2.ue = true ∧ r.2.pe = true) := by
    rintro ⟨hu, hp⟩
    obtain ⟨-, -, hue⟩ := h.flags
    simpa [hp] using hue hu
  obtain ⟨-, hpe, -⟩ := h.delivered hoe hkept
  exact ⟨by simpa [hmag] using hpe, (h.delivered_val hoe hkept).2.trans ((roundedVal_eq_iff rm x).2 hmag)⟩

/-- Settles O20: the difference is held and, of positive numbers, not above the larger one. -/
theorem nearbyIsExact : Obligations.NearbyIsExact := by
  intro rm daz um a b ha hb x y hx hy hxy hyx
  refine (laneSub_finiteOutcome rm daz false um ha hb).exact (representable_sub_valOf hx hy hxy hyx) ?_
  have hxmax := magOf_le_maxFinite ((isFinite_dazOf daz a).trans ha)
  have hymax := magOf_le_maxFinite ((isFinite_dazOf daz b).trans hb)
  rw [← natAbs_valOf] at hxmax hymax
  unfold exactDiff
  omega

/-! ## Exchanged operands -/

theorem overflowResult_opposite (rm : Rounding) (s : Bool) :
    overflowResult rm.opposite (!s) = overflowResult rm s ^^^ 0x80000000#32 := by
  cases rm <;> cases s <;> decide

theorem encVal_not (s : Bool) (n : Nat) : encVal (!s) n = encVal s n ^^^ 0x80000000#32 :=
  (append_xor_sign s (encMag n)).symm

theorem operandDe_comm (daz : Bool) (a b : Dword) : operandDe daz b a = operandDe daz a b := by
  simp only [operandDe, Bool.or_comm]

/-- Operands whose difference is opposite give the result with the other sign and the same conditions, once the mode is
the opposite one. -/
theorem FiniteOutcome.laneSub_opposite {rm : Rounding} {daz ftz um de : Bool} {x : Int} {r : Dword × FpFlags}
    (h : FiniteOutcome rm ftz um x de r) (h0 : x ≠ 0) {a b : Dword} (ha : isFinite a = true) (hb : isFinite b = true)
    (hx : exactDiff daz a b = -x) (hde : operandDe daz a b = de) :
    laneSub rm.opposite daz ftz um a b = (r.1 ^^^ 0x80000000#32, r.2) := by
  have habs : (-x).natAbs = x.natAbs := Int.natAbs_neg x
  have hsign : decide (-x < 0) = !decide (x < 0) := decide_neg_lt_zero h0
  have hmag : roundedMag rm.opposite (-x) = roundedMag rm x := roundedMag_neg rm x
  have hne : -x ≠ 0 := neg_ne_zero.2 h0
  cases h with
  | zero hzero => exact absurd hzero h0
  | tiny _ ht hkept => rw [laneSub_of_tiny ha hb hx hne (habs ▸ ht) hkept, habs, hsign, encVal_not, hde]
  | flushed _ ht hum hftz =>
    subst hum hftz
    rw [laneSub_of_flushed ha hb hx hne (habs ▸ ht), hsign, hde]
    exact Prod.ext (encVal_not _ 0) rfl
  | overflow hbig ho =>
    rw [laneSub_of_overflow ha hb hx (habs ▸ hbig) (hmag ▸ ho), hsign, overflowResult_opposite, hde]
  | rounded hbig hfit =>
    rw [laneSub_of_rounded ha hb hx (habs ▸ hbig) (hmag ▸ hfit), hmag, hsign, habs, encVal_not, hde]

/-- Settles O21: the exchanged operands have the opposite difference. -/
theorem exchangeNegates : Obligations.ExchangeNegates := by
  intro daz ftz um a b ha hb h0 neg
  have hswap : exactDiff daz b a = -exactDiff daz a b := (Int.neg_sub _ _).symm
  have hneg : ∀ rm : Rounding, laneSub rm.opposite daz ftz um b a = neg (laneSub rm daz ftz um a b) := fun rm =>
    (laneSub_finiteOutcome rm daz ftz um ha hb).laneSub_opposite h0 hb ha hswap (operandDe_comm daz a b)
  exact ⟨hneg .nearest, hneg .truncate, hneg .up, hneg .down⟩

end Sys2Proof.Machine
end

section
/-! SUPPORT. Steps that end in an exception: `#UD` and `#NM` before the operation, `#XM` or `#UD` for an unmasked
condition, and what a fault leaves of the state (spec/60_exceptions.md rules R200 to R221). -/

namespace Sys2Proof.Machine

/-! ## Unmasked conditions -/

theorem fullLanes_getElem (m : Bytes) (j : Fin 16) : (fullLanes m).lanes[j] = m.dword (4 * j.val) := by
  simp [fullLanes]

theorem evexLanes_getElem (bc : Bool) (m : Bytes) (j : Fin 16) :
    (evexLanes bc m).lanes[j] = m.dword (if bc then 0 else 4 * j.val) := by
  simp [evexLanes]

/-- An execution on the elements `a` and `second` ends in a numeric exception where an active one signals an unmasked
condition, whatever it was to write. -/
theorem deliver_numericFault {s : State} {vl : VLen} {act : Nat → Bool} {masked a b : Lanes}
    {second : Fin 16 → Dword} (hb : ∀ j : Fin 16, b[j] = second j)
    (hun : ¬ LanesMasked s (vlLanes vl) act fun j => (mxSub s a[j] (second j)).2)
    (d : BitVec 5) (r : Lanes) (evs : List ReadEvent) (ilen : Nat) :
    NumericFault
      (andThen (deliverFp s (elements (mxControl s) vl act masked a b).2) fun mx => .next (complete s d r mx evs ilen))
      s (vlLanes vl) act fun j => (mxSub s a[j] (second j)).2 := by
  obtain rfl : (fun j : Fin 16 => b[j]) = second := funext hb
  exact (deliver_ends (elements_signalled_mxSub ..) (fun _ => rfl) d evs ilen).2 hun

/-- The legacy form that has its source ends in a numeric exception where an element signals an unmasked condition. -/
theorem execSubps_numericFault {p : List Pfx} {reg : BitVec 3} {rm : Rm} {s : State} {src : Loaded}
    {second : Fin 16 → Dword} (hr : Ready (udLegacy p s) s)
    (hsrc : legacySource s p rm (instrLength (.subps p reg rm)) = .next src)
    (hsecond : ∀ j : Fin 16, src.lanes[j] = second j) :
    let d := low16 (regNum s.mode (rexOf s.mode p).1 reg)
    let f := fun j : Fin 16 => (mxSub s (s.readZmm d)[j] (second j)).2
    ¬ LanesMasked s 4 (fun _ => true) f → NumericFault (execSubps p reg rm s) s 4 (fun _ => true) f := by
  intro d f hun
  rw [execSubps, enter_of_ready hr, hsrc, andThen_next]
  exact deliver_numericFault (vl := .v128) hsecond hun ..

/-- A VEX form that has its source ends in a numeric exception where an element signals an unmasked condition. -/
theorem vexStep_numericFault {vl : VLen} {p : List Pfx} {r x b : Bool} {vvvv : BitVec 4} {reg : BitVec 3} {rm : Rm}
    {ilen : Nat} {s : State} {src : Loaded} {second : Fin 16 → Dword} (hr : Ready (udVex p s) s)
    (hsrc : vexSource s p x b vl rm ilen = .next src)
    (hsecond : ∀ j : Fin 16, src.lanes[j] = second j) :
    let f := fun j : Fin 16 => (mxSub s (s.readZmm (low16 (vvvvNum s.mode vvvv)))[j] (second j)).2
    ¬ LanesMasked s (vlLanes vl) (fun _ => true) f →
      NumericFault (vexStep vl p r x b vvvv reg rm ilen s) s (vlLanes vl) (fun _ => true) f := by
  intro f hun
  rw [vexStep, enter_of_ready hr, hsrc, andThen_next]
  exact deliver_numericFault hsecond hun ..

/-- An EVEX form that has its source ends in a numeric exception where an active element signals an unmasked
condition. -/
theorem exec_evexInstr_numericFault {vl : VLen} {p : List Pfx} {e : Evex} {bc : Bool} {reg : BitVec 3} {rm : Rm}
    {s : State} {src : Loaded} {second : Fin 16 → Dword} (hr : Ready (udOf (evexInstr vl p e bc reg rm) s) s)
    (hsrc : evexSource s p e bc vl rm (instrLength (evexInstr vl p e bc reg rm)) = .next src)
    (hsecond : ∀ j : Fin 16, src.lanes[j] = second j) :
    let f := fun j : Fin 16 => (mxSub s (s.readZmm (vvvvNum5 s.mode e.vp e.vvvv))[j] (second j)).2
    ¬ LanesMasked s (vlLanes vl) (active s e.aaa) f →
      NumericFault (exec (evexInstr vl p e bc reg rm) s) s (vlLanes vl) (active s e.aaa) f := by
  intro f hun
  rw [udOf_evexInstr] at hr
  rw [exec_evexInstr, evexStep, enter_of_ready hr, hsrc, andThen_next]
  exact deliver_numericFault hsecond hun ..

/-- Settles O39: a register source is had at once. -/
theorem unmaskedRegister : Obligations.UnmaskedRegister := by
  intro p v w e reg n s
  refine ⟨fun hr => ?_, fun hr => ⟨?_, ?_⟩, fun hr => ⟨?_, ?_⟩, fun hr => ⟨?_, ?_⟩, fun hr => ?_⟩
  case refine_1 => exact execSubps_numericFault hr rfl fun _ => rfl
  case refine_2 | refine_4 => exact vexStep_numericFault (vl := .v128) hr rfl fun _ => rfl
  case refine_3 | refine_5 => exact vexStep_numericFault (vl := .v256) hr rfl fun _ => rfl
  case refine_6 => exact exec_evexInstr_numericFault (vl := .v128) hr rfl fun _ => rfl
  case refine_7 => exact exec_evexInstr_numericFault (vl := .v256) hr rfl fun _ => rfl
  case refine_8 => exact exec_evexInstr_numericFault (vl := .v512) hr rfl fun _ => rfl

/-- A VEX form whose memory operand of `n` bytes can be read, and cannot raise `#AC(0)`, ends in a numeric exception
where an element signals an unmasked condition. -/
theorem exec_vex_mem_numericFault {i : Instr} {vl : VLen} {p : List Pfx} {r x b : Bool} {vvvv : BitVec 4}
    {reg : BitVec 3} {o : MemOp} {n : Nat} {s : State}
    (hi : exec i s = vexStep vl p r x b vvvv reg (.mem o) (instrLength i) s) (hn : vlBytes vl = n) :
    let ad := memAddr s p x b 1 (instrLength i) o
    let m := readOf s ad.1 (addrSize s.mode p) ad.2 (List.range n) false
    let f := fun j : Fin 16 => (mxSub s (s.readZmm (low16 (vvvvNum s.mode vvvv)))[j] (m.dword (4 * j.val))).2
    Ready (udVex p s) s → Accessible s ad.1 (addrSize s.mode p) ad.2 (List.range n) →
    mayTrapAlign s (linear s ad.1 ad.2) n = false → ¬ LanesMasked s (n / 4) (fun _ => true) f →
    NumericFault (exec i s) s (n / 4) (fun _ => true) f := by
  subst hn
  intro ad m f hr hacc ht hun
  have hkl : vlBytes vl / 4 = vlLanes vl := Nat.mul_div_cancel_left _ (by decide)
  rw [hkl] at hun ⊢
  rw [hi]
  exact vexStep_numericFault hr (vexSource_of_accessible hacc (.inr (.inl ht))) (fullLanes_getElem m) hun

/-- Settles O40: each form has its source from an operand that can be read. -/
theorem unmaskedMemory : Obligations.UnmaskedMemory := by
  intro p v w e reg o s wide vl a n
  refine ⟨?_, ?_, ?_, fun bc => ?_⟩
  case refine_1 =>
    intro d ad m f hr hal hacc
    exact execSubps_numericFault hr (legacySource_of_accessible hal hacc) (fullLanes_getElem m)
  case refine_2 | refine_3 =>
    cases wide with
    | false => exact exec_vex_mem_numericFault (vl := .v128) rfl rfl
    | true => exact exec_vex_mem_numericFault (vl := .v256) rfl rfl
  case refine_4 =>
    intro i size ad ks m f hr hacc ht
    have hsrc := (evexSource_eq_next_iff (accessedOf_evexInstr vl p e bc reg (.mem o) s).symm).2
      ⟨hacc, .inr (.inl ht), rfl⟩
    exact exec_evexInstr_numericFault hr hsrc (evexLanes_getElem bc m)

/-! ## `#UD` and `#NM` before the operation -/

/-- A #UD condition ends every instruction in `#UD`, before every check but that of the reserved bits of `MXCSR`
(60_exceptions.md rule R217). -/
theorem exec_of_ud {i : Instr} {s : State} (hmx : mxReserved s.mxcsr = 0#16) (hud : udOf i s = true) :
    exec i s = .fault (.ud { s with faults := s.faults + 1 }) := by
  obtain ⟨body, hbody⟩ := exec_eq_enter i s
  simp [hbody, hud, enter, hmx, raise]

/-- An instruction with no #UD condition ends in `#NM` where `CR0.TS = 1` (60_exceptions.md rule R207). -/
theorem exec_of_ts {i : Instr} {s : State} (hmx : mxReserved s.mxcsr = 0#16) (hmode : s.mode ≠ .realAddress)
    (hts : s.crTs = true) (hud : udOf i s = false) : exec i s = .fault (.nm { s with faults := s.faults + 1 }) := by
  obtain ⟨body, hbody⟩ := exec_eq_enter i s
  simp [hbody, hud, enter, hmx, hmode, hts, raise]

/-- The #UD conditions of the legacy form (60_exceptions.md rule R217). -/
theorem udLegacy_iff {p : List Pfx} {s : State} : udLegacy p s = true ↔
    .lock ∈ p ∨ s.cr0.getLsbD 2 = true ∨ s.cr4.getLsbD 9 = false ∨ s.cfg.sse = false := by
  simp [udLegacy, State.crEm, State.osfxsr, or_assoc]

/-- The prefixes that may not precede VEX or EVEX (30_encoding.md rules R98(a), R105(a), R106). -/
theorem badVexPfx_iff {p : List Pfx} : badVexPfx p = true ↔
    endsInRex p = true ∨ .opSize ∈ p ∨ .repne ∈ p ∨ .rep ∈ p ∨ .lock ∈ p := by
  rw [badVexPfx, Bool.or_eq_true, Bool.or_eq_true, hasMandatory_iff, List.contains_iff_mem]
  tauto

/-- The #UD conditions of a VEX form (60_exceptions.md rule R217). -/
theorem udVex_iff {p : List Pfx} {s : State} : udVex p s = true ↔
    badVexPfx p = true ∨ s.mode = .realAddress ∨ s.cr4.getLsbD 18 = false ∨ s.xcr0.extractLsb' 1 2 ≠ 3#2 ∨
      s.cfg.avx = false := by
  simp [udVex, State.osxsave, State.xcrAvx, or_assoc]

/-- The #UD conditions of an EVEX form (60_exceptions.md rule R217). -/
theorem udEvex_iff {needsVl : Bool} {p : List Pfx} {e : Evex} {s : State} : udEvex needsVl p e s = true ↔
    badVexPfx p = true ∨ s.mode = .realAddress ∨ s.cr4.getLsbD 18 = false ∨ s.xcr0.extractLsb' 1 2 ≠ 3#2 ∨
      s.xcr0.extractLsb' 5 3 ≠ 7#3 ∨ s.cfg.avx512f = false ∨ (needsVl = true ∧ s.cfg.avx512vl = false) ∨
      (e.z = true ∧ e.aaa = 0#3) := by
  simp [udEvex, State.osxsave, State.xcrAvx, State.xcrAvx512, or_assoc]

/-- Settles O41: #UD is tested before `CR0.TS`. -/
theorem deviceNotAvailable : Obligations.DeviceNotAvailable :=
  ⟨fun _ _ => exec_of_ts, fun _ _ _ _ hmx _ hem => exec_of_ud hmx (udLegacy_iff.2 (.inr (.inl hem)))⟩

/-- Settles O42: the feature flag of each form is among its #UD conditions. -/
theorem featureFlags : Obligations.FeatureFlags := by
  intro i s hmx h
  refine exec_of_ud hmx ?_
  cases i with
  | subps p reg rm => exact udLegacy_iff.2 (by tauto)
  | vsubps128c5 p v reg rm | vsubps128c4 p v reg rm | vsubps256c5 p v reg rm | vsubps256c4 p v reg rm =>
    exact udVex_iff.2 (by tauto)
  | vsubpsEvex128 p e bc reg rm | vsubpsEvex256 p e bc reg rm | vsubpsEvex512 p e bc reg rm
  | vsubpsEvex512er p e rc reg n => exact udEvex_iff.2 (by tauto)

/-- Settles O44: the control bits, prefixes and masking fields are among the #UD conditions of their form. -/
theorem controlBits : Obligations.ControlBits := by
  intro i s hmx h
  refine exec_of_ud hmx ?_
  cases i with
  | subps p reg rm => exact udLegacy_iff.2 (by tauto)
  | vsubps128c5 p v reg rm | vsubps128c4 p v reg rm | vsubps256c5 p v reg rm | vsubps256c4 p v reg rm =>
    have hp := badVexPfx_iff (p := p)
    exact udVex_iff.2 (by tauto)
  | vsubpsEvex128 p e bc reg rm | vsubpsEvex256 p e bc reg rm | vsubpsEvex512 p e bc reg rm
  | vsubpsEvex512er p e rc reg n =>
    have hp := badVexPfx_iff (p := p)
    exact udEvex_iff.2 (by tauto)

/-! ## What a fault leaves -/

/-- The exceptions of a fetch have the shape. -/
theorem raiseFetch_shape {stop : FetchStop} {s : State} {e : Fault} (h : raiseFetch stop s = .fault e) :
    FaultShape s e := by
  unfold raiseFetch at h
  split_ifs at h
  cases stop with
  | fault f => exact raiseByte_shape h
  | device => cases h
  | tooLong =>
    cases h
    exact .of_plain rfl

/-- The exceptions of a step have the shape: those of its instruction, of an invalid encoding, and of the fetch. -/
theorem step_shape {s : State} {e : Fault} (h : step s = .fault e) : FaultShape s e := by
  unfold step at h
  split at h
  case h_1 => exact exec_shape h
  case h_2 =>
    refine enter_shape (fun hb => ?_) h
    cases hb
    exact .of_plain rfl
  case h_3 => cases h
  case h_4 => exact raiseFetch_shape h

/-- Settles O36: an exception of another vector than `#XM` and `#UD` sets no flag, and of another than `#PF` leaves
CR2. -/
theorem faultLeavesState : Obligations.FaultLeavesState := by
  intro s e h
  obtain ⟨g, c, hafter, hflags, hcr2⟩ := step_shape h
  refine ⟨g, c, hafter, fun hxm hud => ?_, fun hpf => hcr2.resolve_left ?_⟩
  · rcases hflags with ⟨a, rfl⟩ | ⟨a, rfl⟩ | hnone
    · exact absurd rfl hxm
    · exact absurd rfl hud
    · exact hnone
  · rintro ⟨code, a, rfl⟩
    exact hpf rfl

end Sys2Proof.Machine
end

section
/-! SUPPORT. No form runs before system software has set `CR4` (spec/70_reset_and_hazards.md rules R240, R242). -/

namespace Sys2Proof.Machine

/-- While `CR4 = 0` no form runs: the legacy form needs `CR4.OSFXSR`, every VEX or EVEX form `CR4.OSXSAVE`
(60_exceptions.md rule R205). -/
theorem exec_of_cr4_zero (i : Instr) {s : State} (hmx : mxReserved s.mxcsr = 0#16) (hcr4 : s.cr4 = 0#32) :
    exec i s = .fault (.ud { s with faults := s.faults + 1 }) := by
  have hfxsr : s.cr4.getLsbD 9 = false := by rw [hcr4, BitVec.getLsbD_zero]
  have hxsave : s.cr4.getLsbD 18 = false := by rw [hcr4, BitVec.getLsbD_zero]
  refine controlBits i s hmx ?_
  cases i with
  | subps => exact .inr hfxsr
  | vsubps128c5 | vsubps128c4 | vsubps256c5 | vsubps256c4 => exact .inl hxsave
  | vsubpsEvex128 | vsubpsEvex256 | vsubpsEvex512 | vsubpsEvex512er => exact .inl hxsave

/-- Settles O58: `CR4 = 0` after reset, and the reserved bits of `MXCSR` are 0. -/
theorem resetRaisesUd : Obligations.ResetRaisesUd := fun i => exec_of_cr4_zero i (by decide) rfl

end Sys2Proof.Machine
end
